-- ==== Sys2Proof/Word.lean ====
section
/-! DEFINITION. The word types of the machine: bytes, halfwords, words and 64-bit commands. -/

namespace Sys2Proof

/-- One byte of memory (20_memory.md R71). -/
abbrev Byte := BitVec 8

/-- A 16-bit value: a coordinate, an RGB565 pixel, a 16-bit transfer word. -/
abbrev Half := BitVec 16

/-- A 32-bit value: a register, a command word, an XRGB8888 pixel. -/
abbrev Word := BitVec 32

/-- The 64-bit command value `C = W1 ‖ W0` (30_encoding.md R110). -/
abbrev Command := BitVec 64

end Sys2Proof
end

