-- ==== Sys2Proof/Config.lean ====
section
/-! DEFINITION. What a platform fixes (00_scope.md R6, 10_state.md R45) and the free values: constants without a body, about
which nothing can be proved, so that a claim holds whatever they are. -/

namespace Sys2Proof.Config

/-- What the transport answers to one bus event that can fail or that returns data (20_memory.md R82). -/
inductive Answer where
  /-- The event succeeded and, where it returns data, these are its words; words that are missing are free. -/
  | ok (words : List Half)
  /-- The transport reports failure. -/
  | fail
  /-- The transport never answers (70_reset_and_hazards.md R334). -/
  | silent
  deriving DecidableEq, Repr, Inhabited

/-- A range of memory the sequencer may not read or may not write; the complement of `Accessible` (20_memory.md R75, log 7). -/
structure Hole where
  base : Nat
  size : Nat
  /-- reads of these bytes are barred -/
  noRead : Bool
  /-- writes of these bytes are barred -/
  noWrite : Bool
  deriving DecidableEq, Repr

/-- The parameters that are fixed for a run (00_scope.md R6, 10_state.md R45). -/
structure Platform where
  /-- `MEM_BE`: big-endian memory (20_memory.md R72) -/
  memBE : Bool
  /-- `PAGE`, in bytes (41_register_transfer.md R232) -/
  page : Nat
  /-- what `Accessible` excludes (20_memory.md R75) -/
  holes : List Hole
  /-- where the register block lies in the sequencer's memory space, if it does (20_memory.md R70) -/
  block : Option Word
  deriving DecidableEq, Repr

/-- The platform of the spec's fixed values (00_scope.md R6); nothing barred and no block mapped are the model's DESIGN CHOICE
(log 7, log 9). -/
def defaultPlatform : Platform := { memBE := false, page := 4096, holes := [], block := none }

/-- The decisions on `PAGE` allow an even number of at least 2 (92_eei_decisions.md D6). -/
def Platform.wf (p : Platform) : Bool := p.page % 2 == 0 && 2 ≤ p.page

/-- FREE VALUE (log 1): the answer number `n` of the transport, where the script of the state has run out. -/
opaque answer : Nat → Answer

/-- FREE VALUE (log 2): word `k` of the data of answer number `n`, where the answer itself does not give it. -/
opaque readWord : Nat → Nat → Half

/-- FREE VALUE (log 3): what a byte of memory that no agent has written reads as, by its address. -/
opaque powerUpByte : Nat → Byte

/-- FREE VALUE (log 4): draw number `n` between the value before and the value after a host store that falls inside a command. -/
opaque raceBit : Nat → Bool

end Sys2Proof.Config
end

