-- ==== Sys2Proof/Syntax.lean ====
section
/-! DEFINITION. The fourteen commands of spec/opcode_table.json and the twelve parameter registers. -/

namespace Sys2Proof

/-- The twelve parameter registers `P0` to `P11` by name (10_state.md R21). -/
inductive PReg where
  | src | dst | lutb | cnt | reg | fbw | fbh | fbfmt | cx1 | cy1 | cx2 | cy2
  deriving DecidableEq, Repr

/-- A command of PXT: one constructor for each row of spec/opcode_table.json (30_encoding.md R113). -/
inductive Instr where
  /-- `HALT` (40_sequencer.md R141) -/
  | halt
  /-- `SET rd, imm32` (40_sequencer.md R142) -/
  | set (rd : PReg) (imm : Word)
  /-- `DELAY imm32` (40_sequencer.md R143) -/
  | delay (ms : Word)
  /-- `MERGE`, `MERGE.COPY` (43_damage_merge.md R165) -/
  | merge (copy : Bool)
  /-- `TAKE` (43_damage_merge.md R166) -/
  | take
  /-- `CP565` (42_pixel_conversion.md R184) -/
  | cp565
  /-- `SW565` (42_pixel_conversion.md R185) -/
  | sw565
  /-- `X2R565` (42_pixel_conversion.md R186) -/
  | x2r565
  /-- `R2GRAY`, `R2GRAY.GAMMA` (42_pixel_conversion.md R187) -/
  | r2gray (gamma : Bool)
  /-- `DITHER` (42_pixel_conversion.md R190) -/
  | dither
  /-- `PACK1` (42_pixel_conversion.md R192) -/
  | pack1
  /-- `WRREG` with its flags `W16` and `FL` (41_register_transfer.md R233) -/
  | wrreg (w16 fl : Bool)
  /-- `RDREG` with its flag `W16` (41_register_transfer.md R234) -/
  | rdreg (w16 : Bool)
  /-- `BRESET` (41_register_transfer.md R235) -/
  | breset
  deriving DecidableEq, Repr

end Sys2Proof
end

