-- ==== Sys2Proof/Machine/State.lean ====
section
/-! DEFINITION. The state of the machine as plain data, the reasons a step can stop, and the state after reset. -/

namespace Sys2Proof.Machine

/-- A rectangle of four unsigned 16-bit coordinates, half-open (43_damage_merge.md R160). -/
structure Rect where
  x1 : Half
  y1 : Half
  x2 : Half
  y2 : Half
  deriving DecidableEq, Repr

/-- The twelve parameter registers `P0` to `P11` (10_state.md R21). -/
structure Params where
  src : Word
  dst : Word
  lutb : Word
  cnt : Word
  reg : Half
  fbw : Half
  fbh : Half
  fbfmt : BitVec 2
  cx1 : Half
  cy1 : Half
  cx2 : Half
  cy2 : Half
  deriving DecidableEq, Repr

/-- How many bits a word on the wire has: `bpw` of an SPI message, `bw` of a parallel strobe (20_memory.md R80). -/
inductive WireBits where
  | w8 | w9 | w16
  deriving DecidableEq, Repr

/-- A bus event (20_memory.md R80). Words of fewer than 16 bits stand zero-extended. -/
inductive Event where
  /-- `GPIO(RESET, v)` -/
  | gpioReset (level : Bool)
  /-- `GPIO(DC, v)` -/
  | gpioDC (level : Bool)
  /-- `SPI_TX(bpw, ws)` -/
  | spiTx (bpw : WireBits) (words : List Half)
  /-- `SPI_TXRX(bpw, ws, n)` -/
  | spiTxRx (bpw : WireBits) (words : List Half) (n : Nat)
  /-- `I2C_TX(addr, bs)` -/
  | i2cTx (addr : BitVec 7) (bytes : List Byte)
  /-- `I2C_RX(addr, n)` -/
  | i2cRx (addr : BitVec 7) (n : Nat)
  /-- `I80_WR(bw, v)` -/
  | i80Wr (bw : WireBits) (value : Half)
  /-- `I80_RD(bw)` -/
  | i80Rd (bw : WireBits)
  /-- `DELAY(ms)` -/
  | delay (ms : Word)
  /-- `RESET_MARK` -/
  | resetMark
  deriving DecidableEq, Repr

/-- Memory as the bytes that have been written, by rising address (20_memory.md R71); `Memory.wf` is its canonical form. -/
abbrev Memory := List Host.Cell

/-- One store access of the host: the bytes it writes (20_memory.md R88). -/
abbrev HostStore := List (Word × Byte)

/-- One turn of an agent (00_scope.md R5): what acts between two moments at which nothing is in progress (20_memory.md R86). -/
inductive Turn where
  /-- The sequencer takes its step; `stores` are host stores that fall inside its command (R88), and `cut = some k` says that the
  reset input arrives once the command has performed `k` memory writes and bus events (70_reset_and_hazards.md R320). -/
  | sequencer (stores : List HostStore) (cut : Option Nat)
  /-- The host writes `size` bytes at `offset` of the register block (10_state.md R30, R31). -/
  | regWrite (offset size : Nat) (value : Word)
  /-- The host reads `size` bytes at `offset` of the register block (10_state.md R30, R31). -/
  | regRead (offset size : Nat)
  /-- The host stores to memory (20_memory.md R83). -/
  | store (cells : HostStore)
  /-- The reset input is asserted and released (70_reset_and_hazards.md R320). -/
  | reset
  deriving DecidableEq, Repr

/-- The outside world, as plain data of the MODEL: what the other agents will do, what the transport will answer, and what the host
has read. None of it is state of the block. -/
structure Env where
  /-- the agents' turns to come; empty means the sequencer's (log 10) -/
  turns : List Turn
  /-- the transport's answers by number; where the list ends they are free (log 1) -/
  answers : List Config.Answer
  /-- the number of the transport's next answer -/
  asked : Nat
  /-- the draws of 20_memory.md R88 by number; where the list ends they are free (log 4) -/
  raceBits : List Bool
  /-- the number of the next draw -/
  draws : Nat
  /-- host stores that fall inside the running command (20_memory.md R88) -/
  inFlight : List HostStore
  /-- how many effects of the running command are left before the reset input arrives (70_reset_and_hazards.md R320) -/
  cut : Option Nat
  /-- what the host's register reads returned, by offset (10_state.md R31) -/
  hostSaw : List (Nat × Word)
  deriving DecidableEq, Repr

/-- The state of PXT (10_state.md R20), with memory, the parameters that are fixed for a run (R45) and the outside world. -/
structure State where
  /-- parameter registers `P0` to `P11` (R21) -/
  p : Params
  /-- command pointer (R24); read through `State.cpValue` -/
  cp : Word
  /-- `RUN` (R26) -/
  run : Bool
  /-- `DONE` (R27) -/
  done : Bool
  /-- `DROP` (R29) -/
  drop : Bool
  /-- `FIRST` (R29) -/
  first : Bool
  /-- `ERR` (R28) -/
  err : Byte
  /-- `ERRINFO` (R28, R39) -/
  errInfo : Word
  /-- `IRQEN` (R34) -/
  irqEn : Word
  /-- `BUSCFG` (R35) -/
  busCfg : Word
  /-- `BUSCFG2` (R36) -/
  busCfg2 : Word
  /-- `MAXCHUNK` (R37) -/
  maxChunk : Word
  /-- `RSTCFG` (R37) -/
  rstCfg : Word
  /-- `PIPE` (R38) -/
  pipe : Word
  /-- damage accumulator `AX1, AY1, AX2, AY2` (R40) -/
  acc : Rect
  /-- damage-port staging registers `DPX1, DPY1, DPX2, DPY2` (R41) -/
  dp : Rect
  /-- the transport trace (R44) -/
  trace : List Event
  /-- memory (20_memory.md R71) -/
  mem : Memory
  /-- the parameters fixed for a run (R45) -/
  plat : Config.Platform
  /-- the outside world -/
  env : Env
  deriving DecidableEq, Repr

/-- Why the machine stops without a next state. -/
inductive Fault where
  /-- Raised by a command whose bus event the transport never answers, when no reset arrives inside that command: the block stays
  inside the step for ever (70_reset_and_hazards.md R334; 93_implementation_defined.md U13 "stuck"). Safe: the spec gives no further
  state of the block. -/
  | transportSilent
  deriving DecidableEq, Repr

/-- What the model does not accept. -/
inductive Refusal where
  /-- Raised by an arm of `exec` whose instruction has no meaning yet. Safe: nothing is claimed of it. No arm raises it. -/
  | notModelled (mnemonic : String)
  /-- Raised by a host access that is not 4 bytes at a 4-aligned offset below 256 (10_state.md R31; 93_implementation_defined.md U12
  "refuse"). Safe: the spec defines nothing there. -/
  | hostAccessShape (offset size : Nat)
  deriving DecidableEq, Repr

/-- The empty rectangle, identity of the merge (43_damage_merge.md R162). -/
def Rect.empty : Rect := { x1 := 0xFFFF, y1 := 0xFFFF, x2 := 0, y2 := 0 }

/-- A rectangle of zeros. -/
def Rect.zero : Rect := { x1 := 0, y1 := 0, x2 := 0, y2 := 0 }

/-- All parameter registers 0 (10_state.md R46). -/
def Params.zero : Params :=
  { src := 0, dst := 0, lutb := 0, cnt := 0, reg := 0, fbw := 0, fbh := 0, fbfmt := 0, cx1 := 0, cy1 := 0, cx2 := 0, cy2 := 0 }

/-- An outside world of which nothing is said: no turn is scheduled, every answer is free (log 1, log 4, log 10). -/
def Env.quiet : Env :=
  { turns := [], answers := [], asked := 0, raceBits := [], draws := 0, inFlight := [], cut := none, hostSaw := [] }

/-- The machine right after reset (10_state.md R46): every value of the spec's table; memory lists nothing (R322, log 3); the trace
holds the `RESET_MARK` of this reset (log 12). -/
def State.reset : State :=
  { p := Params.zero, cp := 0, run := false, done := false, drop := false, first := true, err := 0, errInfo := 0,
    irqEn := 0, busCfg := 0, busCfg2 := 0, maxChunk := 0, rstCfg := 0, pipe := 0,
    acc := Rect.empty, dp := Rect.zero, trace := [.resetMark], mem := [],
    plat := Config.defaultPlatform, env := Env.quiet }

end Sys2Proof.Machine
end

