-- ==== Sys2Proof/Machine/Flags.lean ====
section
/-! DEFINITION. The flags: fault codes, the status word and the interrupt line. -/

namespace Sys2Proof.Machine

/-- The faults of 60_exceptions.md R280. `alloc` and `timeout` are reserved: nothing raises them (R284, R285). -/
inductive FaultCode where
  | bus | state | format | alloc | timeout | config | unsup | illegal | align | access
  deriving DecidableEq, Repr

/-- The code a fault leaves in `ERR` (60_exceptions.md R280). -/
def FaultCode.code : FaultCode → Byte
  | .bus => 0x01
  | .state => 0x02
  | .format => 0x03
  | .alloc => 0x04
  | .timeout => 0x05
  | .config => 0x06
  | .unsup => 0x07
  | .illegal => 0x10
  | .align => 0x11
  | .access => 0x12

/-- A bit as a 32-bit value at position `k`. -/
def bitAt (b : Bool) (k : Nat) : Word := if b then (1 : Word) <<< k else 0

/-- The `STATUS` register (10_state.md R33): `RUN`, `DONE`, `FIRST`, `DROP` in bits 0 to 3, `ERR` in bits 15:8, the rest 0. -/
def State.status (s : State) : Word :=
  bitAt s.run 0 ||| bitAt s.done 1 ||| bitAt s.first 2 ||| bitAt s.drop 3 ||| (s.err.setWidth 32 <<< 8)

/-- `IRQEN.IE_DONE` (10_state.md R34). -/
def State.ieDone (s : State) : Bool := s.irqEn.getLsbD 0

/-- `IRQEN.IE_ERR` (10_state.md R34). -/
def State.ieErr (s : State) : Bool := s.irqEn.getLsbD 1

/-- The interrupt line, a pure function of state (60_exceptions.md R294). -/
def State.irq (s : State) : Bool := (s.done && s.ieDone) || (s.err != 0 && s.ieErr)

/-- `DROP <- 1`: the mark a dropped host write leaves (10_state.md R29). -/
def State.markDrop (s : State) : State := { s with drop := true }

end Sys2Proof.Machine
end

