-- ==== Sys2Proof/WellFormed.lean ====
section
/-! DEFINITION. Which commands are well-formed: an immediate of `SET` must fit the width of its register (30_encoding.md R115). -/

namespace Sys2Proof

/-- The width in bits of a parameter register (10_state.md R21). -/
def PReg.width : PReg → Nat
  | .src | .dst | .lutb | .cnt => 32
  | .reg | .fbw | .fbh => 16
  | .fbfmt => 2
  | .cx1 | .cy1 | .cx2 | .cy2 => 16

/-- `value` has no 1 bit at or above the width of `rd` (10_state.md R23). -/
def PReg.fits (rd : PReg) (value : Word) : Bool := value.toNat < 2 ^ rd.width

/-- A well-formed command: the one operand check of 30_encoding.md R115 that the constructors do not make by themselves. -/
def Instr.wf : Instr → Bool
  | .set rd imm => rd.fits imm
  | .halt | .delay _ | .merge _ | .take | .cp565 | .sw565 | .x2r565 | .r2gray _ | .dither | .pack1 | .wrreg _ _ | .rdreg _
  | .breset => true

end Sys2Proof
end

