-- ==== Sys2Proof/Decode.lean ====
section
/-! DEFINITION. Decoding of the 64-bit command value, total and rejecting by name (30_encoding.md R117), and after it the encoder
(R111, R113). -/

namespace Sys2Proof

/-- Why a command value is illegal (30_encoding.md R115, R117). The machine answers each with `E_ILLEGAL(W0)` (60_exceptions.md R288). -/
inductive Illegal where
  /-- fewer than the 8 bytes of a command are there; no fetch of the machine meets it -/
  | tooShort
  /-- a bit of `W0[31:12]` is set (R114) -/
  | reservedBits
  /-- the opcode is none of the fourteen (R116) -/
  | unknownOpcode
  /-- an undefined bit of `W0[11:8]`, or a bit of `W1` in a command without immediate, is set (R111) -/
  | undefinedBits
  /-- a `SET` of register number 12 to 15 (R115) -/
  | badRegister
  /-- a `SET` whose immediate does not fit its register (R115) -/
  | immediateTooWide
  deriving DecidableEq, Repr

/-- The parameter register of a number; numbers 12 to 15 do not exist (10_state.md R21). -/
def PReg.ofNum (n : BitVec 4) : Option PReg :=
  match n.toNat with
  | 0 => some .src
  | 1 => some .dst
  | 2 => some .lutb
  | 3 => some .cnt
  | 4 => some .reg
  | 5 => some .fbw
  | 6 => some .fbh
  | 7 => some .fbfmt
  | 8 => some .cx1
  | 9 => some .cy1
  | 10 => some .cx2
  | 11 => some .cy2
  | _ => none

/-- The number of a parameter register (10_state.md R21). -/
def PReg.num : PReg → BitVec 4
  | .src => 0
  | .dst => 1
  | .lutb => 2
  | .cnt => 3
  | .reg => 4
  | .fbw => 5
  | .fbh => 6
  | .fbfmt => 7
  | .cx1 => 8
  | .cy1 => 9
  | .cx2 => 10
  | .cy2 => 11

/-- Format N: no operand, so `W0[11:8]` and `W1` are zero (R111). -/
def decodeN (i : Instr) (sel : BitVec 4) (w1 : Word) : Except Illegal Instr :=
  if sel = 0 ∧ w1 = 0 then .ok i else .error .undefinedBits

/-- Format I: `W0[11:8]` is zero and `W1` is the immediate (R111). -/
def decodeI (mk : Word → Instr) (sel : BitVec 4) (w1 : Word) : Except Illegal Instr :=
  if sel = 0 then .ok (mk w1) else .error .undefinedBits

/-- Format F with the one flag `f0` (R111): bits 11:9 and `W1` are zero. -/
def decodeF1 (mk : Bool → Instr) (sel : BitVec 4) (w1 : Word) : Except Illegal Instr :=
  if sel.extractLsb' 1 3 = 0 ∧ w1 = 0 then .ok (mk (sel.getLsbD 0)) else .error .undefinedBits

/-- Format F with the flags `f0` and `f1` (R111): bits 11:10 and `W1` are zero. -/
def decodeF2 (mk : Bool → Bool → Instr) (sel : BitVec 4) (w1 : Word) : Except Illegal Instr :=
  if sel.extractLsb' 2 2 = 0 ∧ w1 = 0 then .ok (mk (sel.getLsbD 0) (sel.getLsbD 1)) else .error .undefinedBits

/-- Format S: a register number and an immediate that fits it (R111, R115). -/
def decodeS (sel : BitVec 4) (w1 : Word) : Except Illegal Instr :=
  match PReg.ofNum sel with
  | none => .error .badRegister
  | some rd => if rd.fits w1 then .ok (.set rd w1) else .error .immediateTooWide

/-- The decoding procedure of 30_encoding.md R117 on `C = W1 ‖ W0`: reserved bits, opcode, the format's undefined bits, then the
register number and immediate of `SET`. -/
def decode (c : Command) : Except Illegal Instr :=
  let sel := c.extractLsb' 8 4
  let w1 := c.extractLsb' 32 32
  if c.extractLsb' 12 20 ≠ 0 then .error .reservedBits
  else match (c.extractLsb' 0 8).toNat with
    | 0x01 => decodeN .halt sel w1
    | 0x02 => decodeS sel w1
    | 0x03 => decodeI .delay sel w1
    | 0x10 => decodeF1 .merge sel w1
    | 0x11 => decodeN .take sel w1
    | 0x20 => decodeN .cp565 sel w1
    | 0x21 => decodeN .sw565 sel w1
    | 0x22 => decodeN .x2r565 sel w1
    | 0x23 => decodeF1 .r2gray sel w1
    | 0x24 => decodeN .dither sel w1
    | 0x25 => decodeN .pack1 sel w1
    | 0x30 => decodeF2 .wrreg sel w1
    | 0x31 => decodeF1 .rdreg sel w1
    | 0x32 => decodeN .breset sel w1
    | _ => .error .unknownOpcode

/-- Two bytes at rising addresses as a 16-bit value in machine byte order (20_memory.md R72). -/
def join2 (be : Bool) (b0 b1 : Byte) : Half := if be then b0 ++ b1 else b1 ++ b0

/-- Four bytes at rising addresses as a 32-bit value in machine byte order (20_memory.md R72). -/
def join4 (be : Bool) (b0 b1 b2 b3 : Byte) : Word :=
  if be then (b0 ++ b1 ++ b2 ++ b3 : BitVec 32) else (b3 ++ b2 ++ b1 ++ b0 : BitVec 32)

/-- The bytes of a 16-bit value at rising addresses (20_memory.md R72). -/
def bytes2 (be : Bool) (v : Half) : List Byte :=
  let lo := v.extractLsb' 0 8
  let hi := v.extractLsb' 8 8
  if be then [hi, lo] else [lo, hi]

/-- The bytes of a 32-bit value at rising addresses (20_memory.md R72). -/
def bytes4 (be : Bool) (v : Word) : List Byte :=
  let b := [v.extractLsb' 0 8, v.extractLsb' 8 8, v.extractLsb' 16 8, v.extractLsb' 24 8]
  if be then b.reverse else b

/-- The command in the first 8 bytes of a list: `W0` from the first four, `W1` from the next, each in machine byte order
(30_encoding.md R110); the bytes after it are left. -/
def decodeBytes (be : Bool) : List Byte → Except Illegal (Instr × List Byte)
  | b0 :: b1 :: b2 :: b3 :: b4 :: b5 :: b6 :: b7 :: rest =>
    match decode (join4 be b4 b5 b6 b7 ++ join4 be b0 b1 b2 b3 : BitVec 64) with
    | .ok i => .ok (i, rest)
    | .error e => .error e
  | _ => .error .tooShort

/-- The low word of a command: opcode, and in `W0[11:8]` the register number or the flags (30_encoding.md R111, R113). -/
def encodeW0 : Instr → Word
  | .halt => 0x01
  | .set rd _ => (0 : BitVec 20) ++ rd.num ++ (0x02 : Byte)
  | .delay _ => 0x03
  | .merge copy => if copy then 0x110 else 0x10
  | .take => 0x11
  | .cp565 => 0x20
  | .sw565 => 0x21
  | .x2r565 => 0x22
  | .r2gray gamma => if gamma then 0x123 else 0x23
  | .dither => 0x24
  | .pack1 => 0x25
  | .wrreg w16 fl => (if w16 then 0x130 else 0x30) ||| (if fl then 0x200 else 0)
  | .rdreg w16 => if w16 then 0x131 else 0x31
  | .breset => 0x32

/-- The high word of a command: the immediate of `SET` and `DELAY`, zero in every other (30_encoding.md R111). -/
def encodeW1 : Instr → Word
  | .set _ imm => imm
  | .delay ms => ms
  | .halt | .merge _ | .take | .cp565 | .sw565 | .x2r565 | .r2gray _ | .dither | .pack1 | .wrreg _ _ | .rdreg _ | .breset => 0

/-- The 64-bit value of a command, `C = W1 ‖ W0` (30_encoding.md R110). -/
def encode (i : Instr) : Command := encodeW1 i ++ encodeW0 i

/-- The 8 bytes of a command value as memory holds them (30_encoding.md R110). -/
def commandBytes (be : Bool) (c : Command) : List Byte :=
  bytes4 be (c.extractLsb' 0 32) ++ bytes4 be (c.extractLsb' 32 32)

/-- The `match` column of 30_encoding.md R113. -/
def Instr.rowMatch : Instr → Command
  | .halt => 0x01
  | .set _ _ => 0x02
  | .delay _ => 0x03
  | .merge _ => 0x10
  | .take => 0x11
  | .cp565 => 0x20
  | .sw565 => 0x21
  | .x2r565 => 0x22
  | .r2gray _ => 0x23
  | .dither => 0x24
  | .pack1 => 0x25
  | .wrreg _ _ => 0x30
  | .rdreg _ => 0x31
  | .breset => 0x32

/-- The `mask` column of 30_encoding.md R113. -/
def Instr.rowMask : Instr → Command
  | .set _ _ => 0x00000000FFFFF0FF
  | .delay _ => 0x00000000FFFFFFFF
  | .merge _ | .r2gray _ | .rdreg _ => 0xFFFFFFFFFFFFFEFF
  | .wrreg _ _ => 0xFFFFFFFFFFFFFCFF
  | .halt | .take | .cp565 | .sw565 | .x2r565 | .dither | .pack1 | .breset => 0xFFFFFFFFFFFFFFFF

/-- The instruction the decoder reads from the table bits `w` of a row of `nbits` bits: every bit above them is 0, the 8 bytes are
laid out as a little-endian memory holds them, and the decoder reads those bytes. -/
def decodeTableWord (nbits w : Nat) : Option Instr :=
  match decodeBytes false (commandBytes false (BitVec.ofNat 64 (w % 2 ^ nbits))) with
  | .ok (i, _) => some i
  | .error _ => none

end Sys2Proof
end

