-- ==== Sys2Proof/Machine/Operands.lean ====
section
/-! DEFINITION. The operands: parameter registers, the command pointer, the fields of the configuration registers, the clip's
geometry and the addresses computed from them. -/

namespace Sys2Proof.Machine

/-- A parameter register zero-extended to 32 bits (10_state.md R42). -/
def Params.get (p : Params) : PReg → Word
  | .src => p.src
  | .dst => p.dst
  | .lutb => p.lutb
  | .cnt => p.cnt
  | .reg => p.reg.setWidth 32
  | .fbw => p.fbw.setWidth 32
  | .fbh => p.fbh.setWidth 32
  | .fbfmt => p.fbfmt.setWidth 32
  | .cx1 => p.cx1.setWidth 32
  | .cy1 => p.cy1.setWidth 32
  | .cx2 => p.cx2.setWidth 32
  | .cy2 => p.cy2.setWidth 32

/-- `P[n] <- v` for a value that fits (10_state.md R23); its callers check that it does. -/
def Params.put (p : Params) (v : Word) : PReg → Params
  | .src => { p with src := v }
  | .dst => { p with dst := v }
  | .lutb => { p with lutb := v }
  | .cnt => { p with cnt := v }
  | .reg => { p with reg := v.setWidth 16 }
  | .fbw => { p with fbw := v.setWidth 16 }
  | .fbh => { p with fbh := v.setWidth 16 }
  | .fbfmt => { p with fbfmt := v.setWidth 2 }
  | .cx1 => { p with cx1 := v.setWidth 16 }
  | .cy1 => { p with cy1 := v.setWidth 16 }
  | .cx2 => { p with cx2 := v.setWidth 16 }
  | .cy2 => { p with cy2 := v.setWidth 16 }

/-- A parameter register of the state, zero-extended (10_state.md R42). -/
def State.param (s : State) (rd : PReg) : Word := s.p.get rd

/-- The state with a parameter register written (10_state.md R22). -/
def State.setParam (s : State) (rd : PReg) (v : Word) : State := { s with p := s.p.put v rd }

/-- A word with its low three bits zero: what `CP` can hold (10_state.md R24). -/
def alignCP (v : Word) : Word := v &&& 0xFFFFFFF8

/-- The value of `CP`, its low three bits hardwired to zero (10_state.md R24). -/
def State.cpValue (s : State) : Word := alignCP s.cp

/-- `CP <- v` (10_state.md R24). -/
def State.setCP (s : State) (v : Word) : State := { s with cp := alignCP v }

/-- `CP <- (CP + 8) mod 2^32` (10_state.md R25). -/
def State.advance (s : State) : State := s.setCP (s.cpValue + 8)

/-- The implemented bits of `IRQEN` (10_state.md R34). -/
def irqEnMask : Word := 0x3
/-- The implemented bits of `BUSCFG` (10_state.md R35). -/
def busCfgMask : Word := 0x7FF
/-- The implemented bits of `BUSCFG2` (10_state.md R36). -/
def busCfg2Mask : Word := 0xFFFF7FFF
/-- The implemented bits of `PIPE` (10_state.md R38). -/
def pipeMask : Word := 0x7

/-- The bus modes of `BUSCFG.MODE` (10_state.md R35). -/
inductive BusMode where
  | none | spi4 | spi3 | spisb | i80 | i2c | reserved
  deriving DecidableEq, Repr

/-- `BUSCFG.MODE` (10_state.md R35); 6 and 7 are reserved. -/
def State.mode (s : State) : BusMode :=
  match (s.busCfg.extractLsb' 0 3).toNat with
  | 0 => .none
  | 1 => .spi4
  | 2 => .spi3
  | 3 => .spisb
  | 4 => .i80
  | 5 => .i2c
  | _ => .reserved

/-- `BUSCFG.NAT8` (10_state.md R35). -/
def State.nat8 (s : State) : Bool := s.busCfg.getLsbD 3
/-- `BUSCFG.NAT9` (10_state.md R35). -/
def State.nat9 (s : State) : Bool := s.busCfg.getLsbD 4
/-- `BUSCFG.NAT16` (10_state.md R35). -/
def State.nat16 (s : State) : Bool := s.busCfg.getLsbD 5
/-- `BUSCFG.DEVBE` (10_state.md R35). -/
def State.devBE (s : State) : Bool := s.busCfg.getLsbD 6
/-- `BUSCFG.RDEN` (10_state.md R35). -/
def State.rdEn (s : State) : Bool := s.busCfg.getLsbD 7
/-- `BUSCFG.RSTP` (10_state.md R35). -/
def State.rstP (s : State) : Bool := s.busCfg.getLsbD 8
/-- `BUSCFG.REGW16` (10_state.md R35). -/
def State.regW16 (s : State) : Bool := s.busCfg.getLsbD 9
/-- `BUSCFG.DCP` (10_state.md R35). -/
def State.dcp (s : State) : Bool := s.busCfg.getLsbD 10

/-- `BUSCFG2.SB` (10_state.md R36). -/
def State.startBase (s : State) : Byte := s.busCfg2.extractLsb' 0 8
/-- `BUSCFG2.I2CADDR` (10_state.md R36). -/
def State.i2cAddr (s : State) : BitVec 7 := s.busCfg2.extractLsb' 8 7
/-- `BUSCFG2.I2CCMD` (10_state.md R36). -/
def State.i2cCmd (s : State) : Byte := s.busCfg2.extractLsb' 16 8
/-- `BUSCFG2.I2CDAT` (10_state.md R36). -/
def State.i2cDat (s : State) : Byte := s.busCfg2.extractLsb' 24 8

/-- `RSTCFG.ASSERT_MS` (10_state.md R37). -/
def State.assertMs (s : State) : Half := s.rstCfg.extractLsb' 0 16
/-- `RSTCFG.SETTLE_MS` (10_state.md R37). -/
def State.settleMs (s : State) : Half := s.rstCfg.extractLsb' 16 16

/-- `PIPE.PREPARED` (10_state.md R38). -/
def State.prepared (s : State) : Bool := s.pipe.getLsbD 0
/-- `PIPE.FULLROW` (10_state.md R38). -/
def State.fullRow (s : State) : Bool := s.pipe.getLsbD 1
/-- `PIPE.FORCEFULL` (10_state.md R38). -/
def State.forceFull (s : State) : Bool := s.pipe.getLsbD 2

/-- The width of the clip, `cw = CX2 - CX1` (42_pixel_conversion.md R180); read only where `CX1 <= CX2`. -/
def Params.cw (p : Params) : Nat := p.cx2.toNat - p.cx1.toNat

/-- The height of the clip, `ch = CY2 - CY1` (42_pixel_conversion.md R180); read only where `CY1 <= CY2`. -/
def Params.ch (p : Params) : Nat := p.cy2.toNat - p.cy1.toNat

/-- `CX1 <= CX2` and `CY1 <= CY2`. -/
def Params.clipOrdered (p : Params) : Bool := p.cx1 ≤ p.cx2 && p.cy1 ≤ p.cy2

/-- `CX2 <= FBW` and `CY2 <= FBH`. -/
def Params.clipInside (p : Params) : Bool := p.cx2 ≤ p.fbw && p.cy2 ≤ p.fbh

/-- The address of framebuffer pixel `(x, y)` with `sb` bytes a pixel (42_pixel_conversion.md R181). -/
def Params.fbAddr (p : Params) (sb x y : Nat) : Nat := p.src.toNat + (y * p.fbw.toNat + x) * sb

/-- The address of the framebuffer pixel in column `i` and row `j` of the clip. -/
def Params.clipSrc (p : Params) (sb i j : Nat) : Nat := p.fbAddr sb (p.cx1.toNat + i) (p.cy1.toNat + j)

/-- The address of the dense destination element in column `i` and row `j` of the clip, `db` bytes an element
(42_pixel_conversion.md R181). -/
def Params.clipDst (p : Params) (db i j : Nat) : Nat := p.dst.toNat + (j * p.cw + i) * db

/-- The bytes of a word of a register transfer, `wb` (41_register_transfer.md R220). -/
def wordBytes (w16 : Bool) : Nat := if w16 then 2 else 1

/-- Two 16-bit values in one register, `lo` in bits 15:0 and `hi` in bits 31:16, as in `ACC1`, `ACC2`, `DP1`, `DP2`
(10_state.md R40, R41). -/
def packPair (lo hi : Half) : Word := hi ++ lo

end Sys2Proof.Machine
end

