-- ==== Sys2Proof/Machine/Ops.lean ====
section
/-! DEFINITION. The shared operations: memory, access checks, one atomic access, bus events, taking a fault and returning from one,
reset, and how a command's body becomes an outcome. -/

namespace Sys2Proof.Machine

/-! ## Memory as a sorted list of written bytes -/

/-- The byte last written at an address, if any was. -/
def memFind : Memory → Nat → Option Byte
  | [], _ => none
  | (k, v) :: m, a => if a = k then some v else if a < k then none else memFind m a

/-- The list with the byte at `a` replaced or inserted in its place. -/
def memInsert : Memory → Nat → Byte → Memory
  | [], a, v => [(a, v)]
  | (k, w) :: m, a, v =>
    if a = k then (a, v) :: m else if a < k then (a, v) :: (k, w) :: m else (k, w) :: memInsert m a v

/-- The number of byte addresses (20_memory.md R71). -/
def memLimit : Nat := 2 ^ 32

/-- What a byte of memory reads as: the byte last written, and the free value of its address where nothing has been written
(70_reset_and_hazards.md R322; 93_implementation_defined.md U9; log 3). -/
def memByte (m : Memory) (a : Nat) : Byte := (memFind m a).getD (Config.powerUpByte a)

/-- A byte stored at an address that exists; there is no byte at `2^32` or above (20_memory.md R71). -/
def memStore (m : Memory) (a : Nat) (v : Byte) : Memory := if a < memLimit then memInsert m a v else m

/-- Bytes stored at rising addresses from `a`. -/
def memStores (m : Memory) (a : Nat) : List Byte → Memory
  | [] => m
  | v :: vs => memStores (memStore m a v) (a + 1) vs

/-- `n` bytes at rising addresses from `a`. -/
def memBytes (m : Memory) (a : Nat) : Nat → List Byte
  | 0 => []
  | n + 1 => memByte m a :: memBytes m (a + 1) n

/-- A host store access applied to memory (20_memory.md R83). -/
def memStoreAll (m : Memory) (cells : HostStore) : Memory := cells.foldl (fun m c => memStore m c.1.toNat c.2) m

/-- Rising addresses, each above `lo`. -/
def memRising (lo : Nat) : Memory → Bool
  | [] => true
  | (k, _) :: m => lo < k && memRising k m

/-- The canonical form: addresses strictly rising and below `2^32`. An unlisted address has no written byte, so no entry can equal
what an unlisted address holds (log 3). -/
def Memory.wf (m : Memory) : Bool :=
  (match m with
    | [] => true
    | (k, _) :: rest => memRising k rest) && m.all (fun c => c.1 < memLimit)

/-- The byte at an address, as the next access of an undisturbed command reads it. -/
def State.byteAt (s : State) (a : Nat) : Byte := memByte s.mem a

/-- The 16-bit value at an address in machine byte order (20_memory.md R72). -/
def State.half (s : State) (a : Nat) : Half := join2 s.plat.memBE (s.byteAt a) (s.byteAt (a + 1))

/-- The 32-bit value at an address in machine byte order (20_memory.md R72). -/
def State.word (s : State) (a : Nat) : Word :=
  join4 s.plat.memBE (s.byteAt a) (s.byteAt (a + 1)) (s.byteAt (a + 2)) (s.byteAt (a + 3))

/-- The state with its memory replaced. -/
def State.withMem (s : State) (m : Memory) : State := { s with mem := m }

/-- The state with events appended to the trace (10_state.md R44). -/
def State.logged (s : State) (es : List Event) : State := { s with trace := s.trace ++ es }

/-- The state with its outside world replaced. -/
def State.withEnv (s : State) (e : Env) : State := { s with env := e }

/-! ## Access checks -/

/-- The kinds of access `Accessible` distinguishes (00_scope.md R6). -/
inductive AccessKind where
  | rd | wr
  deriving DecidableEq, Repr

/-- The hole bars accesses of this kind. -/
def holeBars (h : Config.Hole) : AccessKind → Bool
  | .rd => h.noRead
  | .wr => h.noWrite

/-- The ranges `[a, a+n)` and `[b, b+m)` share a byte. -/
def rangesMeet (a n b m : Nat) : Bool := a < b + m && b < a + n && 0 < n && 0 < m

/-- `Accessible(a, n, kind)`: no byte of the range lies in a hole of that kind or in the register block (20_memory.md R70, R75;
log 7, log 9). -/
def accessible (p : Config.Platform) (a n : Nat) (k : AccessKind) : Bool :=
  p.holes.all (fun h => !(holeBars h k && rangesMeet a n h.base h.size)) &&
    match p.block with
    | none => true
    | some b => !rangesMeet a n b.toNat 256

/-- A byte range a command will touch, with the kind of access (20_memory.md R75). -/
structure AccessRange where
  base : Nat
  size : Nat
  kind : AccessKind
  deriving DecidableEq, Repr

/-- The range lies below `2^32` and is accessible (20_memory.md R71, R75). -/
def rangeOk (p : Config.Platform) (r : AccessRange) : Bool := r.base + r.size ≤ memLimit && accessible p r.base r.size r.kind

/-- The first range that fails its check, in the order the rule lists them (20_memory.md R75). -/
def firstBad (p : Config.Platform) (rs : List AccessRange) : Option AccessRange := rs.find? (fun r => !rangeOk p r)

/-! ## Faults, return from a fault, reset -/

/-- Taking a fault (60_exceptions.md R290): the code and its value are latched, `RUN` is cleared, nothing else changes; `CP` stays on
the faulting command. -/
def State.raiseFault (s : State) (c : FaultCode) (info : Word) : State := { s with err := c.code, errInfo := info, run := false }

/-- The strobe `CTRL.CLRERR` where it is accepted: the first half of the return from a fault (10_state.md R32; 60_exceptions.md R296). -/
def State.clearFault (s : State) : State := { s with err := 0, errInfo := 0 }

/-- The strobe `CTRL.GO` where it is accepted: a run starts at `CP` (10_state.md R32; 60_exceptions.md R296). -/
def State.go (s : State) : State := { s with done := false, run := true }

/-- The effect of the reset input and of `CTRL.SRST` (10_state.md R46; 70_reset_and_hazards.md R320 to R322): every register at its
reset value, `RESET_MARK` appended, memory, the rest of the trace and the platform left alone. -/
def State.resetInput (s : State) : State :=
  { State.reset with trace := s.trace ++ [.resetMark], mem := s.mem, plat := s.plat, env := { s.env with cut := none } }

/-! ## The body of a command -/

/-- Why the body of a command ends before its end. -/
inductive Stop where
  /-- a fault is raised with its code and value (60_exceptions.md R290) -/
  | raised (c : FaultCode) (info : Word)
  /-- the reset input arrived inside the command (70_reset_and_hazards.md R320) -/
  | cut
  /-- the transport does not answer (70_reset_and_hazards.md R334) -/
  | silent
  deriving DecidableEq, Repr

/-- The body of a command: it runs in the order of the rule's pseudocode and keeps what it had done where it stops (R83). -/
abbrev Cmd := EStateM Stop State

/-- `raise code(info)` (60_exceptions.md R290). -/
def raise {α : Type} (c : FaultCode) (info : Word) : Cmd α := throw (.raised c info)

/-- A numbered check of a command's rule: where it fails, its fault is raised. -/
def require (ok : Bool) (c : FaultCode) (info : Word) : Cmd Unit := if ok then pure () else raise c info

/-- The access check of 20_memory.md R75 over the ranges of a rule: `E_ACCESS` with the first byte of the first offending range,
modulo `2^32` (60_exceptions.md R305). -/
def requireAccess (rs : List AccessRange) : Cmd Unit := do
  match firstBad (← get).plat rs with
  | none => pure ()
  | some r => raise .access (BitVec.ofNat 32 r.base)

/-- One memory write or bus event of a command is about to happen: if the reset input arrives before it, the command is abandoned
(70_reset_and_hazards.md R320; log 5). -/
def effect : Cmd Unit := fun s =>
  match s.env.cut with
  | none => .ok () s
  | some 0 => .error .cut s
  | some (k + 1) => .ok () (s.withEnv { s.env with cut := some k })

/-- Draw number `n` of 20_memory.md R88: scripted, then free (log 4). -/
def Env.raceBit (e : Env) (n : Nat) : Bool := (e.raceBits[n]?).getD (Config.raceBit n)

/-- What memory looks like to one atomic read: for each host store that falls inside the command, the value before or the value
after it, drawn for this access (20_memory.md R88). -/
def racedView (e : Env) : Nat → List HostStore → Memory → Memory
  | _, [], m => m
  | n, w :: ws, m => racedView e (n + 1) ws (if e.raceBit n then memStoreAll m w else m)

/-- One atomic read access of `n` bytes at `a` (20_memory.md R76, R88). -/
def readAccess (a n : Nat) : Cmd (List Byte) := fun s =>
  .ok (memBytes (racedView s.env s.env.draws s.env.inFlight s.mem) a n)
    (s.withEnv { s.env with draws := s.env.draws + s.env.inFlight.length })

/-- After a write of the command to `[a, a+n)`: for each host store that falls inside the command, drawn, the store comes later and
will have the final word on those bytes, or it came before and is spent there (20_memory.md R88). -/
def racedStores (e : Env) (a n : Nat) : Nat → List HostStore → List HostStore
  | _, [] => []
  | d, w :: ws =>
    (if e.raceBit d then w else w.filter (fun c => !(a ≤ c.1.toNat && c.1.toNat < a + n))) :: racedStores e a n (d + 1) ws

/-- One atomic write access of the bytes `bs` at `a` (20_memory.md R76, R88). -/
def writeAccess (a : Nat) (bs : List Byte) : Cmd Unit := do
  effect
  modify fun s =>
    (s.withMem (memStores s.mem a bs)).withEnv { s.env with
      inFlight := racedStores s.env a bs.length s.env.draws s.env.inFlight
      draws := s.env.draws + s.env.inFlight.length }

/-- `Mem8[a]` (00_scope.md R8). -/
def read8 (a : Nat) : Cmd Byte := do
  match ← readAccess a 1 with
  | [b] => pure b
  | _ => pure 0

/-- `MemRead(a, 2)` (20_memory.md R72). -/
def read16 (a : Nat) : Cmd Half := do
  match ← readAccess a 2 with
  | [b0, b1] => pure (join2 (← get).plat.memBE b0 b1)
  | _ => pure 0

/-- `MemRead(a, 4)` (20_memory.md R72). -/
def read32 (a : Nat) : Cmd Word := do
  match ← readAccess a 4 with
  | [b0, b1, b2, b3] => pure (join4 (← get).plat.memBE b0 b1 b2 b3)
  | _ => pure 0

/-- `Mem8[a] <- v` (00_scope.md R8). -/
def write8 (a : Nat) (v : Byte) : Cmd Unit := writeAccess a [v]

/-- `MemWrite(a, 2, v)` (20_memory.md R72). -/
def write16 (a : Nat) (v : Half) : Cmd Unit := do writeAccess a (bytes2 (← get).plat.memBE v)

/-- `body k`, then `body (k+1)`, and so on, `n` times: the `for` of the rules. -/
def loop (body : Nat → Cmd Unit) : Nat → Nat → Cmd Unit
  | 0, _ => pure ()
  | n + 1, k => do
    body k
    loop body n (k + 1)

/-- The values of `item k`, `item (k+1)`, and so on, `n` of them, in that order. -/
def gather {α : Type} (item : Nat → Cmd α) : Nat → Nat → Cmd (List α)
  | 0, _ => pure []
  | n + 1, k => do
    let v ← item k
    let vs ← gather item n (k + 1)
    pure (v :: vs)

/-! ## Bus events -/

/-- `emit E`, the part every event has: it is appended to the trace (20_memory.md R80). -/
def emit (e : Event) : Cmd Unit := do
  effect
  modify (·.logged [e])

/-- The transport's answer number `n`: scripted, then free (20_memory.md R82; log 1). -/
def Env.answer (e : Env) (n : Nat) : Config.Answer := (e.answers[n]?).getD (Config.answer n)

/-- The words an answer carries. -/
def answerWords : Config.Answer → List Half
  | .ok ws => ws
  | .fail | .silent => []

/-- Word `k` of the data of answer number `n`: what the answer gives, else free (20_memory.md R82; log 2). -/
def Env.dataWord (e : Env) (n k : Nat) : Half := ((answerWords (e.answer n))[k]?).getD (Config.readWord n k)

/-- A word of the wire cut to its width (20_memory.md R80). -/
def cutWord (b : WireBits) (w : Half) : Half :=
  match b with
  | .w8 => w &&& 0x00FF
  | .w9 => w &&& 0x01FF
  | .w16 => w

/-- The next answer of the transport: its number, after which the next one is due. -/
def ask : Cmd Nat := fun s => .ok s.env.asked (s.withEnv { s.env with asked := s.env.asked + 1 })

/-- The event can fail, so that its answer is `ok` or `fail` (20_memory.md R80). -/
def Event.canFail : Event → Bool
  | .spiTx _ _ | .spiTxRx _ _ _ | .i2cTx _ _ | .i2cRx _ _ => true
  | .gpioReset _ | .gpioDC _ | .i80Wr _ _ | .i80Rd _ | .delay _ | .resetMark => false

/-- How many words an event returns, and how wide they are (20_memory.md R80). -/
def Event.returns : Event → Nat × WireBits
  | .spiTxRx b _ n => (n, b)
  | .i2cRx _ n => (n, .w8)
  | .i80Rd b => (1, b)
  | .gpioReset _ | .gpioDC _ | .spiTx _ _ | .i2cTx _ _ | .i80Wr _ _ | .delay _ | .resetMark => (0, .w8)

/-- The event asks the transport for something: success or data. The others are answered without an answer (log 11). -/
def Event.asks (e : Event) : Bool := e.canFail || e.returns.1 != 0

/-- What the transport's answer does to the command: a failure of an event that can fail raises `E_BUS(0)`
(41_register_transfer.md R236), silence leaves the block inside the step (70_reset_and_hazards.md R334). -/
def answered (e : Event) : Config.Answer → Cmd Unit
  | .silent => throw .silent
  | .fail => if e.canFail then raise .bus 0 else pure ()
  | .ok _ => pure ()

/-- The data an event returns, from answer number `n` (20_memory.md R80, R82). -/
def Env.eventData (env : Env) (e : Event) (n : Nat) : List Half :=
  (List.range e.returns.1).map fun k => cutWord e.returns.2 (env.dataWord n k)

/-- The transport's next answer to an event that has been emitted (20_memory.md R82). -/
def askTransport (e : Event) : Cmd (List Half) := do
  let n ← ask
  let s ← get
  answered e (s.env.answer n)
  pure (s.env.eventData e n)

/-- `v <- emit E` (20_memory.md R80 to R82): the event is appended, and where it asks for something the transport's next answer
decides. -/
def emitAsk (e : Event) : Cmd (List Half) := do
  emit e
  if e.asks then askTransport e else pure []

/-- Events emitted one after the other, each complete before the next (20_memory.md R81). -/
def emitAll : List Event → Cmd Unit
  | [] => pure ()
  | e :: es => do
    let _ ← emitAsk e
    emitAll es

/-! ## From a body to an outcome -/

/-- What a command's body amounts to (40_sequencer.md R140): completed, `CP` advances (10_state.md R25); a fault is taken with `CP`
unchanged (60_exceptions.md R290); a reset inside the command abandons it (70_reset_and_hazards.md R320), and only that recovers a
block whose transport is silent (R334). -/
def finish : EStateM.Result Stop State Unit → Host.Outcome State Fault Refusal
  | .ok _ s => .next s.advance
  | .error (.raised c info) s => .next (s.raiseFault c info)
  | .error .cut s => .next s.resetInput
  | .error .silent s => if s.env.cut.isSome then .next s.resetInput else .fault .transportSilent

/-- A command other than `HALT` run from its body. -/
def runBody (body : Cmd Unit) (s : State) : Host.Outcome State Fault Refusal := finish (body s)

/-! ## Fetching a command -/

/-- Fetch (40_sequencer.md R140; 30_encoding.md R110): the access check, then `W0` and `W1`. -/
def fetch : Cmd (Word × Word) := do
  let s ← get
  if accessible s.plat s.cpValue.toNat 8 .rd then
    let w0 ← read32 s.cpValue.toNat
    let w1 ← read32 (s.cpValue.toNat + 4)
    pure (w0, w1)
  else
    raise .access s.cpValue

/-- The host stores that fell inside the command and are not spent land now, at the latest (20_memory.md R83, R88). -/
def State.land (s : State) : State :=
  (s.withMem (s.env.inFlight.foldl memStoreAll s.mem)).withEnv { s.env with inFlight := [] }

/-- The end of a sequencer's turn: what was in flight lands, and a reset input that did not arrive inside the command arrives after it
(70_reset_and_hazards.md R320). -/
def State.settle (s : State) : State := if s.env.cut.isSome then s.land.resetInput else s.land

/-- The start of a sequencer's turn with the disturbances it carries (20_memory.md R88; 70_reset_and_hazards.md R320). -/
def State.disturbed (s : State) (stores : List HostStore) (cut : Option Nat) : State :=
  s.withEnv { s.env with inFlight := stores, cut := cut }

/-- The state with the turns still to come. -/
def State.withTurns (s : State) (ts : List Turn) : State := s.withEnv { s.env with turns := ts }

/-- Nothing disturbs the command that runs: no host store falls inside it and no reset arrives inside it, the premise of
70_reset_and_hazards.md R327 and R320. -/
def State.undisturbed (s : State) : Bool := s.env.inFlight.isEmpty && s.env.cut.isNone

end Sys2Proof.Machine
end

