-- ==== Sys2Proof/Machine/Damage.lean ====
section
/-! DEFINITION. Damage merging: rectangles, the merge step, `MERGE`, `TAKE` and the damage port's push (43_damage_merge.md). -/

namespace Sys2Proof.Machine

/-- The smaller of two unsigned coordinates. -/
def minHalf (a b : Half) : Half := if a ≤ b then a else b

/-- The larger of two unsigned coordinates. -/
def maxHalf (a b : Half) : Half := if a ≤ b then b else a

/-- `union(r, s)`, coordinate by coordinate and without validation (43_damage_merge.md R162). -/
def Rect.union (r s : Rect) : Rect :=
  { x1 := minHalf r.x1 s.x1, y1 := minHalf r.y1 s.y1, x2 := maxHalf r.x2 s.x2, y2 := maxHalf r.y2 s.y2 }

/-- The largest index below a size, 0 for size 0 (43_damage_merge.md R163). -/
def lastIndex (size : Half) : Half := if size = 0 then 0 else size - 1

/-- `clampR` for a buffer of `w` by `h` (43_damage_merge.md R163). -/
def Rect.clamp (r : Rect) (w h : Half) : Rect :=
  { x1 := minHalf r.x1 (lastIndex w), y1 := minHalf r.y1 (lastIndex h), x2 := minHalf r.x2 w, y2 := minHalf r.y2 h }

/-- The whole buffer `(0, 0, w, h)` (43_damage_merge.md R164). -/
def Rect.whole (w h : Half) : Rect := { x1 := 0, y1 := 0, x2 := w, y2 := h }

/-- The union of a rectangle with each of a list, in list order (43_damage_merge.md R164). -/
def Rect.unionAll (r : Rect) (rects : List Rect) : Rect := rects.foldl Rect.union r

/-- The accumulator after `merge_core(rects)` (43_damage_merge.md R164): the whole buffer where no rectangle is supplied or where
`FIRST` or `PIPE.FORCEFULL` forces it, else the clamped union. -/
def State.merged (s : State) (rects : List Rect) : Rect :=
  if rects.isEmpty || s.first || s.forceFull then Rect.whole s.p.fbw s.p.fbh
  else (s.acc.unionAll rects).clamp s.p.fbw s.p.fbh

/-- `merge_core(rects)`, one indivisible step on the accumulator (43_damage_merge.md R164; 20_memory.md R86). -/
def State.mergeCore (s : State) (rects : List Rect) : State := { s with acc := s.merged rects }

/-- The rectangle at an address (43_damage_merge.md R161). -/
def readRect (a : Nat) : Cmd Rect := do
  let x1 ← read16 a
  let y1 ← read16 (a + 2)
  let x2 ← read16 (a + 4)
  let y2 ← read16 (a + 6)
  pure { x1 := x1, y1 := y1, x2 := x2, y2 := y2 }

/-- How many rectangles the list holds: `CNT`, or `2·CNT` with `COPY` (43_damage_merge.md R165). -/
def State.rectCount (s : State) (copy : Bool) : Nat := if copy then s.p.cnt.toNat * 2 else s.p.cnt.toNat

/-- The body of `MERGE` (43_damage_merge.md R165): no access at all for an empty list; else alignment, access, the whole list, and
then the merge step. -/
def mergeBody (copy : Bool) : Cmd Unit := do
  let s ← get
  let n := s.rectCount copy
  let src := s.p.src.toNat
  if n = 0 then
    modify (·.mergeCore [])
  else
    require (src % 2 = 0) .align s.p.src
    requireAccess [{ base := src, size := 8 * n, kind := .rd }]
    let rects ← gather (fun k => readRect (src + 8 * k)) n 0
    modify (·.mergeCore rects)

/-- `MERGE`, `MERGE.COPY` (43_damage_merge.md R165). -/
def execMerge (copy : Bool) (s : State) : Host.Outcome State Fault Refusal := runBody (mergeBody copy) s

/-- What `TAKE` does, in one indivisible step (43_damage_merge.md R166): the accumulator goes to the clip registers verbatim and
becomes empty, `FIRST` is cleared. -/
def State.taken (s : State) : State :=
  { s with
    p := { s.p with cx1 := s.acc.x1, cy1 := s.acc.y1, cx2 := s.acc.x2, cy2 := s.acc.y2 }
    acc := Rect.empty
    first := false }

/-- `TAKE` (43_damage_merge.md R166). -/
def execTake (s : State) : Host.Outcome State Fault Refusal := runBody (modify State.taken) s

/-- A host write of `v` to `DPUSH` (43_damage_merge.md R167). -/
def State.push (s : State) (v : Word) : State := if v.getLsbD 0 then s.mergeCore [] else s.mergeCore [s.dp]

end Sys2Proof.Machine
end

