-- ==== Sys2Proof/Machine/HostPort.lean ====
section
/-! DEFINITION. The host's side: the register block (10_state.md R30 to R43) and the turns of the agents other than the sequencer. -/

namespace Sys2Proof.Machine

/-- The parameter register of window offset `0x40 + 4n` (10_state.md R42). -/
def windowReg (offset : Nat) : Option PReg :=
  if 0x40 ≤ offset && offset < 0x70 && offset % 4 = 0 then PReg.ofNum (BitVec.ofNat 4 ((offset - 0x40) / 4)) else none

/-- A host read of the register block, by offset (10_state.md R30, R31); reserved offsets, `CTRL` and `DPUSH` read 0. -/
def hostRead (s : State) (offset : Nat) : Word :=
  match offset with
  | 0x04 => s.status
  | 0x08 => s.cpValue
  | 0x0C => s.irqEn &&& irqEnMask
  | 0x10 => s.busCfg &&& busCfgMask
  | 0x14 => s.busCfg2 &&& busCfg2Mask
  | 0x18 => s.maxChunk
  | 0x1C => s.rstCfg
  | 0x20 => s.pipe &&& pipeMask
  | 0x24 => s.errInfo
  | 0x28 => packPair s.acc.x1 s.acc.y1
  | 0x2C => packPair s.acc.x2 s.acc.y2
  | 0x30 => packPair s.dp.x1 s.dp.y1
  | 0x34 => packPair s.dp.x2 s.dp.y2
  | o => match windowReg o with
    | some rd => s.param rd
    | none => 0

/-- A write that is accepted only while `RUN = 0`; otherwise it is dropped and flagged (10_state.md R43). -/
def State.whenIdle (s : State) (s' : State) : State := if s.run then s.markDrop else s'

/-- The strobe `CLRERR` of a `CTRL` write: accepted while `RUN = 0` (10_state.md R32). -/
def State.strobeClrErr (s : State) (v : Word) : State := if v.getLsbD 2 && !s.run then s.clearFault else s

/-- The strobe `CLRDONE` of a `CTRL` write (10_state.md R32). -/
def State.strobeClrDone (s : State) (v : Word) : State := if v.getLsbD 3 then { s with done := false } else s

/-- The strobe `CLRDROP` of a `CTRL` write (10_state.md R32). -/
def State.strobeClrDrop (s : State) (v : Word) : State := if v.getLsbD 4 then { s with drop := false } else s

/-- The strobe `SETFIRST` of a `CTRL` write (10_state.md R32). -/
def State.strobeSetFirst (s : State) (v : Word) : State := if v.getLsbD 5 then { s with first := true } else s

/-- The strobe `GO` of a `CTRL` write is accepted: `RUN = 0` and `ERR = 0` (10_state.md R32). -/
def State.goAccepted (s : State) : Bool := !s.run && s.err == 0

/-- The strobe `GO` of a `CTRL` write (10_state.md R32). -/
def State.strobeGo (s : State) (v : Word) : State := if v.getLsbD 0 && s.goAccepted then s.go else s

/-- A write of `v` to `CTRL` (10_state.md R32): `SRST` alone where it is set, else `CLRERR`, `CLRDONE`, `CLRDROP`, `SETFIRST`, `GO` in
this order, and `DROP <- 1` at the end if a strobe was not accepted. -/
def State.control (s : State) (v : Word) : State :=
  if v.getLsbD 1 then s.resetInput
  else
    let ready := (((s.strobeClrErr v).strobeClrDone v).strobeClrDrop v).strobeSetFirst v
    let refused := (v.getLsbD 2 && s.run) || (v.getLsbD 0 && !ready.goAccepted)
    let t := ready.strobeGo v
    if refused then t.markDrop else t

/-- A host write to the register block, by offset (10_state.md R30 to R43); a write to a reserved offset or a read-only register is
dropped and flagged (R31). -/
def hostWrite (s : State) (offset : Nat) (v : Word) : State :=
  match offset with
  | 0x00 => s.control v
  | 0x08 => s.whenIdle (s.setCP v)
  | 0x0C => { s with irqEn := v &&& irqEnMask }
  | 0x10 => s.whenIdle { s with busCfg := v &&& busCfgMask }
  | 0x14 => s.whenIdle { s with busCfg2 := v &&& busCfg2Mask }
  | 0x18 => s.whenIdle { s with maxChunk := v }
  | 0x1C => s.whenIdle { s with rstCfg := v }
  | 0x20 => s.whenIdle { s with pipe := v &&& pipeMask }
  | 0x30 => { s with dp := { s.dp with x1 := v.extractLsb' 0 16, y1 := v.extractLsb' 16 16 } }
  | 0x34 => { s with dp := { s.dp with x2 := v.extractLsb' 0 16, y2 := v.extractLsb' 16 16 } }
  | 0x38 => s.push v
  | o => match windowReg o with
    | some rd => if rd.fits v then s.whenIdle (s.setParam rd v) else s.markDrop
    | none => s.markDrop

/-- A register access has the one shape the spec defines: 32 bits at a 4-aligned offset of the 256-byte block (10_state.md R30,
R31). -/
def accessShaped (offset size : Nat) : Bool := size = 4 && offset % 4 = 0 && offset < 256

/-- A host register write, refused where it has no defined shape (10_state.md R31; 93_implementation_defined.md U12). -/
def turnWrite (offset size : Nat) (v : Word) (s : State) : Host.Outcome State Fault Refusal :=
  if accessShaped offset size then .next (hostWrite s offset v) else .refused (.hostAccessShape offset size)

/-- A host register read: nothing of the block changes, the host has its value (10_state.md R31). -/
def turnRead (offset size : Nat) (s : State) : Host.Outcome State Fault Refusal :=
  if accessShaped offset size then
    .next (s.withEnv { s.env with hostSaw := s.env.hostSaw ++ [(offset, hostRead s offset)] })
  else .refused (.hostAccessShape offset size)

/-- A host store to memory between two steps (20_memory.md R83). -/
def turnStore (cells : HostStore) (s : State) : Host.Outcome State Fault Refusal := .next (s.withMem (memStoreAll s.mem cells))

/-- The reset input between two steps (70_reset_and_hazards.md R320). -/
def turnReset (s : State) : Host.Outcome State Fault Refusal := .next s.resetInput

end Sys2Proof.Machine
end

