-- ==== Sys2Proof/Machine/Convert.lean ====
section
/-! DEFINITION. Pixel conversion: `CP565`, `SW565`, `X2R565`, `R2GRAY`, `DITHER`, `PACK1` (42_pixel_conversion.md). -/

namespace Sys2Proof.Machine

/-- What the four framebuffer conversions differ in (42_pixel_conversion.md R182): the format they require, the bytes of a source
pixel and of a destination element, and whether the full-row policy applies. -/
structure Conversion where
  /-- the required `FBFMT` -/
  format : BitVec 2
  /-- bytes of a source pixel, `sb` -/
  sb : Nat
  /-- bytes of a destination element, `db` -/
  db : Nat
  /-- the target is RGB565, so that `PIPE.FULLROW` applies -/
  rgbTarget : Bool
  /-- the gamma table is read -/
  gamma : Bool
  deriving DecidableEq, Repr

/-- The source rows of the clip as ranges, top row first (42_pixel_conversion.md R182 check 6). -/
def rowRanges (p : Params) (sb : Nat) : List AccessRange :=
  (List.range p.ch).map fun j => { base := p.clipSrc sb 0 j, size := p.cw * sb, kind := .rd }

/-- The ranges of a framebuffer conversion in the order of 42_pixel_conversion.md R182 check 6: source rows, the gamma table where it
is read, the destination. -/
def conversionRanges (p : Params) (c : Conversion) : List AccessRange :=
  rowRanges p c.sb ++
    (if c.gamma then [{ base := p.lutb.toNat, size := 256, kind := .rd }] else []) ++
    [{ base := p.dst.toNat, size := p.cw * p.ch * c.db, kind := .wr }]

/-- The clip has no column or no row (42_pixel_conversion.md R182 check 4). -/
def Params.clipEmpty (p : Params) : Bool := p.cw = 0 || p.ch = 0

/-- `conv_checks` and then the pixels in row-major order (42_pixel_conversion.md R182): format, clip, full-row policy, the empty clip
that completes without effect, alignment of source and then destination (log 13), access. `pixel i j` handles column `i` and row `j` of the
clip. -/
def convert (c : Conversion) (pixel : Params → Nat → Nat → Cmd Unit) : Cmd Unit := do
  let s ← get
  let p := s.p
  require (p.fbfmt = c.format) .format 0
  require (p.clipOrdered && p.clipInside) .config 0
  require (!(c.rgbTarget && s.fullRow && p.cw ≠ p.fbw.toNat)) .format 0
  if p.clipEmpty then
    pure ()
  else
    require (p.src.toNat % c.sb = 0) .align p.src
    require (p.dst.toNat % c.db = 0) .align p.dst
    requireAccess (conversionRanges p c)
    loop (fun j => loop (fun i => pixel p i j) p.cw 0) p.ch 0

/-- One pixel of `CP565`: byte by byte (42_pixel_conversion.md R184). -/
def copyPixel (p : Params) (i j : Nat) : Cmd Unit := do
  let a := p.clipSrc 2 i j
  let d := p.clipDst 2 i j
  let b0 ← read8 a
  write8 d b0
  let b1 ← read8 (a + 1)
  write8 (d + 1) b1

/-- The body of `CP565` (42_pixel_conversion.md R184). -/
def cp565Body : Cmd Unit := convert { format := 1, sb := 2, db := 2, rgbTarget := true, gamma := false } copyPixel

/-- `CP565` (42_pixel_conversion.md R184). -/
def execCp565 (s : State) : Host.Outcome State Fault Refusal := runBody cp565Body s

/-- One pixel of `SW565`: both bytes are read before either is written (42_pixel_conversion.md R185). -/
def swapPixel (p : Params) (i j : Nat) : Cmd Unit := do
  let a := p.clipSrc 2 i j
  let d := p.clipDst 2 i j
  let b0 ← read8 a
  let b1 ← read8 (a + 1)
  write8 d b1
  write8 (d + 1) b0

/-- The body of `SW565` (42_pixel_conversion.md R185). -/
def sw565Body : Cmd Unit := convert { format := 1, sb := 2, db := 2, rgbTarget := true, gamma := false } swapPixel

/-- `SW565` (42_pixel_conversion.md R185). -/
def execSw565 (s : State) : Host.Outcome State Fault Refusal := runBody sw565Body s

/-- XRGB8888 to RGB565 by truncation: `p[23:19] ‖ p[15:10] ‖ p[7:3]` (42_pixel_conversion.md R186). -/
def truncate565 (x : Word) : Half := (x.extractLsb' 19 5 ++ x.extractLsb' 10 6 ++ x.extractLsb' 3 5 : BitVec 16)

/-- One pixel of `X2R565` (42_pixel_conversion.md R186). -/
def truncPixel (p : Params) (i j : Nat) : Cmd Unit := do
  let x ← read32 (p.clipSrc 4 i j)
  write16 (p.clipDst 2 i j) (truncate565 x)

/-- The body of `X2R565` (42_pixel_conversion.md R186). -/
def x2r565Body : Cmd Unit := convert { format := 2, sb := 4, db := 2, rgbTarget := true, gamma := false } truncPixel

/-- `X2R565` (42_pixel_conversion.md R186). -/
def execX2r565 (s : State) : Host.Outcome State Fault Refusal := runBody x2r565Body s

/-- The weighted sum `S` of the luma (42_pixel_conversion.md R188). -/
def lumaSum (x : Half) : Nat :=
  299 * (x.extractLsb' 11 5).toNat + 587 * (x.extractLsb' 5 6).toNat + 114 * (x.extractLsb' 0 5).toNat

/-- `luma(p) = (S + 100) div 200` (42_pixel_conversion.md R188). -/
def luma (x : Half) : Nat := (lumaSum x + 100) / 200

/-- One pixel of `R2GRAY`: the table is read after the luma is computed (42_pixel_conversion.md R187, R189). -/
def grayPixel (gamma : Bool) (p : Params) (i j : Nat) : Cmd Unit := do
  let x ← read16 (p.clipSrc 2 i j)
  let l ← if gamma then read8 (p.lutb.toNat + luma x) else pure (BitVec.ofNat 8 (luma x))
  write8 (p.clipDst 1 i j) l

/-- The body of `R2GRAY` (42_pixel_conversion.md R187). -/
def r2grayBody (gamma : Bool) : Cmd Unit :=
  convert { format := 1, sb := 2, db := 1, rgbTarget := false, gamma := gamma } (grayPixel gamma)

/-- `R2GRAY`, `R2GRAY.GAMMA` (42_pixel_conversion.md R187). -/
def execR2gray (gamma : Bool) (s : State) : Host.Outcome State Fault Refusal := runBody (r2grayBody gamma) s

/-- The quantised value: the nearer of 0 and 255 (42_pixel_conversion.md R190, R191). -/
def quantise (v : Byte) : Byte := if 128 ≤ v.toNat then 255 else 0

/-- The truncated eighth of the error, `tdiv(p - q, 8)` (42_pixel_conversion.md R190, R191). -/
def errorEighth (v : Byte) : Int := ((v.toNat : Int) - ((quantise v).toNat : Int)).tdiv 8

/-- A neighbour's new value: its own and the weighted error, clamped to 0 to 255 (42_pixel_conversion.md R190, R191). -/
def diffuse (v : Byte) (e : Int) : Byte := BitVec.ofNat 8 (max 0 (min 255 ((v.toNat : Int) + e))).toNat

/-- A neighbour inside the buffer takes its share of the error (42_pixel_conversion.md R190). -/
def spreadTo (inside : Bool) (a : Nat) (e : Int) : Cmd Unit :=
  if inside then do
    let v ← read8 a
    write8 a (diffuse v e)
  else pure ()

/-- One pixel of `DITHER` at column `x`, row `y` of a buffer at `base`: quantised, and the error spread with the weights 3 below,
3 to the right and 2 below right; neighbours outside are skipped (42_pixel_conversion.md R190, R191). -/
def ditherPixel (base cw ch x y : Nat) : Cmd Unit := do
  let a := base + y * cw + x
  let v ← read8 a
  write8 a (quantise v)
  spreadTo (y + 1 < ch) (a + cw) (errorEighth v * 3)
  spreadTo (x + 1 < cw) (a + 1) (errorEighth v * 3)
  spreadTo (x + 1 < cw && y + 1 < ch) (a + cw + 1) (errorEighth v * 2)

/-- The body of `DITHER`: column by column in place on the dense buffer at `DST` (42_pixel_conversion.md R190). -/
def ditherBody : Cmd Unit := do
  let p := (← get).p
  let base := p.dst.toNat
  require p.clipOrdered .config 0
  if p.clipEmpty then
    pure ()
  else
    requireAccess [{ base := base, size := p.cw * p.ch, kind := .rd }, { base := base, size := p.cw * p.ch, kind := .wr }]
    loop (fun x => loop (fun y => ditherPixel base p.cw p.ch x y) p.ch 0) p.cw 0

/-- `DITHER` (42_pixel_conversion.md R190). -/
def execDither (s : State) : Host.Outcome State Fault Refusal := runBody ditherBody s

/-- Eight monochrome bytes as one: the top bit of each, the first byte's in bit 7 (42_pixel_conversion.md R192). -/
def packBits (bs : List Byte) : Byte := bs.foldl (fun (o b : Byte) => (o <<< 1) ||| (b >>> 7)) 0

/-- One output byte of `PACK1`: the group of 8 is read before it is written (42_pixel_conversion.md R192). -/
def packGroup (src dst k : Nat) : Cmd Unit := do
  let bs ← gather (fun t => read8 (src + 8 * k + t)) 8 0
  write8 (dst + k) (packBits bs)

/-- The body of `PACK1` (42_pixel_conversion.md R192): clip order, width, the empty clip, ranges, and then group by group. -/
def pack1Body : Cmd Unit := do
  let p := (← get).p
  let src := p.src.toNat
  let dst := p.dst.toNat
  let n := p.cw * p.ch / 8
  require p.clipOrdered .config 0
  require (p.cw % 8 = 0) .format 0
  if p.clipEmpty then
    pure ()
  else
    requireAccess [{ base := src, size := p.cw * p.ch, kind := .rd }, { base := dst, size := n, kind := .wr }]
    loop (packGroup src dst) n 0

/-- `PACK1` (42_pixel_conversion.md R192). -/
def execPack1 (s : State) : Host.Outcome State Fault Refusal := runBody pack1Body s

end Sys2Proof.Machine
end

