-- ==== Sys2Proof/Machine/Sequencer.lean ====
section
/-! DEFINITION. The sequencer's own commands: `HALT`, `SET`, `DELAY` (40_sequencer.md). -/

namespace Sys2Proof.Machine

/-- What `HALT` does: `RUN <- 0`, `DONE <- 1`, `CP` unchanged (40_sequencer.md R141). -/
def State.halted (s : State) : State := { s with run := false, done := true }

/-- `HALT` (40_sequencer.md R141). -/
def execHalt (s : State) : Host.Outcome State Fault Refusal := .next s.halted

/-- The body of `SET` (40_sequencer.md R142). The decoder hands over only immediates that fit; one that does not is the illegal
command whose low word is `W0` (30_encoding.md R115; log 17). -/
def setBody (rd : PReg) (imm : Word) : Cmd Unit := do
  require (rd.fits imm) .illegal (encodeW0 (.set rd imm))
  modify (·.setParam rd imm)

/-- `SET rd, imm32` (40_sequencer.md R142). -/
def execSet (rd : PReg) (imm : Word) (s : State) : Host.Outcome State Fault Refusal := runBody (setBody rd imm) s

/-- The body of `DELAY`: one event (40_sequencer.md R143). -/
def delayBody (ms : Word) : Cmd Unit := emitAll [.delay ms]

/-- `DELAY imm32` (40_sequencer.md R143). -/
def execDelay (ms : Word) (s : State) : Host.Outcome State Fault Refusal := runBody (delayBody ms) s

end Sys2Proof.Machine
end

