-- ==== Sys2Proof/Machine/Transfer.lean ====
section
/-! DEFINITION. Register transfer: width plan, framing, 9-over-8 packing, chunking, `WRREG`, `RDREG`, `BRESET`
(41_register_transfer.md). -/

namespace Sys2Proof.Machine

/-- How the words of a phase are carried (41_register_transfer.md R223). -/
inductive Carrier where
  /-- 16-bit SPI words, direct -/
  | spi16
  /-- units as 8-bit SPI words -/
  | spi8
  /-- units as native 9-bit SPI words -/
  | spi9
  /-- units as 9-bit words packed into bytes -/
  | spi9over8
  /-- units as 8-bit SPI words after a start byte -/
  | startByte
  /-- one parallel strobe a word -/
  | i80 (bw : WireBits)
  /-- two parallel strobes of 8 bits a 16-bit word -/
  | i80split
  /-- units as I2C bytes after a control byte -/
  | i2c
  deriving DecidableEq, Repr

/-- The width plan: the carrier of a phase whose words are 16 bits wide (`x16`) or 8, if there is one (41_register_transfer.md R223). -/
def State.carrier (s : State) (x16 : Bool) : Option Carrier :=
  match s.mode with
  | .spi4 => if x16 && s.nat16 then some .spi16 else if s.nat8 then some .spi8 else none
  | .spi3 => if s.nat9 then some .spi9 else if s.nat8 then some .spi9over8 else none
  | .spisb => if s.nat8 then some .startByte else none
  | .i80 =>
    if s.nat16 then some (.i80 .w16)
    else if s.nat8 then (if x16 then some .i80split else some (.i80 .w8))
    else none
  | .i2c => some .i2c
  | .none | .reserved => none

/-- `split16(v)`: two units in wire order (41_register_transfer.md R222). -/
def split16 (devBE : Bool) (v : Half) : List Byte := bytes2 devBE v

/-- `join16(b0, b1)`, the inverse of `split16` (41_register_transfer.md R222). -/
def join16 (devBE : Bool) (b0 b1 : Byte) : Half := join2 devBE b0 b1

/-- `units(ws, w)` (41_register_transfer.md R222). -/
def units (devBE x16 : Bool) (ws : List Half) : List Byte :=
  if x16 then ws.flatMap (split16 devBE) else ws.map (fun v => v.setWidth 8)

/-- A unit as the 9-bit word `(dc << 8) | b` (41_register_transfer.md R226). -/
def word9 (dc : Bool) (b : Byte) : BitVec 9 := BitVec.ofBool dc ++ b

/-- The 72 bits of a group of eight 9-bit words, cut into 9 bytes from the most significant end (41_register_transfer.md R228). -/
def packGroup9 (g0 g1 g2 g3 g4 g5 g6 g7 : BitVec 9) : List Byte :=
  let t : BitVec 72 := g0 ++ g1 ++ g2 ++ g3 ++ g4 ++ g5 ++ g6 ++ g7
  [t.extractLsb' 64 8, t.extractLsb' 56 8, t.extractLsb' 48 8, t.extractLsb' 40 8, t.extractLsb' 32 8, t.extractLsb' 24 8,
    t.extractLsb' 16 8, t.extractLsb' 8 8, t.extractLsb' 0 8]

/-- `pack9(ws9)`, group by group; it is defined for lengths that are multiples of 8 (41_register_transfer.md R228). -/
def pack9 : List (BitVec 9) → List Byte
  | g0 :: g1 :: g2 :: g3 :: g4 :: g5 :: g6 :: g7 :: rest => packGroup9 g0 g1 g2 g3 g4 g5 g6 g7 ++ pack9 rest
  | _ => []

/-- `pad9(ws9)` of the index phase: zero words in front up to a multiple of 8 (41_register_transfer.md R229). -/
def pad9 (ws : List (BitVec 9)) : List (BitVec 9) := List.replicate ((8 - ws.length % 8) % 8) 0 ++ ws

/-- `sbyte(rs, rw)` (41_register_transfer.md R227). -/
def State.startByte (s : State) (rs rw : Bool) : Byte :=
  (s.startBase &&& 0xFC) ||| (if rs then 0x02 else 0) ||| (if rw then 0x01 else 0)

/-- Bytes as 8-bit words of an SPI message. -/
def wireBytes (bs : List Byte) : List Half := bs.map (fun b => b.setWidth 16)

/-- The events that send one chunk of a phase on a carrier: one message, or the strobes of the parallel bus
(41_register_transfer.md R225 to R227, R230, R231). `dc` is the selector: false in the index phase, true in the data phase (R224). -/
def State.chunkEvents (s : State) (dc x16 : Bool) (ws : List Half) : Carrier → List Event
  | .spi16 => [.spiTx .w16 ws]
  | .spi8 => [.spiTx .w8 (wireBytes (units s.devBE x16 ws))]
  | .spi9 => [.spiTx .w9 ((units s.devBE x16 ws).map fun b => (word9 dc b).setWidth 16)]
  | .spi9over8 =>
    let ws9 := (units s.devBE x16 ws).map (word9 dc)
    [.spiTx .w8 (wireBytes (pack9 (if dc then ws9 else pad9 ws9)))]
  | .startByte => [.spiTx .w8 (wireBytes (s.startByte dc false :: units s.devBE x16 ws))]
  | .i80 bw => ws.map (.i80Wr bw)
  | .i80split => (units s.devBE x16 ws).map fun b => .i80Wr .w8 (b.setWidth 16)
  | .i2c => [.i2cTx s.i2cAddr ((if dc then s.i2cDat else s.i2cCmd) :: units s.devBE x16 ws)]

/-- The mode has a data/command line (41_register_transfer.md R224). -/
def BusMode.hasDC : BusMode → Bool
  | .spi4 | .i80 => true
  | .none | .spi3 | .spisb | .i2c | .reserved => false

/-- The mode can carry a transfer at all (41_register_transfer.md R233 check 2). -/
def BusMode.usable : BusMode → Bool
  | .none | .reserved => false
  | .spi4 | .spi3 | .spisb | .i80 | .i2c => true

/-- What begins a phase: the selector on the `DC` line, where the mode has one (41_register_transfer.md R225, R230). -/
def State.phaseStart (s : State) (dc : Bool) : List Event := if s.mode.hasDC then [.gpioDC dc] else []

/-- The events that send one chunk of a phase whose words are 16 bits wide (`x16`) or 8 (41_register_transfer.md R223). The checks of
the commands have made sure that there is a carrier. -/
def State.wireEvents (s : State) (dc x16 : Bool) (ws : List Half) : List Event :=
  match s.carrier x16 with
  | none => []
  | some c => s.chunkEvents dc x16 ws c

/-- Send one chunk of a phase. -/
def sendChunk (dc x16 : Bool) (ws : List Half) : Cmd Unit := do emitAll ((← get).wireEvents dc x16 ws)

/-- The index phase (41_register_transfer.md R221): the register index as one unchunked word, selector 0. -/
def indexPhase : Cmd Unit := do
  let s ← get
  emitAll (s.phaseStart false)
  sendChunk false s.regW16 [s.p.reg]

/-- `MAXCHUNK` in whole words, `M` of 41_register_transfer.md R232. -/
def State.chunkMax (s : State) (wb : Nat) : Nat := s.maxChunk.toNat - s.maxChunk.toNat % wb

/-- The room a chunk at `a` may take: at most `m` bytes, and up to the page's end where pages split (41_register_transfer.md R232). -/
def chunkRoom (page m : Nat) (splitPages : Bool) (a : Nat) : Nat := if splitPages then min m (page - a % page) else m

/-- The loop of 41_register_transfer.md R232; `fuel` bounds the number of chunks, each of which takes at least a byte. -/
def chunkLoop (page m : Nat) (splitPages : Bool) : Nat → Nat → Nat → List (Nat × Nat)
  | 0, _, _ => []
  | fuel + 1, a, rem =>
    if rem = 0 then []
    else
      let c := min rem (chunkRoom page m splitPages a)
      (a, c) :: chunkLoop page m splitPages fuel (a + c) (rem - c)

/-- `chunks(buf, nbytes, wb)` with `M` given (41_register_transfer.md R232). -/
def chunks (page m buf nbytes : Nat) : List (Nat × Nat) := chunkLoop page m (buf % page ≠ 0) nbytes buf nbytes

/-- A word of the buffer: a byte read or a 16-bit read (41_register_transfer.md R220; 20_memory.md R76). -/
def readWord (w16 : Bool) (a : Nat) : Cmd Half := do
  if w16 then read16 a else return (← read8 a).setWidth 16

/-- `n` words of the buffer from address `a`. -/
def readWords (w16 : Bool) (a n : Nat) : Cmd (List Half) := gather (fun k => readWord w16 (a + k * wordBytes w16)) n 0

/-- Send the chunks of a data phase one message each (41_register_transfer.md R233). -/
def sendChunks (w16 : Bool) : List (Nat × Nat) → Cmd Unit
  | [] => pure ()
  | (a, c) :: rest => do
    let ws ← readWords w16 a (c / wordBytes w16)
    sendChunk true w16 ws
    sendChunks w16 rest

/-- The chunks of the state's data phase (41_register_transfer.md R232). -/
def State.dataChunks (s : State) (w16 : Bool) : List (Nat × Nat) :=
  chunks s.plat.page (s.chunkMax (wordBytes w16)) s.p.src.toNat (s.p.cnt.toNat * wordBytes w16)

/-- The carriers of both phases exist (41_register_transfer.md R233 check 5, R234 check 6). -/
def State.carried (s : State) (w16 : Bool) : Bool :=
  (s.carrier s.regW16).isSome && (s.p.cnt = 0 || (s.carrier w16).isSome)

/-- The checks on the bus configuration that `WRREG` and `RDREG` share (41_register_transfer.md R233 checks 2 to 4, R234 checks 1 to
3). -/
def busChecks : Cmd Unit := do
  let s ← get
  require s.mode.usable .config 0
  require (!s.mode.hasDC || s.dcp) .config 0
  require (s.regW16 || s.p.reg.toNat ≤ 0xFF) .config 0

/-- The body of `WRREG` (41_register_transfer.md R233): the nine checks in order, the index phase, the data phase. -/
def wrregBody (w16 fl : Bool) : Cmd Unit := do
  let s ← get
  let wb := wordBytes w16
  let cnt := s.p.cnt.toNat
  let src := s.p.src.toNat
  let data := cnt ≠ 0
  require (!(fl && !s.prepared)) .state 0
  busChecks
  require (s.carried w16) .unsup 0
  require (!(data && s.mode ≠ .i80 && s.chunkMax wb = 0)) .config 0
  require (!(data && s.mode = .spi3 && !s.nat9 && (s.dataChunks w16).any (fun c => c.2 % 8 ≠ 0))) .unsup 0
  require (!(data && w16 && src % 2 ≠ 0)) .align s.p.src
  requireAccess (if data then [{ base := src, size := cnt * wb, kind := .rd }] else [])
  indexPhase
  if data then
    emitAll (s.phaseStart true)
    if s.mode = .i80 then
      sendChunk true w16 (← readWords w16 src cnt)
    else
      sendChunks w16 (s.dataChunks w16)

/-- `WRREG.8`, `WRREG.16`, with optional `.FL` (41_register_transfer.md R233). -/
def execWrreg (w16 fl : Bool) (s : State) : Host.Outcome State Fault Refusal := runBody (wrregBody w16 fl) s

/-- A list of bytes as the 16-bit words they make in wire order (41_register_transfer.md R222). -/
def joinPairs (devBE : Bool) : List Byte → List Half
  | b0 :: b1 :: rest => join16 devBE b0 b1 :: joinPairs devBE rest
  | _ => []

/-- The words a read of bytes stands for: each byte, or each pair joined (41_register_transfer.md R234). -/
def wordsOfBytes (devBE w16 : Bool) (bs : List Half) : List Half :=
  if w16 then joinPairs devBE (bs.map fun b => b.setWidth 8) else bs.map fun b => (b.setWidth 8 : Byte).setWidth 16

/-- One word read over the parallel bus (41_register_transfer.md R234): one strobe cut to the word's width, or two of 8 bits joined. -/
def readStrobes (devBE nat16 w16 : Bool) : Cmd Half := do
  if nat16 then
    let vs ← emitAsk (.i80Rd .w16)
    return cutWord (if w16 then .w16 else .w8) (vs.headD 0)
  else
    let v0 := (← emitAsk (.i80Rd .w8)).headD 0
    if w16 then
      let v1 := (← emitAsk (.i80Rd .w8)).headD 0
      return join16 devBE (v0.setWidth 8) (v1.setWidth 8)
    else
      return v0

/-- The read phase of `RDREG`: the words the transport supplies (41_register_transfer.md R234). The command's checks have refused the
modes that have no read phase. -/
def readPhase (w16 : Bool) : Cmd (List Half) := do
  let s ← get
  let cnt := s.p.cnt.toNat
  let n := cnt * wordBytes w16
  emitAll (s.phaseStart true)
  match s.mode with
  | .spi4 =>
    if w16 && s.nat16 then emitAsk (.spiTxRx .w16 [] cnt)
    else return wordsOfBytes s.devBE w16 (← emitAsk (.spiTxRx .w8 [] n))
  | .spisb => return wordsOfBytes s.devBE w16 (← emitAsk (.spiTxRx .w8 (wireBytes [s.startByte true true]) n))
  | .i80 => gather (fun _ => readStrobes s.devBE s.nat16 w16) cnt 0
  | .i2c => return wordsOfBytes s.devBE w16 (← emitAsk (.i2cRx s.i2cAddr n))
  | .none | .spi3 | .reserved => return []

/-- Store one word of the destination: a byte write or a 16-bit write (41_register_transfer.md R234; 20_memory.md R76). -/
def storeWord (w16 : Bool) (a : Nat) (v : Half) : Cmd Unit := if w16 then write16 a v else write8 a (v.setWidth 8)

/-- Store words at consecutive places from `a` (41_register_transfer.md R234). -/
def storeWords (w16 : Bool) : Nat → List Half → Cmd Unit
  | _, [] => pure ()
  | a, v :: vs => do
    storeWord w16 a v
    storeWords w16 (a + wordBytes w16) vs

/-- The body of `RDREG` (41_register_transfer.md R234): the nine checks in order, the index phase, the read phase, and the stores after
every read event has answered. -/
def rdregBody (w16 : Bool) : Cmd Unit := do
  let s ← get
  let wb := wordBytes w16
  let cnt := s.p.cnt.toNat
  let dst := s.p.dst.toNat
  let data := cnt ≠ 0
  busChecks
  require s.rdEn .unsup 0
  require (s.mode ≠ .spi3) .unsup 0
  require (s.carried w16) .unsup 0
  require (!(data && s.mode ≠ .i80 && s.maxChunk.toNat < cnt * wb)) .unsup 0
  require (!(data && w16 && dst % 2 ≠ 0)) .align s.p.dst
  requireAccess (if data then [{ base := dst, size := cnt * wb, kind := .wr }] else [])
  indexPhase
  if data then
    let vs ← readPhase w16
    storeWords w16 dst vs

/-- `RDREG.8`, `RDREG.16` (41_register_transfer.md R234). -/
def execRdreg (w16 : Bool) (s : State) : Host.Outcome State Fault Refusal := runBody (rdregBody w16) s

/-- The events of `BRESET`: none where no reset line is wired (41_register_transfer.md R235). -/
def State.resetPulse (s : State) : List Event :=
  if s.rstP then
    [.gpioReset false, .delay (s.assertMs.setWidth 32), .gpioReset true, .delay (s.settleMs.setWidth 32)]
  else []

/-- The body of `BRESET` (41_register_transfer.md R235). -/
def bresetBody : Cmd Unit := do emitAll (← get).resetPulse

/-- `BRESET` (41_register_transfer.md R235). -/
def execBreset (s : State) : Host.Outcome State Fault Refusal := runBody bresetBody s

end Sys2Proof.Machine
end

