-- ==== Sys2Proof/Machine/Dispatch.lean ====
section
/-! DEFINITION. The one dispatch of the commands to their meanings. -/

namespace Sys2Proof.Machine

def exec (i : Instr) (s : State) : Host.Outcome State Fault Refusal :=
  match i with
  | .halt => Sys2Proof.Machine.execHalt s
  | .set rd imm => Sys2Proof.Machine.execSet rd imm s
  | .delay ms => Sys2Proof.Machine.execDelay ms s
  | .merge copy => Sys2Proof.Machine.execMerge copy s
  | .take => Sys2Proof.Machine.execTake s
  | .cp565 => Sys2Proof.Machine.execCp565 s
  | .sw565 => Sys2Proof.Machine.execSw565 s
  | .x2r565 => Sys2Proof.Machine.execX2r565 s
  | .r2gray gamma => Sys2Proof.Machine.execR2gray gamma s
  | .dither => Sys2Proof.Machine.execDither s
  | .pack1 => Sys2Proof.Machine.execPack1 s
  | .wrreg w16 fl => Sys2Proof.Machine.execWrreg w16 fl s
  | .rdreg w16 => Sys2Proof.Machine.execRdreg w16 s
  | .breset => Sys2Proof.Machine.execBreset s

end Sys2Proof.Machine
end

