-- ==== Sys2Proof/Machine/Turn.lean ====
section
/-! DEFINITION. The sequencer's turn: fetch, decode, run, and what ends the turn (40_sequencer.md R140). -/

namespace Sys2Proof.Machine

/-- Decode and run a fetched command, or take `E_ILLEGAL(W0)` (40_sequencer.md R140; 60_exceptions.md R288). -/
def runFetched (w0 w1 : Word) (s : State) : Host.Outcome State Fault Refusal :=
  match decode (w1 ++ w0 : BitVec 64) with
  | .ok i => exec i s
  | .error _ => .next (s.raiseFault .illegal w0)

/-- The sequencer's step (40_sequencer.md R140): fetch, decode, run. While `RUN = 0` it does nothing (10_state.md R26). -/
def seqStep (s : State) : Host.Outcome State Fault Refusal :=
  if s.run then
    match fetch s with
    | .ok (w0, w1) s' => runFetched w0 w1 s'
    | .error e s' => finish (.error e s')
  else .next s

/-- The end of the sequencer's turn. -/
def settled : Host.Outcome State Fault Refusal → Host.Outcome State Fault Refusal
  | .next s => .next s.settle
  | .fault r => .fault r
  | .refused r => .refused r

end Sys2Proof.Machine
end

