-- ==== Sys2Proof/Machine/Step.lean ====
section
/-! DEFINITION. One step of the machine: one agent's turn (00_scope.md R5); the sequencer's is one whole command (40_sequencer.md
R140). -/

namespace Sys2Proof.Machine

/-- One step: the next turn of the schedule; the sequencer's where none is scheduled. -/
def step (s : State) : Host.Outcome State Fault Refusal :=
  match s.env.turns with
  | [] => settled (seqStep s)
  | .sequencer stores cut :: ts => settled (seqStep ((s.withTurns ts).disturbed stores cut))
  | .regWrite offset size v :: ts => turnWrite offset size v (s.withTurns ts)
  | .regRead offset size :: ts => turnRead offset size (s.withTurns ts)
  | .store cells :: ts => turnStore cells (s.withTurns ts)
  | .reset :: ts => turnReset (s.withTurns ts)

/-- The state with the command of table bits `w` stored where the sequencer fetches next, and the sequencer about to take an
undisturbed step: `RUN = 1`, no other agent's turn due, the 8 bytes at `CP` accessible (log 14). -/
def State.withFetchWord (s : State) (nbits w : Nat) : State :=
  { s with
    run := true
    mem := memStores s.mem s.cpValue.toNat (commandBytes s.plat.memBE (BitVec.ofNat 64 (w % 2 ^ nbits)))
    plat := if accessible s.plat s.cpValue.toNat 8 .rd then s.plat else { s.plat with holes := [], block := none }
    env := { s.env with turns := [], inFlight := [], cut := none } }

end Sys2Proof.Machine
end

