-- ==== Sys2Proof/Safety.lean ====
section
/-! DEFINITION. What counts as a safe state, and the terms the statements use: the numbered checks of the commands as lists, the bus
events of a transfer mode by mode, and the results of the conversions as plain folds over memory. -/

namespace Sys2Proof.Machine

/-! ## The invariant -/

/-- The faults that some rule raises; `alloc` and `timeout` are reserved (60_exceptions.md R280, R284, R285). -/
def FaultCode.isRaised : FaultCode → Bool
  | .bus | .state | .format | .config | .unsup | .illegal | .align | .access => true
  | .alloc | .timeout => false

/-- What every step keeps: memory in canonical form, hardwired and reserved bits zero (10_state.md R24, R31), only produced fault
codes with the values R305 gives them (60_exceptions.md R280, R305), no recorded fault and no `DONE` during a run or beside a fault
(10_state.md R28, 70_reset_and_hazards.md R333), and nothing in flight between two steps (20_memory.md R83). -/
structure Inv (s : State) : Prop where
  mem : s.mem.wf = true
  cp : s.cp &&& 0x7 = 0
  irqEn : s.irqEn &&& ~~~irqEnMask = 0
  busCfg : s.busCfg &&& ~~~busCfgMask = 0
  busCfg2 : s.busCfg2 &&& ~~~busCfg2Mask = 0
  pipe : s.pipe &&& ~~~pipeMask = 0
  err : s.err = 0 ∨ ∃ c : FaultCode, c.isRaised = true ∧ s.err = c.code
  errInfo : s.err.toNat < 0x10 → s.errInfo = 0
  running : s.run = true → s.err = 0 ∧ s.done = false
  faulted : s.err ≠ 0 → s.done = false
  quiet : s.undisturbed = true

/-- Every register of the reset table has its reset value (10_state.md R46); memory, trace, platform and the outside world are not
spoken of. -/
structure ResetValues (s : State) : Prop where
  p : s.p = { src := 0, dst := 0, lutb := 0, cnt := 0, reg := 0, fbw := 0, fbh := 0, fbfmt := 0, cx1 := 0, cy1 := 0, cx2 := 0, cy2 := 0 }
  cp : s.cpValue = 0
  run : s.run = false
  done : s.done = false
  drop : s.drop = false
  first : s.first = true
  err : s.err = 0
  errInfo : s.errInfo = 0
  irqEn : s.irqEn = 0
  busCfg : s.busCfg = 0
  busCfg2 : s.busCfg2 = 0
  maxChunk : s.maxChunk = 0
  rstCfg : s.rstCfg = 0
  pipe : s.pipe = 0
  acc : s.acc = { x1 := 0xFFFF, y1 := 0xFFFF, x2 := 0, y2 := 0 }
  dp : s.dp = { x1 := 0, y1 := 0, x2 := 0, y2 := 0 }
  irq : s.irq = false

/-- The registers no command writes (10_state.md R38, R41, R43): the configuration, `IRQEN`, the staging registers and `DROP`. -/
structure SameConfig (s t : State) : Prop where
  irqEn : t.irqEn = s.irqEn
  busCfg : t.busCfg = s.busCfg
  busCfg2 : t.busCfg2 = s.busCfg2
  maxChunk : t.maxChunk = s.maxChunk
  rstCfg : t.rstCfg = s.rstCfg
  pipe : t.pipe = s.pipe
  dp : t.dp = s.dp
  drop : t.drop = s.drop

/-- Every register but `CP` is as it was, and the platform too; memory, trace and the outside world are not spoken of. -/
structure SameRegisters (s t : State) : Prop extends SameConfig s t where
  p : t.p = s.p
  run : t.run = s.run
  done : t.done = s.done
  first : t.first = s.first
  err : t.err = s.err
  errInfo : t.errInfo = s.errInfo
  acc : t.acc = s.acc
  plat : t.plat = s.plat

/-- `CP` has moved on to the next command (10_state.md R25). -/
def Advanced (s t : State) : Prop := t.cpValue = s.cpValue + 8

/-- No byte of memory differs. -/
def SameBytes (s t : State) : Prop := ∀ a, t.byteAt a = s.byteAt a

/-- No byte of memory outside `[base, base + size)` differs. -/
def SameBytesOutside (base size : Nat) (s t : State) : Prop := ∀ a, (a < base ∨ base + size ≤ a) → t.byteAt a = s.byteAt a

/-- The rows of the opcode map: `match` and `mask` (30_encoding.md R113). -/
def tableRows : List (Command × Command) :=
  [(0x01, 0xFFFFFFFFFFFFFFFF), (0x02, 0x00000000FFFFF0FF), (0x03, 0x00000000FFFFFFFF), (0x10, 0xFFFFFFFFFFFFFEFF),
    (0x11, 0xFFFFFFFFFFFFFFFF), (0x20, 0xFFFFFFFFFFFFFFFF), (0x21, 0xFFFFFFFFFFFFFFFF), (0x22, 0xFFFFFFFFFFFFFFFF),
    (0x23, 0xFFFFFFFFFFFFFEFF), (0x24, 0xFFFFFFFFFFFFFFFF), (0x25, 0xFFFFFFFFFFFFFFFF), (0x30, 0xFFFFFFFFFFFFFCFF),
    (0x31, 0xFFFFFFFFFFFFFEFF), (0x32, 0xFFFFFFFFFFFFFFFF)]

/-- The sequencer is about to fetch: a run is on, it is the sequencer's turn, nothing disturbs it, and the command at `CP` is
accessible (40_sequencer.md R140). -/
structure Fetching (s : State) : Prop where
  run : s.run = true
  turns : s.env.turns = []
  quiet : s.undisturbed = true
  access : accessible s.plat s.cpValue.toNat 8 .rd = true

/-! ## The checks of a command -/

/-- The numbered checks of a command's rule in order: whether the check fails, and the fault it then raises. -/
abbrev Checks := List (Bool × FaultCode × Word)

/-- The first check that fails, if one does (60_exceptions.md R292). -/
def Checks.firstFault (cs : Checks) : Option (FaultCode × Word) := (cs.find? (fun c => c.1)).map (fun c => c.2)

/-- No check fails. -/
def Checks.pass (cs : Checks) : Prop := ∀ c ∈ cs, c.1 = false

/-- The access check of a range as a numbered check (20_memory.md R75, 60_exceptions.md R305). -/
def rangeCheck (p : Config.Platform) (r : AccessRange) : Bool × FaultCode × Word :=
  (!rangeOk p r, .access, BitVec.ofNat 32 r.base)

/-- The checks of `MERGE` (43_damage_merge.md R165). -/
def mergeChecks (copy : Bool) (s : State) : Checks :=
  if s.rectCount copy = 0 then []
  else
    [(s.p.src.toNat % 2 != 0, .align, s.p.src),
      rangeCheck s.plat { base := s.p.src.toNat, size := 8 * s.rectCount copy, kind := .rd }]

/-- `conv_checks` (42_pixel_conversion.md R182): required format, source and destination bytes an element, RGB565 target, gamma. Where
both addresses are misaligned the check of `SRC` decides (log 13). -/
def conversionChecks (format : BitVec 2) (sb db : Nat) (rgbTarget gamma : Bool) (s : State) : Checks :=
  [(s.p.fbfmt != format, .format, 0),
    (!(s.p.cx1.toNat ≤ s.p.cx2.toNat && s.p.cx2.toNat ≤ s.p.fbw.toNat && s.p.cy1.toNat ≤ s.p.cy2.toNat &&
        s.p.cy2.toNat ≤ s.p.fbh.toNat), .config, 0),
    (rgbTarget && s.fullRow && s.p.cw != s.p.fbw.toNat, .format, 0)] ++
  if s.p.cw = 0 ∨ s.p.ch = 0 then []
  else
    [(s.p.src.toNat % sb != 0, .align, s.p.src), (s.p.dst.toNat % db != 0, .align, s.p.dst)] ++
    (List.range s.p.ch).map (fun j => rangeCheck s.plat
      { base := s.p.src.toNat + ((s.p.cy1.toNat + j) * s.p.fbw.toNat + s.p.cx1.toNat) * sb, size := s.p.cw * sb, kind := .rd }) ++
    (if gamma then [rangeCheck s.plat { base := s.p.lutb.toNat, size := 256, kind := .rd }] else []) ++
    [rangeCheck s.plat { base := s.p.dst.toNat, size := s.p.cw * s.p.ch * db, kind := .wr }]

/-- The checks of `DITHER` (42_pixel_conversion.md R190). -/
def ditherChecks (s : State) : Checks :=
  [(!(s.p.cx1.toNat ≤ s.p.cx2.toNat && s.p.cy1.toNat ≤ s.p.cy2.toNat), .config, 0)] ++
  if s.p.cw = 0 ∨ s.p.ch = 0 then []
  else
    [rangeCheck s.plat { base := s.p.dst.toNat, size := s.p.cw * s.p.ch, kind := .rd },
      rangeCheck s.plat { base := s.p.dst.toNat, size := s.p.cw * s.p.ch, kind := .wr }]

/-- The checks of `PACK1` (42_pixel_conversion.md R192). -/
def pack1Checks (s : State) : Checks :=
  [(!(s.p.cx1.toNat ≤ s.p.cx2.toNat && s.p.cy1.toNat ≤ s.p.cy2.toNat), .config, 0), (s.p.cw % 8 != 0, .format, 0)] ++
  if s.p.cw = 0 ∨ s.p.ch = 0 then []
  else
    [rangeCheck s.plat { base := s.p.src.toNat, size := s.p.cw * s.p.ch, kind := .rd },
      rangeCheck s.plat { base := s.p.dst.toNat, size := s.p.cw * s.p.ch / 8, kind := .wr }]

/-- The width plan has a carrier for words of 16 bits (`x16`) or 8: the conditions of the table of 41_register_transfer.md R223. -/
def State.carries (s : State) (x16 : Bool) : Bool :=
  match s.mode with
  | .spi4 => (x16 && s.nat16) || s.nat8
  | .spi3 => s.nat9 || s.nat8
  | .spisb => s.nat8
  | .i80 => s.nat16 || s.nat8
  | .i2c => true
  | .none | .reserved => false

/-- The checks `WRREG` and `RDREG` begin with, on the bus configuration (41_register_transfer.md R233 checks 2 to 4). -/
def busConfigChecks (s : State) : Checks :=
  [(s.mode == .none || s.mode == .reserved, .config, 0),
    ((s.mode == .spi4 || s.mode == .i80) && !s.dcp, .config, 0),
    (!s.regW16 && decide (0xFF < s.p.reg.toNat), .config, 0)]

/-- The nine checks of `WRREG` (41_register_transfer.md R233). -/
def wrregChecks (w16 fl : Bool) (s : State) : Checks :=
  [(fl && !s.prepared, .state, 0)] ++ busConfigChecks s ++
  [(!s.carries s.regW16 || (s.p.cnt != 0 && !s.carries w16), .unsup, 0),
    (s.p.cnt != 0 && s.mode != .i80 && s.maxChunk.toNat - s.maxChunk.toNat % wordBytes w16 == 0, .config, 0),
    (s.p.cnt != 0 && s.mode == .spi3 && !s.nat9 && (s.dataChunks w16).any (fun c => c.2 % 8 != 0), .unsup, 0),
    (s.p.cnt != 0 && w16 && s.p.src.toNat % 2 != 0, .align, s.p.src),
    (s.p.cnt != 0 && !rangeOk s.plat { base := s.p.src.toNat, size := s.p.cnt.toNat * wordBytes w16, kind := .rd }, .access,
      s.p.src)]

/-- The nine checks of `RDREG` (41_register_transfer.md R234). -/
def rdregChecks (w16 : Bool) (s : State) : Checks :=
  busConfigChecks s ++
  [(!s.rdEn, .unsup, 0), (s.mode == .spi3, .unsup, 0),
    (!s.carries s.regW16 || (s.p.cnt != 0 && !s.carries w16), .unsup, 0),
    (s.p.cnt != 0 && s.mode != .i80 && decide (s.maxChunk.toNat < s.p.cnt.toNat * wordBytes w16), .unsup, 0),
    (s.p.cnt != 0 && w16 && s.p.dst.toNat % 2 != 0, .align, s.p.dst),
    (s.p.cnt != 0 && !rangeOk s.plat { base := s.p.dst.toNat, size := s.p.cnt.toNat * wordBytes w16, kind := .wr }, .access,
      s.p.dst)]

/-! ## Events and answers -/

/-- How many of the events ask the transport for an answer (20_memory.md R82). -/
def askCount (es : List Event) : Nat := (es.filter Event.asks).length

/-- The next `n` answers of the transport are `ok`, the premise of a claim of success (93_implementation_defined.md U7). -/
def State.nextOk (s : State) (n : Nat) : Prop := ∀ k < n, ∃ ws, s.env.answer (s.env.asked + k) = .ok ws

/-- The state after the events have been emitted and answered: they are in the trace, in order, and their answers are used up. -/
def State.emitted (s : State) (es : List Event) : State :=
  (s.logged es).withEnv { s.env with asked := s.env.asked + askCount es }

/-- Word `k` of a buffer of a register transfer: `MemRead(a + k*wb, wb)` (41_register_transfer.md R220). -/
def State.bufferWord (s : State) (w16 : Bool) (a k : Nat) : Half :=
  if w16 then s.half (a + 2 * k) else (s.byteAt (a + k)).setWidth 16

/-- The first `n` words of a buffer (41_register_transfer.md R220). -/
def State.buffer (s : State) (w16 : Bool) (a n : Nat) : List Half := (List.range n).map (s.bufferWord w16 a)

/-- A selector and a unit as a 9-bit word of an SPI message (41_register_transfer.md R226). -/
def wire9 (dc : Bool) (bs : List Byte) : List Half := bs.map fun b => (word9 dc b).setWidth 16

/-- The events of the index phase, mode by mode (41_register_transfer.md R221, R225 to R231). -/
def State.indexEvents (s : State) : List Event :=
  let us := units s.devBE s.regW16 [s.p.reg]
  match s.mode with
  | .spi4 => [.gpioDC false, if s.regW16 && s.nat16 then .spiTx .w16 [s.p.reg] else .spiTx .w8 (wireBytes us)]
  | .spi3 =>
    if s.nat9 then [.spiTx .w9 (wire9 false us)]
    else [.spiTx .w8 (wireBytes (pack9 (List.replicate (8 - us.length) 0 ++ us.map (word9 false))))]
  | .spisb => [.spiTx .w8 (wireBytes ((s.startBase &&& 0xFC) :: us))]
  | .i80 => .gpioDC false :: (if s.nat16 then [.i80Wr .w16 s.p.reg] else us.map fun b => .i80Wr .w8 (b.setWidth 16))
  | .i2c => [.i2cTx s.i2cAddr (s.i2cCmd :: us)]
  | .none | .reserved => []

/-- The events of a data phase of `WRREG`, mode by mode: one message a chunk, or the strobes of the parallel bus
(41_register_transfer.md R221, R225 to R233). -/
def State.dataEvents (s : State) (w16 : Bool) : List Event :=
  let words := fun (c : Nat × Nat) => s.buffer w16 c.1 (c.2 / wordBytes w16)
  let bytes := fun (c : Nat × Nat) => units s.devBE w16 (words c)
  let all := s.buffer w16 s.p.src.toNat s.p.cnt.toNat
  if s.p.cnt = 0 then []
  else match s.mode with
  | .spi4 => .gpioDC true :: (s.dataChunks w16).map fun c =>
      if w16 && s.nat16 then .spiTx .w16 (words c) else .spiTx .w8 (wireBytes (bytes c))
  | .spi3 => (s.dataChunks w16).map fun c =>
      if s.nat9 then .spiTx .w9 (wire9 true (bytes c)) else .spiTx .w8 (wireBytes (pack9 ((bytes c).map (word9 true))))
  | .spisb => (s.dataChunks w16).map fun c => .spiTx .w8 (wireBytes (((s.startBase &&& 0xFC) ||| 0x02) :: bytes c))
  | .i80 => .gpioDC true ::
      (if s.nat16 then all.map (.i80Wr .w16) else (units s.devBE w16 all).map fun b => .i80Wr .w8 (b.setWidth 16))
  | .i2c => (s.dataChunks w16).map fun c => .i2cTx s.i2cAddr (s.i2cDat :: bytes c)
  | .none | .reserved => []

/-- Everything `WRREG` emits (41_register_transfer.md R233). -/
def State.wrregEvents (s : State) (w16 : Bool) : List Event := s.indexEvents ++ s.dataEvents w16

/-- The events of the read phase of `RDREG`, mode by mode (41_register_transfer.md R234). -/
def State.readEvents (s : State) (w16 : Bool) : List Event :=
  let cnt := s.p.cnt.toNat
  let n := cnt * wordBytes w16
  if s.p.cnt = 0 then []
  else match s.mode with
  | .spi4 => [.gpioDC true, if w16 && s.nat16 then .spiTxRx .w16 [] cnt else .spiTxRx .w8 [] n]
  | .spisb => [.spiTxRx .w8 (wireBytes [(s.startBase &&& 0xFC) ||| 0x03]) n]
  | .i80 => .gpioDC true :: (if s.nat16 then List.replicate cnt (.i80Rd .w16) else List.replicate n (.i80Rd .w8))
  | .i2c => [.i2cRx s.i2cAddr n]
  | .none | .spi3 | .reserved => []

/-- Everything `RDREG` emits (41_register_transfer.md R234). -/
def State.rdregEvents (s : State) (w16 : Bool) : List Event := s.indexEvents ++ s.readEvents w16

/-- The events the rule of a command emits where every check passes and every event is answered (40_sequencer.md R143;
41_register_transfer.md R233 to R235); the other commands emit none (20_memory.md R70). -/
def State.commandEvents (s : State) : Instr → List Event
  | .delay ms => [.delay ms]
  | .wrreg w16 _ => s.wrregEvents w16
  | .rdreg w16 => s.rdregEvents w16
  | .breset => s.resetPulse
  | .halt | .set _ _ | .merge _ | .take | .cp565 | .sw565 | .x2r565 | .r2gray _ | .dither | .pack1 => []

/-- What a command does that outlives a reset inside it: one atomic write to memory, or one event (70_reset_and_hazards.md R320,
log 24). -/
inductive Effect where
  | write (base : Nat) (bytes : List Byte)
  | event (e : Event)
  deriving DecidableEq, Repr

/-- A write is one access of 1 or 2 bytes (20_memory.md R76). -/
def Effect.atomic : Effect → Bool
  | .write _ bs => bs.length ≤ 2
  | .event _ => true

/-- Memory after effects, one after the other. -/
def memAfter (m : Memory) (effs : List Effect) : Memory :=
  effs.foldl (fun m e => match e with
    | .write a bs => memStores m a bs
    | .event _ => m) m

/-- The events among effects, in order. -/
def eventsOf (effs : List Effect) : List Event :=
  effs.filterMap fun e => match e with
    | .write _ _ => none
    | .event e => some e

/-- Byte `k` of the data of answer number `n`. -/
def Env.dataByte (e : Env) (n k : Nat) : Byte := (e.dataWord n k).setWidth 8

/-- Word `k` that `RDREG` reads, from the transport's answers (41_register_transfer.md R234): a 16-bit value as it is, a byte, or two
bytes joined in wire order; a parallel read takes one or two strobes a word, each with an answer of its own. -/
def State.readValue (s : State) (w16 : Bool) (k : Nat) : Half :=
  let n := s.env.asked + askCount s.indexEvents
  match s.mode with
  | .i80 =>
    if s.nat16 then (if w16 then s.env.dataWord (n + k) 0 else (s.env.dataByte (n + k) 0).setWidth 16)
    else if w16 then join16 s.devBE (s.env.dataByte (n + 2 * k) 0) (s.env.dataByte (n + 2 * k + 1) 0)
    else (s.env.dataByte (n + k) 0).setWidth 16
  | .spi4 | .spi3 | .spisb | .i2c | .none | .reserved =>
    if w16 && s.mode == .spi4 && s.nat16 then s.env.dataWord n k
    else if w16 then join16 s.devBE (s.env.dataByte n (2 * k)) (s.env.dataByte n (2 * k + 1))
    else (s.env.dataByte n k).setWidth 16

/-- The bytes of one word as memory holds them (20_memory.md R72). -/
def wordInMemory (be w16 : Bool) (v : Half) : List Byte := if w16 then bytes2 be v else [v.setWidth 8]

/-- The bytes `RDREG` stores at `DST` (41_register_transfer.md R234). -/
def State.readBytes (s : State) (w16 : Bool) : List Byte :=
  (List.range s.p.cnt.toNat).flatMap fun k => wordInMemory s.plat.memBE w16 (s.readValue w16 k)

/-! ## The conversions as folds over memory -/

/-- Memory after `f` has been applied once for every column `i` and row `j` of the clip, row-major (42_pixel_conversion.md R184). -/
def eachPixel (p : Params) (f : Nat → Nat → Memory → Memory) (m : Memory) : Memory :=
  (List.range p.ch).foldl (fun m j => (List.range p.cw).foldl (fun m i => f i j m) m) m

/-- The 16-bit value in a memory (20_memory.md R72). -/
def memHalf (be : Bool) (m : Memory) (a : Nat) : Half := join2 be (memByte m a) (memByte m (a + 1))

/-- The 32-bit value in a memory (20_memory.md R72). -/
def memWord (be : Bool) (m : Memory) (a : Nat) : Word :=
  join4 be (memByte m a) (memByte m (a + 1)) (memByte m (a + 2)) (memByte m (a + 3))

/-- No byte the conversion reads as a pixel of the clip lies in its destination (42_pixel_conversion.md R181). -/
def Params.apart (p : Params) (sb db : Nat) : Prop :=
  ∀ i < p.cw, ∀ j < p.ch, ∀ k < sb, p.clipSrc sb i j + k < p.dst.toNat ∨ p.dst.toNat + p.cw * p.ch * db ≤ p.clipSrc sb i j + k

/-- One pixel of `CP565` on memory (42_pixel_conversion.md R184). -/
def copied (p : Params) (i j : Nat) (m : Memory) : Memory :=
  let m1 := memStore m (p.clipDst 2 i j) (memByte m (p.clipSrc 2 i j))
  memStore m1 (p.clipDst 2 i j + 1) (memByte m1 (p.clipSrc 2 i j + 1))

/-- One pixel of `SW565` on memory (42_pixel_conversion.md R185). -/
def swapped (p : Params) (i j : Nat) (m : Memory) : Memory :=
  memStore (memStore m (p.clipDst 2 i j) (memByte m (p.clipSrc 2 i j + 1))) (p.clipDst 2 i j + 1) (memByte m (p.clipSrc 2 i j))

/-- One pixel of `X2R565` on memory, with the second formula of 42_pixel_conversion.md R186. -/
def truncated (be : Bool) (p : Params) (i j : Nat) (m : Memory) : Memory :=
  let x := memWord be m (p.clipSrc 4 i j)
  memStores m (p.clipDst 2 i j)
    (bytes2 be ((((x >>> 8) &&& 0xF800) ||| ((x >>> 5) &&& 0x07E0) ||| ((x >>> 3) &&& 0x001F)).setWidth 16))

/-- The gray value of a pixel, looked up in the table where `GAMMA` asks for it (42_pixel_conversion.md R187 to R189). -/
def grayOf (gamma : Bool) (p : Params) (x : Half) (m : Memory) : Byte :=
  let l := (299 * (x >>> 11).toNat + 587 * ((x >>> 5) &&& 0x3F).toNat + 114 * (x &&& 0x1F).toNat + 100) / 200
  if gamma then memByte m (p.lutb.toNat + l) else BitVec.ofNat 8 l

/-- One pixel of `R2GRAY` on memory (42_pixel_conversion.md R187). -/
def grayed (be gamma : Bool) (p : Params) (i j : Nat) (m : Memory) : Memory :=
  memStore m (p.clipDst 1 i j) (grayOf gamma p (memHalf be m (p.clipSrc 2 i j)) m)

/-- A neighbour in column `x`, row `y` of a dense buffer takes `w` times the error; outside the buffer it is skipped
(42_pixel_conversion.md R190, R191). -/
def spread (base cw ch : Nat) (e8 : Int) (w : Int) (x y : Nat) (m : Memory) : Memory :=
  if x < cw ∧ y < ch then
    memStore m (base + y * cw + x) (BitVec.ofNat 8 (min (max ((memByte m (base + y * cw + x)).toNat + e8 * w) 0) 255).toNat)
  else m

/-- One pixel of `DITHER` on memory: quantised to the nearer level, the error spread with the weights of 42_pixel_conversion.md R191. -/
def dithered (base cw ch x y : Nat) (m : Memory) : Memory :=
  let v := memByte m (base + y * cw + x)
  let q : Byte := if v.toNat ≥ 128 then 255 else 0
  let e8 := Int.tdiv (v.toNat - q.toNat) 8
  spread base cw ch e8 2 (x + 1) (y + 1)
    (spread base cw ch e8 3 (x + 1) y
      (spread base cw ch e8 3 x (y + 1) (memStore m (base + y * cw + x) q)))

/-- Memory after `DITHER`: column by column (42_pixel_conversion.md R190). -/
def ditherAll (base cw ch : Nat) (m : Memory) : Memory :=
  (List.range cw).foldl (fun m x => (List.range ch).foldl (fun m y => dithered base cw ch x y m) m) m

/-- The packed byte of eight monochrome bytes at `a`: bit `7 - t` is the top bit of byte `t` (42_pixel_conversion.md R192). -/
def packedByte (m : Memory) (a : Nat) : Byte :=
  BitVec.ofNat 8 ((List.range 8).foldl (fun n t => 2 * n + (memByte m (a + t)).toNat / 128) 0)

/-- Memory after `PACK1`: group by group, each read before it is written (42_pixel_conversion.md R192). -/
def packAll (src dst n : Nat) (m : Memory) : Memory :=
  (List.range n).foldl (fun m k => memStore m (dst + k) (packedByte m (src + 8 * k))) m

/-- The rectangles of a list in memory (43_damage_merge.md R161). -/
def State.rectsAt (s : State) (a n : Nat) : List Rect :=
  (List.range n).map fun k =>
    { x1 := s.half (a + 8 * k), y1 := s.half (a + 8 * k + 2), x2 := s.half (a + 8 * k + 4), y2 := s.half (a + 8 * k + 6) }

end Sys2Proof.Machine
end

