-- ==== Sys2Proof/Certificates/Slice0/Obligations.lean ====
section
/-! DEFINITION. The statements for the provers, from the numbered rules of spec/. -/

open Sys2Proof Sys2Proof.Machine

/-! ## Encoding -/

/-- Every well-formed command is what its encoding decodes to, as a 64-bit value and as 8 bytes in either byte order
(30_encoding.md R110, R111, R113, R117). -/
def Obligations.DecodingUndoesEncoding : Prop :=
  ∀ i : Instr, i.wf = true →
    decode (encode i) = .ok i ∧
    ∀ (be : Bool) (rest : List Byte), decodeBytes be (commandBytes be (encode i) ++ rest) = .ok (i, rest)

/-- A command value that decodes is the encoding of the well-formed command it decodes to: no two values are one command, and no bit
of a command is ignored (30_encoding.md R114, R117). -/
def Obligations.EncodingUndoesDecoding : Prop :=
  ∀ (c : Command) (i : Instr), decode c = .ok i → i.wf = true ∧ encode i = c

/-- Which command values are illegal, and that fetching one raises `E_ILLEGAL(W0)` and does nothing else (30_encoding.md R115). -/
def Obligations.IllegalCommandsFault : Prop :=
  (∀ c : Command, (∃ e, decode c = .error e) ↔
    (∀ r ∈ tableRows, c &&& r.2 ≠ r.1) ∨
    (c &&& 0x00000000FFFFF0FF = 0x02 ∧ 11 < (c.extractLsb' 8 4).toNat) ∨
    (c &&& 0x00000000FFFFF0FF = 0x02 ∧
      ∃ rd : PReg, rd.num = c.extractLsb' 8 4 ∧ 2 ^ rd.width ≤ (c.extractLsb' 32 32).toNat)) ∧
  (∀ s : State, Fetching s →
    (∃ e, decode (s.word (s.cpValue.toNat + 4) ++ s.word s.cpValue.toNat : BitVec 64) = .error e) →
    step s = .next (s.raiseFault .illegal (s.word s.cpValue.toNat))) ∧
  (∃ e, decode 0 = .error e) ∧ (∃ e, decode (BitVec.allOnes 64) = .error e)

/-- The worked encodings of 30_encoding.md R120, byte by byte. -/
def Obligations.WorkedEncodingsDecode : Prop :=
  decodeBytes false [0x02, 0x03, 0x00, 0x00, 0x00, 0x2C, 0x01, 0x00] = .ok (.set .cnt 0x12C00, []) ∧
  decodeBytes false [0x30, 0x03, 0x00, 0x00, 0x00, 0x00, 0x00, 0x00] = .ok (.wrreg true true, []) ∧
  decodeBytes false [0x01, 0x00, 0x00, 0x00, 0x00, 0x00, 0x00, 0x00] = .ok (.halt, []) ∧
  decodeBytes false [0x03, 0x00, 0x00, 0x00, 0x78, 0x00, 0x00, 0x00] = .ok (.delay 120, []) ∧
  decodeBytes false [0x10, 0x01, 0x00, 0x00, 0x00, 0x00, 0x00, 0x00] = .ok (.merge true, [])

/-! ## The step -/

/-- A step of the sequencer runs the command whose 8 bytes stand at `CP`: where they decode to `i`, `step` is `exec i` (40_sequencer.md
R140); the same where the schedule gives the sequencer an undisturbed turn. -/
def Obligations.StepRunsDecodedCommand : Prop :=
  ∀ (s : State) (i : Instr), Fetching s →
    decodeBytes s.plat.memBE (memBytes s.mem s.cpValue.toNat 8) = .ok (i, []) →
    step s = exec i s ∧
    ∀ ts, step (s.withTurns (.sequencer [] none :: ts)) = exec i (s.withTurns ts)

/-- While `RUN = 0` the sequencer has no step: its turn changes nothing. While `RUN = 1` a fetch whose 8 bytes are not accessible
raises `E_ACCESS(CP)` (40_sequencer.md R140, 10_state.md R26, 20_memory.md R75). -/
def Obligations.FetchNeedsRunAndAccess : Prop :=
  ∀ s : State, s.env.turns = [] → s.undisturbed = true →
    (s.run = false → step s = .next s) ∧
    (s.run = true → accessible s.plat s.cpValue.toNat 8 .rd = false → step s = .next (s.raiseFault .access s.cpValue))

/-- A run starts only by an accepted `CTRL.GO` (10_state.md R26, R32; 60_exceptions.md R304;
70_reset_and_hazards.md R323). -/
def Obligations.OnlyGoStartsRun : Prop :=
  ∀ s t : State, step s = .next t → s.run = false → t.run = true →
    ∃ v ts, s.env.turns = .regWrite 0 4 v :: ts ∧ v.getLsbD 0 = true ∧ v.getLsbD 1 = false ∧
      (s.err = 0 ∨ v.getLsbD 2 = true) ∧ t.err = 0 ∧ t.done = false ∧ t.cpValue = s.cpValue

/-- A run ends in exactly one of the ways of 70_reset_and_hazards.md R333: completed, faulted, or reset. -/
def Obligations.RunEndsOneWay : Prop :=
  ∀ s t : State, Inv s → s.run = true → step s = .next t → t.run = false →
    (t.done = true ∧ t.err = 0 ∧ t.cpValue = s.cpValue) ∨
    (t.err ≠ 0 ∧ t.done = false ∧ t.cpValue = s.cpValue) ∨
    (t.done = false ∧ t.err = 0 ∧ ∃ es, t.trace = s.trace ++ es ++ [.resetMark])

/-- Every step ends in a next state, but for a sequencer's turn without a reset inside it in which an answer of the transport is
silence: then the block stays inside the step with `RUN = 1` (70_reset_and_hazards.md R334), which is the model's fault
`transportSilent` (the model's choice, log 6). That no step hangs at a GPIO, `I80_WR` or `DELAY` event, which ask for no answer, is the
model's choice too (log 11). The host's accesses have the defined shape (10_state.md R31); no premise on the registers or on memory. -/
def Obligations.AnsweredStepsEnd : Prop :=
  ∀ s : State,
    (∀ off size v ts, s.env.turns = .regWrite off size v :: ts → accessShaped off size = true) →
    (∀ off size ts, s.env.turns = .regRead off size :: ts → accessShaped off size = true) →
    (∃ t, step s = .next t) ∨
    (step s = .fault .transportSilent ∧ s.run = true ∧
      (s.env.turns = [] ∨ ∃ ws ts, s.env.turns = .sequencer ws none :: ts) ∧
      ∃ n, s.env.asked ≤ n ∧ s.env.answer n = .silent)

/-! ## Invariants and whole-machine rules -/

/-- Every step keeps the invariant: canonical memory, hardwired and reserved bits, produced fault codes and their values, no fault and
no `DONE` during a run (10_state.md R24, R28, R31; 60_exceptions.md R280, R290, R305). -/
def Obligations.StepsKeepInvariant : Prop :=
  ∀ s t : State, Inv s → step s = .next t → Inv t

/-- The machine after reset has the invariant. -/
def Obligations.ResetHasInvariant : Prop := Inv State.reset

/-- The trace is append-only and the platform's parameters are fixed: every step of any agent extends the one and keeps the other
(10_state.md R44, R45). -/
def Obligations.TraceGrowsPlatformStays : Prop :=
  ∀ s t : State, step s = .next t → s.trace <+: t.trace ∧ t.plat = s.plat

/-- The sequencer moves `CP` only by completing a command, by 8 modulo `2^32`; a step that ends the run leaves it (10_state.md R25). -/
def Obligations.CommandPointerMoves : Prop :=
  (∀ s t : State, Fetching s → step s = .next t →
    (t.run = true ∧ t.cpValue = s.cpValue + 8) ∨ (t.run = false ∧ t.cpValue = s.cpValue)) ∧
  (∀ s t : State, Fetching s → step s = .next t → t.run = false →
    (t.done = true ∧ decode (s.word (s.cpValue.toNat + 4) ++ s.word s.cpValue.toNat : BitVec 64) = .ok .halt) ∨
    (t.err ≠ 0 ∧ t.done = s.done)) ∧
  (0xFFFFFFF8 : Word) + 8 = 0

/-- No command but `SET` and `TAKE` writes a parameter register, `SET` writes only its own and `TAKE` only the clip (10_state.md
R22). -/
def Obligations.OnlySetAndTakeWriteParams : Prop :=
  ∀ (i : Instr) (s t : State), s.env.cut = none → exec i s = .next t → ∀ r : PReg,
    t.param r = s.param r ∨ (∃ imm, i = .set r imm) ∨ (i = .take ∧ r ∈ [PReg.cx1, .cy1, .cx2, .cy2])

/-- No command but `MERGE` and `TAKE` writes the accumulator, none but `TAKE` writes `FIRST`, none but `HALT` writes `DONE`, and none
writes a configuration register, `IRQEN`, the staging registers or `DROP` (10_state.md R27, R29, R38, R40; 20_memory.md R86). -/
def Obligations.CommandsWriteOnlyTheirState : Prop :=
  ∀ (i : Instr) (s t : State), s.env.cut = none → exec i s = .next t →
    SameConfig s t ∧ (t.acc = s.acc ∨ (∃ c, i = .merge c) ∨ i = .take) ∧ (t.first = s.first ∨ i = .take) ∧
    (t.done = s.done ∨ i = .halt)

/-- No command but the six conversions and `RDREG` writes a byte of memory, and no command but `WRREG`, `RDREG`, `BRESET` and `DELAY`
emits an event (20_memory.md R70, R76, R79; 42_pixel_conversion.md R194). -/
def Obligations.CommandsReachOnlyTheirSpaces : Prop :=
  ∀ (i : Instr) (s t : State), s.env.cut = none → exec i s = .next t →
    (SameBytes s t ∨ i ∈ [Instr.cp565, .sw565, .x2r565, .dither, .pack1] ∨ (∃ g, i = .r2gray g) ∨ ∃ w, i = .rdreg w) ∧
    (t.trace = s.trace ∨ (∃ ms, i = .delay ms) ∨ (∃ w fl, i = .wrreg w fl) ∨ (∃ w, i = .rdreg w) ∨ i = .breset)

/-- `IRQEN` has no effect on any command: with another value in it the command does the same (60_exceptions.md R294, R298). -/
def Obligations.InterruptEnablesAreInert : Prop :=
  ∀ (i : Instr) (s t : State) (v : Word), s.env.cut = none → exec i s = .next t →
    exec i { s with irqEn := v } = .next { t with irqEn := v }

/-- A recorded fault stays until `CLRERR` or reset: no step of any agent overwrites or loses it otherwise (10_state.md R28,
60_exceptions.md R297). -/
def Obligations.RecordedFaultStays : Prop :=
  ∀ s t : State, Inv s → s.err ≠ 0 → step s = .next t →
    (t.err = s.err ∧ t.errInfo = s.errInfo ∧ t.run = false) ∨
    (t.err = 0 ∧ t.errInfo = 0 ∧
      ((∃ v ts, s.env.turns = .regWrite 0 4 v :: ts ∧ (v.getLsbD 2 = true ∨ v.getLsbD 1 = true)) ∨
       (∃ ts, s.env.turns = .reset :: ts) ∨
       ∃ ws k ts, s.env.turns = .sequencer ws (some k) :: ts))

/-! ## Faults and the return from them -/

/-- Preciseness: a command that faults has either changed nothing at all, or the fault is `E_BUS` of a transfer, which has emitted
events and changed neither memory nor a register (60_exceptions.md R291). -/
def Obligations.FaultsArePrecise : Prop :=
  ∀ (i : Instr) (s t : State), s.env.cut = none → s.run = true → exec i s = .next t → t.run = false → i ≠ .halt →
    (∃ c info, c ≠ .bus ∧ c.isRaised = true ∧ t = s.raiseFault c info) ∨
    (((∃ w fl, i = .wrreg w fl) ∨ ∃ w, i = .rdreg w) ∧ t.err = 0x01 ∧ t.errInfo = 0 ∧ t.cpValue = s.cpValue ∧ t.mem = s.mem ∧
      t.p = s.p ∧ t.acc = s.acc ∧ t.done = s.done ∧ t.first = s.first ∧ SameConfig s t ∧
      ∃ es e, t.trace = s.trace ++ es ++ [e] ∧ e.canFail = true)

/-- What taking a fault leaves for the host: the code and the value, `RUN = 0`, `CP` on the command, the interrupt line if enabled; no
other register, no event, no byte of memory. The return: one write of `CLRERR | GO` clears the fault and restarts at `CP`, restoring
nothing else; `GO` alone is refused and flagged (60_exceptions.md R290, R296; 10_state.md R28, R32). -/
def Obligations.FaultEntryAndReturn : Prop :=
  ∀ (s : State) (c : FaultCode) (info : Word),
    let t := s.raiseFault c info
    (t.err = c.code ∧ t.errInfo = info ∧ t.run = false ∧ t.cpValue = s.cpValue ∧ t.done = s.done ∧ t.first = s.first ∧
      t.p = s.p ∧ t.acc = s.acc ∧ SameConfig s t ∧ t.mem = s.mem ∧ t.trace = s.trace ∧
      (hostRead t 0x04).extractLsb' 8 8 = c.code ∧ (hostRead t 0x04).getLsbD 0 = false ∧ hostRead t 0x24 = info ∧
      (t.ieErr = true → t.irq = true)) ∧
    hostWrite t 0x00 0x05 = { s with err := 0, errInfo := 0, done := false, run := true } ∧
    hostWrite t 0x00 0x01 = { t with drop := true }

/-! ## The sequencer's commands -/

/-- `HALT` ends the list: `RUN <- 0`, `DONE <- 1`, `CP` on the `HALT`; nothing else changes, and the interrupt line rises if
`IE_DONE` is set (40_sequencer.md R141). -/
def Obligations.HaltEndsList : Prop :=
  ∀ s : State, ∃ t, exec .halt s = .next t ∧ t = { s with run := false, done := true } ∧
    t.cpValue = s.cpValue ∧ t.p = s.p ∧ t.acc = s.acc ∧ t.first = s.first ∧ t.err = s.err ∧ t.errInfo = s.errInfo ∧
    SameConfig s t ∧ SameBytes s t ∧ t.trace = s.trace ∧ (s.ieDone = true → t.irq = true) ∧
    (t.err = 0 → exec .halt (hostWrite t 0x00 0x01) = .next t)

/-- `SET` writes an immediate that fits to its register and nothing else; one that does not fit raises `E_ILLEGAL(W0)`
(40_sequencer.md R142, 10_state.md R23). That `exec` itself takes this fault, which no fetched command reaches, is the model's choice
(log 17). -/
def Obligations.SetWritesParameter : Prop :=
  ∀ (rd : PReg) (imm : Word) (s : State),
    (rd.fits imm = true → ∃ t, exec (.set rd imm) s = .next t ∧ t.param rd = imm ∧ (∀ r, r ≠ rd → t.param r = s.param r) ∧
      t.cpValue = s.cpValue + 8 ∧ SameConfig s t ∧ t.run = s.run ∧ t.done = s.done ∧ t.first = s.first ∧ t.err = s.err ∧
      t.errInfo = s.errInfo ∧ t.acc = s.acc ∧ SameBytes s t ∧ t.trace = s.trace) ∧
    (rd.fits imm = false → exec (.set rd imm) s = .next (s.raiseFault .illegal (encodeW0 (.set rd imm))))

/-- `DELAY` appends one event and changes nothing else (40_sequencer.md R143). That it completes without a premise on the transport
is the model's choice (log 11). -/
def Obligations.DelayEmitsOneEvent : Prop :=
  ∀ (ms : Word) (s : State), s.undisturbed = true →
    ∃ t, exec (.delay ms) s = .next t ∧ t = (s.logged [.delay ms]).advance ∧ t.trace = s.trace ++ [.delay ms] ∧ Advanced s t ∧
      SameRegisters s t ∧ SameBytes s t

/-! ## Damage -/

/-- Union is coordinate-wise, `EMPTY` is its identity, and it is associative, commutative and idempotent (43_damage_merge.md R162,
R168). -/
def Obligations.UnionIsBoundingBox : Prop :=
  (∀ r s : Rect, (r.union s).x1.toNat = min r.x1.toNat s.x1.toNat ∧ (r.union s).y1.toNat = min r.y1.toNat s.y1.toNat ∧
    (r.union s).x2.toNat = max r.x2.toNat s.x2.toNat ∧ (r.union s).y2.toNat = max r.y2.toNat s.y2.toNat) ∧
  (∀ r : Rect, Rect.empty.union r = r) ∧ (∀ r s : Rect, r.union s = s.union r) ∧ (∀ r : Rect, r.union r = r) ∧
  (∀ r s u : Rect, (r.union s).union u = r.union (s.union u))

/-- The clamp: its formula, that it is idempotent and distributes over the union, the corner pixel and the clamp of `EMPTY`
(43_damage_merge.md R163). -/
def Obligations.ClampKeepsInsideBuffer : Prop :=
  (∀ (r : Rect) (w h : Half),
    (r.clamp w h).x1.toNat = min r.x1.toNat (if 0 < w.toNat then w.toNat - 1 else 0) ∧
    (r.clamp w h).y1.toNat = min r.y1.toNat (if 0 < h.toNat then h.toNat - 1 else 0) ∧
    (r.clamp w h).x2.toNat = min r.x2.toNat w.toNat ∧ (r.clamp w h).y2.toNat = min r.y2.toNat h.toNat) ∧
  (∀ (r : Rect) (w h : Half), (r.clamp w h).clamp w h = r.clamp w h) ∧
  (∀ (r s : Rect) (w h : Half), (r.union s).clamp w h = (r.clamp w h).union (s.clamp w h)) ∧
  ({ x1 := 500, y1 := 500, x2 := 600, y2 := 600 } : Rect).clamp 240 320 = { x1 := 239, y1 := 319, x2 := 240, y2 := 320 } ∧
  (∀ w h : Half, w ≠ 0 → h ≠ 0 → Rect.empty.clamp w h = { x1 := w - 1, y1 := h - 1, x2 := 0, y2 := 0 })

/-- The merge step: the clamped union of the accumulator and the list, the whole buffer for an empty list or where `FIRST` or
`FORCEFULL` forces it; only the accumulator changes. A write to `DPUSH` is one merge step on the staged rectangle, or on no rectangle
where bit 0 is set, at any time, and stores nothing (43_damage_merge.md R164, R167). -/
def Obligations.MergeStepAccumulates : Prop :=
  (∀ (s : State) (rects : List Rect),
    (s.mergeCore rects).acc =
      (if rects = [] ∨ s.first = true ∨ s.forceFull = true then { x1 := 0, y1 := 0, x2 := s.p.fbw, y2 := s.p.fbh }
       else (rects.foldl Rect.union s.acc).clamp s.p.fbw s.p.fbh) ∧
    { s.mergeCore rects with acc := s.acc } = s) ∧
  (∀ (s : State) (v : Word),
    hostWrite s 0x38 v = (if v.getLsbD 0 then s.mergeCore [] else s.mergeCore [s.dp]) ∧ hostRead (hostWrite s 0x38 v) 0x38 = 0)

/-- From the empty accumulator, with neither `FIRST` nor `FORCEFULL`, the order and the grouping of the merges do not matter: the
accumulator is the clamped union of all rectangles; merging one again changes nothing, and merging the whole buffer gives the whole
buffer (43_damage_merge.md R168). -/
def Obligations.MergeOrderIsIrrelevant : Prop :=
  ∀ (s : State) (groups : List (List Rect)) (rects : List Rect), s.first = false → s.forceFull = false → s.acc = Rect.empty →
    groups ≠ [] → (∀ g ∈ groups, g ≠ []) → groups.flatten.Perm rects →
    (groups.foldl State.mergeCore s).acc = (rects.foldl Rect.union Rect.empty).clamp s.p.fbw s.p.fbh ∧
    (∀ r ∈ rects, ((groups.foldl State.mergeCore s).mergeCore [r]).acc = (groups.foldl State.mergeCore s).acc) ∧
    ((groups.foldl State.mergeCore s).mergeCore [{ x1 := 0, y1 := 0, x2 := s.p.fbw, y2 := s.p.fbh }]).acc =
      { x1 := 0, y1 := 0, x2 := s.p.fbw, y2 := s.p.fbh }

/-- `MERGE` and `MERGE.COPY` where no check fails: the list of `CNT` or `2*CNT` rectangles at `SRC` is merged, nothing else changes
(43_damage_merge.md R161, R165). -/
def Obligations.MergeUnitesList : Prop :=
  ∀ (copy : Bool) (s : State), s.undisturbed = true → (mergeChecks copy s).pass →
    ∃ t, exec (.merge copy) s = .next t ∧
      t = (s.mergeCore (s.rectsAt s.p.src.toNat (if copy then s.p.cnt.toNat * 2 else s.p.cnt.toNat))).advance ∧
      Advanced s t ∧ SameConfig s t ∧ t.p = s.p ∧ t.run = s.run ∧ t.done = s.done ∧ t.first = s.first ∧ t.err = s.err ∧
      t.errInfo = s.errInfo ∧ SameBytes s t ∧ t.trace = s.trace

/-- `TAKE` hands the accumulator to the clip verbatim, empties it and clears `FIRST`; the accumulator's registers then read as `EMPTY`
(43_damage_merge.md R166). -/
def Obligations.TakeHandsOverDamage : Prop :=
  ∀ s : State, ∃ t, exec .take s = .next t ∧
    t.p = { s.p with cx1 := s.acc.x1, cy1 := s.acc.y1, cx2 := s.acc.x2, cy2 := s.acc.y2 } ∧
    t.acc = { x1 := 0xFFFF, y1 := 0xFFFF, x2 := 0, y2 := 0 } ∧ t.first = false ∧
    hostRead t 0x28 = 0xFFFFFFFF ∧ hostRead t 0x2C = 0 ∧
    Advanced s t ∧ SameConfig s t ∧ t.run = s.run ∧ t.done = s.done ∧ t.err = s.err ∧ t.errInfo = s.errInfo ∧ SameBytes s t ∧
    t.trace = s.trace

/-- A `TAKE` of an empty accumulator leaves a clip that every conversion refuses with `E_CONFIG(0)`, where its format passes
(43_damage_merge.md R169; 42_pixel_conversion.md R182). -/
def Obligations.EmptyClipIsRefused : Prop :=
  ∀ s t : State, s.acc = Rect.empty → exec .take s = .next t →
    (t.p.fbfmt = 1 → ∀ i ∈ [Instr.cp565, .sw565, .r2gray false, .r2gray true], exec i t = .next (t.raiseFault .config 0)) ∧
    (t.p.fbfmt = 2 → exec .x2r565 t = .next (t.raiseFault .config 0)) ∧
    exec .dither t = .next (t.raiseFault .config 0) ∧ exec .pack1 t = .next (t.raiseFault .config 0)

/-! ## Conversions -/

/-- `CP565` where no check fails: byte by byte in row-major order, whatever the overlap; only the destination changes, and where the
destination is apart from the pixels read, every pixel's two bytes arrive unchanged (42_pixel_conversion.md R181, R184;
70_reset_and_hazards.md R331). -/
def Obligations.CopyPreservesPixels : Prop :=
  ∀ s : State, s.undisturbed = true → (conversionChecks 1 2 2 true false s).pass →
    ∃ t, exec .cp565 s = .next t ∧ t = (s.withMem (eachPixel s.p (copied s.p) s.mem)).advance ∧
      Advanced s t ∧ SameRegisters s t ∧ t.trace = s.trace ∧ SameBytesOutside s.p.dst.toNat (s.p.cw * s.p.ch * 2) s t ∧
      (s.p.apart 2 2 → ∀ i < s.p.cw, ∀ j < s.p.ch, ∀ k < 2,
        t.byteAt (s.p.clipDst 2 i j + k) = s.byteAt (s.p.clipSrc 2 i j + k))

/-- `SW565` where no check fails: both bytes of a pixel are read before either is written, in row-major order; only the destination
changes, and where it is apart from the pixels read, every pixel arrives with its bytes exchanged (42_pixel_conversion.md R181, R185;
70_reset_and_hazards.md R331). -/
def Obligations.SwapExchangesBytes : Prop :=
  ∀ s : State, s.undisturbed = true → (conversionChecks 1 2 2 true false s).pass →
    ∃ t, exec .sw565 s = .next t ∧ t = (s.withMem (eachPixel s.p (swapped s.p) s.mem)).advance ∧
      Advanced s t ∧ SameRegisters s t ∧ t.trace = s.trace ∧ SameBytesOutside s.p.dst.toNat (s.p.cw * s.p.ch * 2) s t ∧
      (s.p.apart 2 2 → ∀ i < s.p.cw, ∀ j < s.p.ch,
        t.byteAt (s.p.clipDst 2 i j) = s.byteAt (s.p.clipSrc 2 i j + 1) ∧
        t.byteAt (s.p.clipDst 2 i j + 1) = s.byteAt (s.p.clipSrc 2 i j))

/-- `X2R565` where no check fails: the top 5, 6 and 5 bits of the channels, in row-major order, stored in machine byte order; only the
destination changes, and where it is apart from the pixels read every pixel has its value (42_pixel_conversion.md R181, R186). -/
def Obligations.TruncationKeepsTopBits : Prop :=
  ∀ s : State, s.undisturbed = true → (conversionChecks 2 4 2 true false s).pass →
    ∃ t, exec .x2r565 s = .next t ∧ t = (s.withMem (eachPixel s.p (truncated s.plat.memBE s.p) s.mem)).advance ∧
      Advanced s t ∧ SameRegisters s t ∧ t.trace = s.trace ∧ SameBytesOutside s.p.dst.toNat (s.p.cw * s.p.ch * 2) s t ∧
      (s.p.apart 4 2 → ∀ i < s.p.cw, ∀ j < s.p.ch,
        let x := s.word (s.p.clipSrc 4 i j)
        t.half (s.p.clipDst 2 i j) = (x.extractLsb' 19 5 ++ x.extractLsb' 10 6 ++ x.extractLsb' 3 5 : BitVec 16))

/-- `R2GRAY` and `R2GRAY.GAMMA` where no check fails: the luma of every pixel, looked up in the table where asked, in row-major order,
the table read as it stands at that moment; only the destination changes, and where it is apart from the pixels and the table every
byte has its value (42_pixel_conversion.md R181, R187 to R189). -/
def Obligations.GrayIsLumaOfPixels : Prop :=
  ∀ (gamma : Bool) (s : State), s.undisturbed = true → (conversionChecks 1 2 1 false gamma s).pass →
    ∃ t, exec (.r2gray gamma) s = .next t ∧
      t = (s.withMem (eachPixel s.p (grayed s.plat.memBE gamma s.p) s.mem)).advance ∧
      Advanced s t ∧ SameRegisters s t ∧ t.trace = s.trace ∧ SameBytesOutside s.p.dst.toNat (s.p.cw * s.p.ch) s t ∧
      (s.p.apart 2 1 →
        (gamma = true → s.p.lutb.toNat + 256 ≤ s.p.dst.toNat ∨ s.p.dst.toNat + s.p.cw * s.p.ch ≤ s.p.lutb.toNat) →
        ∀ i < s.p.cw, ∀ j < s.p.ch,
          t.byteAt (s.p.clipDst 1 i j) = grayOf gamma s.p (s.half (s.p.clipSrc 2 i j)) s.mem)

/-- The luma never exceeds 249, is reached by white, rounds ties up, and is the rounded weighted sum (42_pixel_conversion.md R188). -/
def Obligations.LumaRoundsHalfUp : Prop :=
  (∀ x : Half, luma x = (299 * (x.extractLsb' 11 5).toNat + 587 * (x.extractLsb' 5 6).toNat +
      114 * (x.extractLsb' 0 5).toNat + 100) / 200 ∧ lumaSum x ≤ 49784 ∧ luma x ≤ 249) ∧
  lumaSum 0xFFFF = 49784 ∧ luma 0xFFFF = 249 ∧ lumaSum 0x0184 = 7500 ∧ luma 0x0184 = 38

/-- `MERGE` and the six conversions raise the first of their numbered checks that fails, in the order of their rules, and do nothing
else (43_damage_merge.md R165; 42_pixel_conversion.md R182, R190, R192, R193). In a framebuffer conversion whose earlier checks pass on
a clip that is not empty, a misaligned `SRC` is recorded, else a misaligned `DST`. Where both are misaligned and `DST` is the lower, R182
check 5 read with 00_scope.md R8 gives `SRC` and 20_memory.md R75 the lowest address; that R182 is followed there is the model's choice
(log 13). -/
def Obligations.OperandChecksFaultInOrder : Prop :=
  ∀ (s : State) (c : FaultCode) (info : Word),
    (∀ copy, (mergeChecks copy s).firstFault = some (c, info) → exec (.merge copy) s = .next (s.raiseFault c info)) ∧
    ((conversionChecks 1 2 2 true false s).firstFault = some (c, info) →
      exec .cp565 s = .next (s.raiseFault c info) ∧ exec .sw565 s = .next (s.raiseFault c info)) ∧
    ((conversionChecks 2 4 2 true false s).firstFault = some (c, info) → exec .x2r565 s = .next (s.raiseFault c info)) ∧
    (∀ gamma, (conversionChecks 1 2 1 false gamma s).firstFault = some (c, info) →
      exec (.r2gray gamma) s = .next (s.raiseFault c info)) ∧
    ((ditherChecks s).firstFault = some (c, info) → exec .dither s = .next (s.raiseFault c info)) ∧
    ((pack1Checks s).firstFault = some (c, info) → exec .pack1 s = .next (s.raiseFault c info)) ∧
    ∀ (format : BitVec 2) (sb db : Nat) (rgbTarget gamma : Bool), s.p.fbfmt = format →
      (s.p.cx1.toNat < s.p.cx2.toNat ∧ s.p.cx2.toNat ≤ s.p.fbw.toNat ∧ s.p.cy1.toNat < s.p.cy2.toNat ∧
        s.p.cy2.toNat ≤ s.p.fbh.toNat) →
      (rgbTarget = true → s.fullRow = true → s.p.cw = s.p.fbw.toNat) →
      (s.p.src.toNat % sb ≠ 0 → (conversionChecks format sb db rgbTarget gamma s).firstFault = some (.align, s.p.src)) ∧
      (s.p.src.toNat % sb = 0 → s.p.dst.toNat % db ≠ 0 →
        (conversionChecks format sb db rgbTarget gamma s).firstFault = some (.align, s.p.dst))

/-- `DITHER` where no check fails: the literal diffusion, column by column, in place; only the buffer changes, and every byte of it is
0x00 or 0xff afterwards (42_pixel_conversion.md R190, R191). -/
def Obligations.DitherLeavesTwoLevels : Prop :=
  ∀ s : State, s.undisturbed = true → (ditherChecks s).pass →
    ∃ t, exec .dither s = .next t ∧ t = (s.withMem (ditherAll s.p.dst.toNat s.p.cw s.p.ch s.mem)).advance ∧
      Advanced s t ∧ SameRegisters s t ∧ t.trace = s.trace ∧ SameBytesOutside s.p.dst.toNat (s.p.cw * s.p.ch) s t ∧
      ∀ k < s.p.cw * s.p.ch, t.byteAt (s.p.dst.toNat + k) = 0x00 ∨ t.byteAt (s.p.dst.toNat + k) = 0xFF

/-- On a buffer that holds only 0 and 255 already nothing is diffused and no byte changes; so an all-white or all-black buffer stays
all white or all black (42_pixel_conversion.md R190). -/
def Obligations.DitherKeepsFlatBuffers : Prop :=
  ∀ s : State, s.undisturbed = true → (ditherChecks s).pass →
    (∀ k < s.p.cw * s.p.ch, s.byteAt (s.p.dst.toNat + k) = 0x00 ∨ s.byteAt (s.p.dst.toNat + k) = 0xFF) →
    ∃ t, exec .dither s = .next t ∧ SameBytes s t

/-- `PACK1` where no check fails: eight bytes to one, the first byte's top bit in bit 7, each group read before it is written; only the
destination changes, and where it is apart from the source every packed byte has its value (42_pixel_conversion.md R192). -/
def Obligations.PackingTakesTopBits : Prop :=
  ∀ s : State, s.undisturbed = true → (pack1Checks s).pass →
    let n := s.p.cw * s.p.ch / 8
    ∃ t, exec .pack1 s = .next t ∧ t = (s.withMem (packAll s.p.src.toNat s.p.dst.toNat n s.mem)).advance ∧
      Advanced s t ∧ SameRegisters s t ∧ t.trace = s.trace ∧ SameBytesOutside s.p.dst.toNat n s t ∧
      ((s.p.src.toNat + s.p.cw * s.p.ch ≤ s.p.dst.toNat ∨ s.p.dst.toNat + n ≤ s.p.src.toNat) →
        ∀ k < n, ∀ b < 8,
          (t.byteAt (s.p.dst.toNat + k)).getLsbD (7 - b) = (s.byteAt (s.p.src.toNat + 8 * k + b)).getLsbD 7)

/-! ## Register transfer -/

/-- `split16` puts the high byte first for a big-endian device, `join16` is its inverse, and `units` are the bytes or the split words
(41_register_transfer.md R222). -/
def Obligations.SplitAndJoinInvert : Prop :=
  (∀ v : Half, split16 true v = [v.extractLsb' 8 8, v.extractLsb' 0 8] ∧ split16 false v = [v.extractLsb' 0 8, v.extractLsb' 8 8]) ∧
  (∀ b0 b1 : Byte, join16 true b0 b1 = b0 ++ b1 ∧ join16 false b0 b1 = b1 ++ b0) ∧
  (∀ (be : Bool) (v : Half), ∃ b0 b1, split16 be v = [b0, b1] ∧ join16 be b0 b1 = v) ∧
  (∀ (be : Bool) (b0 b1 : Byte), split16 be (join16 be b0 b1) = [b0, b1]) ∧
  (∀ (be : Bool) (ws : List Half), units be false ws = ws.map (fun v => v.setWidth 8) ∧ units be true ws = ws.flatMap (split16 be))

/-- The packed bytes of 9-over-8 are bit for bit the stream of the 9-bit words, most significant bit first, for every length that is a
multiple of 8; the worked example (41_register_transfer.md R228). -/
def Obligations.PackingIsNineBitStream : Prop :=
  (∀ ws : List (BitVec 9), ws.length % 8 = 0 →
    (pack9 ws).length * 8 = ws.length * 9 ∧
    (pack9 ws).flatMap (fun b => (List.range 8).map fun k => b.getLsbD (7 - k)) =
      ws.flatMap (fun g => (List.range 9).map fun k => g.getLsbD (8 - k))) ∧
  pack9 [0x100, 0x001, 0x102, 0x003, 0x104, 0x005, 0x106, 0x1A7] = [0x80, 0x00, 0x60, 0x40, 0x38, 0x20, 0x16, 0x0D, 0xA7]

/-- The chunks of a data phase tile the buffer in order: each holds at least a word and only whole words, and is exactly as large as
the rest of the buffer, `M` and, where the buffer does not start on a page, the room left in the page allow; a buffer that starts on a
page is split at `M` alone. The vectors VK1 to VK4 (41_register_transfer.md R232). -/
def Obligations.ChunksTileBuffer : Prop :=
  (∀ (page maxChunk buf nbytes wb : Nat), page % 2 = 0 → 2 ≤ page → (wb = 1 ∨ wb = 2) → nbytes % wb = 0 → buf % wb = 0 →
    0 < maxChunk - maxChunk % wb →
    let m := maxChunk - maxChunk % wb
    let cs := chunks page m buf nbytes
    (cs.map Prod.snd).sum = nbytes ∧
    (∀ k < cs.length,
      let sent := ((cs.take k).map Prod.snd).sum
      cs[k]? = some (buf + sent, min (nbytes - sent) (if buf % page = 0 then m else min m (page - (buf + sent) % page)))) ∧
    (∀ c ∈ cs, 0 < c.2 ∧ c.2 % wb = 0 ∧ c.2 ≤ m ∧ (buf % page ≠ 0 → c.1 % page + c.2 ≤ page))) ∧
  chunks 4096 512 0x1F00 1000 = [(0x1F00, 256), (0x2000, 512), (0x2200, 232)] ∧
  chunks 4096 65536 0x100000 153600 = [(0x100000, 65536), (0x110000, 65536), (0x120000, 22528)] ∧
  chunks 4096 4096 0x1FFE 8 = [(0x1FFE, 2), (0x2000, 6)] ∧
  chunks 4096 4 0x2000 12 = [(0x2000, 4), (0x2004, 4), (0x2008, 4)]

/-- `WRREG` where no check fails and the transport answers: it emits exactly the events of its index and data phases, mode by mode;
no register but `CP` and no byte of memory changes (41_register_transfer.md R220 to R233). -/
def Obligations.WriteTransferEmitsEvents : Prop :=
  ∀ (w16 fl : Bool) (s : State), s.undisturbed = true → (wrregChecks w16 fl s).pass →
    s.nextOk (askCount (s.wrregEvents w16)) →
    ∃ t, exec (.wrreg w16 fl) s = .next t ∧ t = (s.emitted (s.wrregEvents w16)).advance ∧
      t.trace = s.trace ++ s.wrregEvents w16 ∧ Advanced s t ∧ SameRegisters s t ∧ SameBytes s t

/-- `WRREG` and `RDREG` raise the first of their nine checks that fails, before any event, and do nothing else
(41_register_transfer.md R233, R234). -/
def Obligations.TransferChecksFaultInOrder : Prop :=
  ∀ (s : State) (c : FaultCode) (info : Word),
    (∀ w16 fl, (wrregChecks w16 fl s).firstFault = some (c, info) → exec (.wrreg w16 fl) s = .next (s.raiseFault c info)) ∧
    (∀ w16, (rdregChecks w16 s).firstFault = some (c, info) → exec (.rdreg w16) s = .next (s.raiseFault c info))

/-- A flush while the pipe is not prepared fails with `E_STATE(0)` before any event, whatever else is wrong; no other command looks at
`PREPARED` (60_exceptions.md R282). -/
def Obligations.FlushNeedsPrepared : Prop :=
  (∀ (w16 : Bool) (s : State), s.prepared = false → exec (.wrreg w16 true) s = .next (s.raiseFault .state 0)) ∧
  (∀ (i : Instr) (s t : State), s.env.cut = none → (∀ w, i ≠ .wrreg w true) → exec i s = .next t →
    exec i { s with pipe := s.pipe ^^^ 1 } = .next { t with pipe := t.pipe ^^^ 1 })

/-- `RDREG` where no check fails and the transport answers: it emits exactly its events and then stores the words the transport
supplied at `DST`; no register but `CP` and no other byte of memory changes (41_register_transfer.md R234). -/
def Obligations.ReadTransferStoresAnswers : Prop :=
  ∀ (w16 : Bool) (s : State), s.undisturbed = true → (rdregChecks w16 s).pass →
    s.nextOk (askCount (s.rdregEvents w16)) →
    ∃ t, exec (.rdreg w16) s = .next t ∧
      t = ((s.emitted (s.rdregEvents w16)).withMem (memStores s.mem s.p.dst.toNat (s.readBytes w16))).advance ∧
      t.trace = s.trace ++ s.rdregEvents w16 ∧ Advanced s t ∧ SameRegisters s t ∧
      (s.readBytes w16).length = s.p.cnt.toNat * wordBytes w16 ∧
      SameBytesOutside s.p.dst.toNat (s.p.cnt.toNat * wordBytes w16) s t ∧
      ∀ k < s.p.cnt.toNat * wordBytes w16, some (t.byteAt (s.p.dst.toNat + k)) = (s.readBytes w16)[k]?

/-- At the first event the transport answers with `fail` a transfer stops with `E_BUS(0)`: the events up to it are in the trace, none
after it, and no byte of memory has been written. At one it does not answer at all, the block stays inside the step: there is no next
state (41_register_transfer.md R236, 60_exceptions.md R281, 70_reset_and_hazards.md R334). -/
def Obligations.FailedEventsStopTransfer : Prop :=
  ∀ (s : State) (pre post : List Event) (e : Event), s.undisturbed = true → s.nextOk (askCount pre) →
    (e.canFail = true → s.env.answer (s.env.asked + askCount pre) = .fail →
      (∀ w16 fl, (wrregChecks w16 fl s).pass → s.wrregEvents w16 = pre ++ e :: post →
        exec (.wrreg w16 fl) s = .next ((s.emitted (pre ++ [e])).raiseFault .bus 0)) ∧
      (∀ w16, (rdregChecks w16 s).pass → s.rdregEvents w16 = pre ++ e :: post →
        exec (.rdreg w16) s = .next ((s.emitted (pre ++ [e])).raiseFault .bus 0))) ∧
    (e.asks = true → s.env.answer (s.env.asked + askCount pre) = .silent →
      (∀ w16 fl, (wrregChecks w16 fl s).pass → s.wrregEvents w16 = pre ++ e :: post →
        exec (.wrreg w16 fl) s = .fault .transportSilent) ∧
      (∀ w16, (rdregChecks w16 s).pass → s.rdregEvents w16 = pre ++ e :: post →
        exec (.rdreg w16) s = .fault .transportSilent))

/-- `BRESET` emits the four events of the pulse where a reset line is wired and none where it is not; no register but `CP` changes
(41_register_transfer.md R235). That it completes without a premise on the transport is the model's choice (log 11). -/
def Obligations.ResetPulseEmitsFourEvents : Prop :=
  ∀ s : State, s.undisturbed = true →
    ∃ t, exec .breset s = .next t ∧
      t.trace = s.trace ++ (if s.busCfg.getLsbD 8 then
        [.gpioReset false, .delay ((s.rstCfg.extractLsb' 0 16).setWidth 32), .gpioReset true,
          .delay ((s.rstCfg.extractLsb' 16 16).setWidth 32)] else []) ∧
      t.env = s.env ∧ Advanced s t ∧ SameRegisters s t ∧ SameBytes s t

/-- The two ways of sending RGB565 to a big-endian device over bytes put the same bytes on the wire: the words split high byte first,
or the byte-swapped buffer sent as bytes, for little-endian memory (41_register_transfer.md R237). -/
def Obligations.ByteOrderPairingsAgree : Prop :=
  ∀ (s t : State) (a d n : Nat) (dev : Bool), s.plat.memBE = false →
    (∀ k < n, t.byteAt (d + 2 * k) = s.byteAt (a + 2 * k + 1) ∧ t.byteAt (d + 2 * k + 1) = s.byteAt (a + 2 * k)) →
    units true true (s.buffer true a n) = units dev false (t.buffer false d (2 * n))

/-! ## The host's side -/

/-- A write to `CTRL`: `SRST` alone, or the strobes in their order with the acceptance of `GO` and `CLRERR` and the mark of a refused
one; `CTRL` reads 0 (10_state.md R32). -/
def Obligations.ControlStrobesInOrder : Prop :=
  ∀ (s : State) (v : Word), hostRead s 0x00 = 0 ∧
    (v.getLsbD 1 = true → hostWrite s 0x00 v = s.resetInput) ∧
    (v.getLsbD 1 = false →
      let err' : Byte := if v.getLsbD 2 && !s.run then 0 else s.err
      let go := v.getLsbD 0 && !s.run && err' == 0
      hostWrite s 0x00 v = { s with
        err := err'
        errInfo := if v.getLsbD 2 && !s.run then 0 else s.errInfo
        done := s.done && !v.getLsbD 3 && !go
        run := s.run || go
        first := s.first || v.getLsbD 5
        drop := (s.drop && !v.getLsbD 4) || (v.getLsbD 2 && s.run) || (v.getLsbD 0 && !go) }) ∧
    hostWrite s 0x00 v = hostWrite s 0x00 (v &&& 0x3F)

/-- `STATUS` bit by bit (10_state.md R33). -/
def Obligations.StatusShowsFlags : Prop :=
  ∀ s : State,
    let v := hostRead s 0x04
    v.getLsbD 0 = s.run ∧ v.getLsbD 1 = s.done ∧ v.getLsbD 2 = s.first ∧ v.getLsbD 3 = s.drop ∧ v.extractLsb' 4 4 = 0 ∧
    v.extractLsb' 8 8 = s.err ∧ v.extractLsb' 16 16 = 0

/-- The interrupt line is this function of `DONE`, `ERR` and the enables, and the host lowers it by clearing the condition or the
enable (60_exceptions.md R293, R294). -/
def Obligations.InterruptLineFollowsState : Prop :=
  ∀ s : State, (s.irq = true ↔ (s.done = true ∧ s.irqEn.getLsbD 0 = true) ∨ (s.err ≠ 0 ∧ s.irqEn.getLsbD 1 = true)) ∧
    (hostWrite s 0x0C 0).irq = false ∧ (s.err = 0 → (hostWrite s 0x00 0x08).irq = false) ∧
    (s.run = false → s.done = false → (hostWrite s 0x00 0x04).irq = false) ∧
    (s.run = false → s.err = 0 → (hostWrite s 0x00 0x01).irq = false)

/-- The register window: a read gives the register zero-extended; a write while idle of a value that fits stores it; any other write
is dropped and flagged (10_state.md R42). -/
def Obligations.WindowReachesParameters : Prop :=
  ∀ (s : State) (rd : PReg) (v : Word),
    hostRead s (0x40 + 4 * rd.num.toNat) = s.param rd ∧
    (s.run = false → v.toNat < 2 ^ rd.width → ∃ t, t = hostWrite s (0x40 + 4 * rd.num.toNat) v ∧ t.param rd = v ∧
      (∀ r, r ≠ rd → t.param r = s.param r) ∧ { t with p := s.p } = s) ∧
    (s.run = true ∨ 2 ^ rd.width ≤ v.toNat → hostWrite s (0x40 + 4 * rd.num.toNat) v = { s with drop := true })

/-- Host writes while a run is on: configuration, `CP` and the window are dropped and flagged; `IRQEN`, the damage port and the strobes
`SRST`, `CLRDONE`, `CLRDROP`, `SETFIRST` are accepted. During a run and out of one, every write takes effect in a turn of its own, and
that turn does nothing but the write (10_state.md R32, R34, R41 to R43). -/
def Obligations.RunFreezesConfiguration : Prop :=
  (∀ (s : State) (v : Word), s.run = true →
    (∀ off ∈ [0x08, 0x10, 0x14, 0x18, 0x1C, 0x20], hostWrite s off v = { s with drop := true }) ∧
    (∀ rd : PReg, hostWrite s (0x40 + 4 * rd.num.toNat) v = { s with drop := true }) ∧
    hostWrite s 0x00 0x01 = { s with drop := true } ∧ hostWrite s 0x00 0x04 = { s with drop := true } ∧
    hostWrite s 0x00 0x02 = s.resetInput ∧ hostWrite s 0x00 0x08 = { s with done := false } ∧
    hostWrite s 0x00 0x10 = { s with drop := false } ∧ hostWrite s 0x00 0x20 = { s with first := true } ∧
    hostWrite s 0x0C v = { s with irqEn := v &&& 0x3 } ∧
    hostWrite s 0x30 v = { s with dp := { s.dp with x1 := v.extractLsb' 0 16, y1 := v.extractLsb' 16 16 } } ∧
    hostWrite s 0x34 v = { s with dp := { s.dp with x2 := v.extractLsb' 0 16, y2 := v.extractLsb' 16 16 } } ∧
    (hostWrite s 0x38 v).drop = s.drop) ∧
  ∀ (s : State) (off : Nat) (v : Word) (ts : List Turn), accessShaped off 4 = true → s.env.turns = .regWrite off 4 v :: ts →
    step s = .next (hostWrite (s.withTurns ts) off v)

/-- What is written to a configuration register while idle is read back, but for its reserved bits, which read 0; no other register,
no byte of memory, no event and nothing else of the state changes (10_state.md R24, R31, R34 to R38, R41). -/
def Obligations.ConfigurationReadsBack : Prop :=
  ∀ (s : State) (v : Word), s.run = false →
    (∀ x ∈ [((0x08 : Nat), (0xFFFFFFF8 : Word)), (0x0C, 0x3), (0x10, 0x7FF), (0x14, 0xFFFF7FFF), (0x18, 0xFFFFFFFF),
        (0x1C, 0xFFFFFFFF), (0x20, 0x7), (0x30, 0xFFFFFFFF), (0x34, 0xFFFFFFFF)],
      hostRead (hostWrite s x.1 v) x.1 = v &&& x.2 ∧ ∀ off, off ≠ x.1 → hostRead (hostWrite s x.1 v) off = hostRead s off) ∧
    { hostWrite s 0x08 v with cp := s.cp } = s ∧ { hostWrite s 0x0C v with irqEn := s.irqEn } = s ∧
    { hostWrite s 0x10 v with busCfg := s.busCfg } = s ∧ { hostWrite s 0x14 v with busCfg2 := s.busCfg2 } = s ∧
    { hostWrite s 0x18 v with maxChunk := s.maxChunk } = s ∧ { hostWrite s 0x1C v with rstCfg := s.rstCfg } = s ∧
    { hostWrite s 0x20 v with pipe := s.pipe } = s ∧ { hostWrite s 0x30 v with dp := s.dp } = s ∧
    { hostWrite s 0x34 v with dp := s.dp } = s

/-- Reserved offsets read 0; a write to one, or to a read-only register, only sets `DROP`; a read changes nothing of the block; an
access of another width or alignment is refused (10_state.md R31). The model's choices: that an offset of 256 or more is refused in the
same way (log 15), and the list in which the read value is recorded (log 16). -/
def Obligations.ReservedOffsetsAndReads : Prop :=
  (∀ (s : State) (off : Nat), (off = 0x3C ∨ (0x70 ≤ off ∧ off < 0x100)) → hostRead s off = 0) ∧
  (∀ s : State, hostRead s 0x00 = 0 ∧ hostRead s 0x38 = 0) ∧
  (∀ (s : State) (off : Nat) (v : Word), (off ∈ [0x04, 0x24, 0x28, 0x2C, 0x3C] ∨ (0x70 ≤ off ∧ off < 0x100)) →
    hostWrite s off v = { s with drop := true }) ∧
  (∀ (s : State) (off : Nat) (ts : List Turn), accessShaped off 4 = true → s.env.turns = .regRead off 4 :: ts →
    ∃ t, step s = .next t ∧ { t with env := s.env } = s ∧ t.env.hostSaw = s.env.hostSaw ++ [(off, hostRead s off)]) ∧
  (∀ (s : State) (off size : Nat) (v : Word) (ts : List Turn), accessShaped off size = false →
    (s.env.turns = .regWrite off size v :: ts ∨ s.env.turns = .regRead off size :: ts) →
    step s = .refused (.hostAccessShape off size))

/-! ## Reset -/

/-- The machine after reset, and the reset input between two steps: every register of the table at its reset value, `RESET_MARK`
appended, memory and platform untouched; the soft reset strobe does the same (10_state.md R46, 70_reset_and_hazards.md R320 to
R322). -/
def Obligations.ResetRestoresTableValues : Prop :=
  ResetValues State.reset ∧
  ∀ s : State,
    (ResetValues s.resetInput ∧ s.resetInput.trace = s.trace ++ [.resetMark] ∧ s.resetInput.mem = s.mem ∧
      s.resetInput.plat = s.plat) ∧
    (∀ v : Word, v.getLsbD 1 = true → hostWrite s 0x00 v = s.resetInput) ∧
    (∀ ts, s.env.turns = .reset :: ts → step s = .next (s.withTurns ts).resetInput)

/-- The reset input inside a command, after any number `k` of its effects: the step ends in the reset values with no fault recorded and
without waiting for the transport. The memory writes and events performed are the first `k` of one sequence of atomic writes and
events that depends on the state alone; the whole of it is what the step does where no reset arrives. Where the transport is silent it
is what comes before the hang, with no byte of memory written. In every case the events are the beginning of the command's
(70_reset_and_hazards.md R320). That a reset falls between two effects and never cuts a write or an event in half is the model's choice
(log 5, log 24). -/
def Obligations.ResetAbandonsCommand : Prop :=
  ∀ (s : State) (ts : List Turn), s.undisturbed = true → ∃ effs : List Effect, (∀ e ∈ effs, e.atomic = true) ∧
    (∀ k, ∃ t, step (s.withTurns (.sequencer [] (some k) :: ts)) = .next t ∧ ResetValues t ∧ t.plat = s.plat ∧
      t.mem = memAfter s.mem (effs.take k) ∧ t.trace = s.trace ++ eventsOf (effs.take k) ++ [.resetMark]) ∧
    (∀ u, step (s.withTurns (.sequencer [] none :: ts)) = .next u →
      u.mem = memAfter s.mem effs ∧ u.trace = s.trace ++ eventsOf effs) ∧
    (∀ r, step (s.withTurns (.sequencer [] none :: ts)) = .fault r → memAfter s.mem effs = s.mem) ∧
    (∀ i, s.run = true → accessible s.plat s.cpValue.toNat 8 .rd = true →
      decode (s.word (s.cpValue.toNat + 4) ++ s.word s.cpValue.toNat : BitVec 64) = .ok i →
      eventsOf effs <+: s.commandEvents i)

/-! ## Memory -/

/-- A 16-bit or 32-bit value written and read back is the value in either byte order; each of its bytes is where the byte order puts it,
and every other byte reads as before (20_memory.md R72, R73). -/
def Obligations.WordsReadBackAsWritten : Prop :=
  ∀ (be : Bool) (m : Memory) (a : Nat) (v : Half) (w : Word),
    (a + 2 ≤ memLimit → memHalf be (memStores m a (bytes2 be v)) a = v ∧
      ∀ k < 2, memByte (memStores m a (bytes2 be v)) (a + k) = v.extractLsb' (8 * (if be then 1 - k else k)) 8) ∧
    (a + 4 ≤ memLimit → memWord be (memStores m a (bytes4 be w)) a = w ∧
      ∀ k < 4, memByte (memStores m a (bytes4 be w)) (a + k) = w.extractLsb' (8 * (if be then 3 - k else k)) 8) ∧
    (∀ b, (b < a ∨ a + 2 ≤ b) → memByte (memStores m a (bytes2 be v)) b = memByte m b) ∧
    (∀ b, (b < a ∨ a + 4 ≤ b) → memByte (memStores m a (bytes4 be w)) b = memByte m b)

/-- A host store in a turn of its own changes memory and nothing else. One that falls inside a command gives each atomic read the bytes
before or the bytes after it and nothing else, and against a write of the command each byte ends as one order of the two writers leaves
it, once the store has landed; that an access sees a store of any number of bytes wholly before or wholly after it is the model's choice
(log 4, log 27). By the end of the turn all its stores have landed: outside what the command may write, and everywhere while no run is
on, memory is what the stores in their order make of it (20_memory.md R83, R88). -/
def Obligations.RacingStoreIsOldOrNew : Prop :=
  (∀ (s : State) (w : HostStore) (a n : Nat),
    (∀ ts, s.env.turns = .store w :: ts → step s = .next ((s.withTurns ts).withMem (memStoreAll s.mem w))) ∧
    (s.env.inFlight = [w] →
      (∃ bs t, readAccess a n s = .ok bs t ∧ t.mem = s.mem ∧
        (bs = memBytes s.mem a n ∨ bs = memBytes (memStoreAll s.mem w) a n)) ∧
      (∀ vs : List Byte, s.env.cut = none → a + vs.length ≤ memLimit → ∃ t, writeAccess a vs s = .ok () t ∧
        ∀ b, memByte t.land.mem b = memByte (memStoreAll (memStores s.mem a vs) w) b ∨
          memByte t.land.mem b = memByte (memStores (memStoreAll s.mem w) a vs) b))) ∧
  ∀ (s t : State) (ws : List HostStore) (ts : List Turn), s.undisturbed = true → s.env.turns = .sequencer ws none :: ts →
    step s = .next t →
    t.undisturbed = true ∧ (s.run = false → t.mem = ws.foldl memStoreAll s.mem) ∧
    ∀ b, (b < s.p.dst.toNat ∨ (s.p.dst.toNat + 2 * (s.p.cw * s.p.ch) ≤ b ∧ s.p.dst.toNat + 2 * s.p.cnt.toNat ≤ b)) →
      t.byteAt b = memByte (ws.foldl memStoreAll s.mem) b
end

