-- ==== Sys2Proof/Laws/State.lean ====
section
/-! SUPPORT. What each update of the state does to each field, one lemma per field per update. -/

namespace Sys2Proof.Machine

variable (s : State)

/-! ### `State.withMem` -/

@[simp] theorem State.withMem_p (m : Memory) : (s.withMem m).p = s.p := rfl
@[simp] theorem State.withMem_cp (m : Memory) : (s.withMem m).cp = s.cp := rfl
@[simp] theorem State.withMem_run (m : Memory) : (s.withMem m).run = s.run := rfl
@[simp] theorem State.withMem_done (m : Memory) : (s.withMem m).done = s.done := rfl
@[simp] theorem State.withMem_drop (m : Memory) : (s.withMem m).drop = s.drop := rfl
@[simp] theorem State.withMem_first (m : Memory) : (s.withMem m).first = s.first := rfl
@[simp] theorem State.withMem_err (m : Memory) : (s.withMem m).err = s.err := rfl
@[simp] theorem State.withMem_errInfo (m : Memory) : (s.withMem m).errInfo = s.errInfo := rfl
@[simp] theorem State.withMem_irqEn (m : Memory) : (s.withMem m).irqEn = s.irqEn := rfl
@[simp] theorem State.withMem_busCfg (m : Memory) : (s.withMem m).busCfg = s.busCfg := rfl
@[simp] theorem State.withMem_busCfg2 (m : Memory) : (s.withMem m).busCfg2 = s.busCfg2 := rfl
@[simp] theorem State.withMem_maxChunk (m : Memory) : (s.withMem m).maxChunk = s.maxChunk := rfl
@[simp] theorem State.withMem_rstCfg (m : Memory) : (s.withMem m).rstCfg = s.rstCfg := rfl
@[simp] theorem State.withMem_pipe (m : Memory) : (s.withMem m).pipe = s.pipe := rfl
@[simp] theorem State.withMem_acc (m : Memory) : (s.withMem m).acc = s.acc := rfl
@[simp] theorem State.withMem_dp (m : Memory) : (s.withMem m).dp = s.dp := rfl
@[simp] theorem State.withMem_trace (m : Memory) : (s.withMem m).trace = s.trace := rfl
@[simp] theorem State.withMem_mem (m : Memory) : (s.withMem m).mem = m := rfl
@[simp] theorem State.withMem_plat (m : Memory) : (s.withMem m).plat = s.plat := rfl
@[simp] theorem State.withMem_env (m : Memory) : (s.withMem m).env = s.env := rfl

/-! ### `State.withEnv` -/

@[simp] theorem State.withEnv_p (e : Env) : (s.withEnv e).p = s.p := rfl
@[simp] theorem State.withEnv_cp (e : Env) : (s.withEnv e).cp = s.cp := rfl
@[simp] theorem State.withEnv_run (e : Env) : (s.withEnv e).run = s.run := rfl
@[simp] theorem State.withEnv_done (e : Env) : (s.withEnv e).done = s.done := rfl
@[simp] theorem State.withEnv_drop (e : Env) : (s.withEnv e).drop = s.drop := rfl
@[simp] theorem State.withEnv_first (e : Env) : (s.withEnv e).first = s.first := rfl
@[simp] theorem State.withEnv_err (e : Env) : (s.withEnv e).err = s.err := rfl
@[simp] theorem State.withEnv_errInfo (e : Env) : (s.withEnv e).errInfo = s.errInfo := rfl
@[simp] theorem State.withEnv_irqEn (e : Env) : (s.withEnv e).irqEn = s.irqEn := rfl
@[simp] theorem State.withEnv_busCfg (e : Env) : (s.withEnv e).busCfg = s.busCfg := rfl
@[simp] theorem State.withEnv_busCfg2 (e : Env) : (s.withEnv e).busCfg2 = s.busCfg2 := rfl
@[simp] theorem State.withEnv_maxChunk (e : Env) : (s.withEnv e).maxChunk = s.maxChunk := rfl
@[simp] theorem State.withEnv_rstCfg (e : Env) : (s.withEnv e).rstCfg = s.rstCfg := rfl
@[simp] theorem State.withEnv_pipe (e : Env) : (s.withEnv e).pipe = s.pipe := rfl
@[simp] theorem State.withEnv_acc (e : Env) : (s.withEnv e).acc = s.acc := rfl
@[simp] theorem State.withEnv_dp (e : Env) : (s.withEnv e).dp = s.dp := rfl
@[simp] theorem State.withEnv_trace (e : Env) : (s.withEnv e).trace = s.trace := rfl
@[simp] theorem State.withEnv_mem (e : Env) : (s.withEnv e).mem = s.mem := rfl
@[simp] theorem State.withEnv_plat (e : Env) : (s.withEnv e).plat = s.plat := rfl
@[simp] theorem State.withEnv_env (e : Env) : (s.withEnv e).env = e := rfl

/-! ### `State.logged` -/

@[simp] theorem State.logged_p (es : List Event) : (s.logged es).p = s.p := rfl
@[simp] theorem State.logged_cp (es : List Event) : (s.logged es).cp = s.cp := rfl
@[simp] theorem State.logged_run (es : List Event) : (s.logged es).run = s.run := rfl
@[simp] theorem State.logged_done (es : List Event) : (s.logged es).done = s.done := rfl
@[simp] theorem State.logged_drop (es : List Event) : (s.logged es).drop = s.drop := rfl
@[simp] theorem State.logged_first (es : List Event) : (s.logged es).first = s.first := rfl
@[simp] theorem State.logged_err (es : List Event) : (s.logged es).err = s.err := rfl
@[simp] theorem State.logged_errInfo (es : List Event) : (s.logged es).errInfo = s.errInfo := rfl
@[simp] theorem State.logged_irqEn (es : List Event) : (s.logged es).irqEn = s.irqEn := rfl
@[simp] theorem State.logged_busCfg (es : List Event) : (s.logged es).busCfg = s.busCfg := rfl
@[simp] theorem State.logged_busCfg2 (es : List Event) : (s.logged es).busCfg2 = s.busCfg2 := rfl
@[simp] theorem State.logged_maxChunk (es : List Event) : (s.logged es).maxChunk = s.maxChunk := rfl
@[simp] theorem State.logged_rstCfg (es : List Event) : (s.logged es).rstCfg = s.rstCfg := rfl
@[simp] theorem State.logged_pipe (es : List Event) : (s.logged es).pipe = s.pipe := rfl
@[simp] theorem State.logged_acc (es : List Event) : (s.logged es).acc = s.acc := rfl
@[simp] theorem State.logged_dp (es : List Event) : (s.logged es).dp = s.dp := rfl
@[simp] theorem State.logged_trace (es : List Event) : (s.logged es).trace = s.trace ++ es := rfl
@[simp] theorem State.logged_mem (es : List Event) : (s.logged es).mem = s.mem := rfl
@[simp] theorem State.logged_plat (es : List Event) : (s.logged es).plat = s.plat := rfl
@[simp] theorem State.logged_env (es : List Event) : (s.logged es).env = s.env := rfl

/-! ### `State.setParam` -/

@[simp] theorem State.setParam_p (rd : PReg) (v : Word) : (s.setParam rd v).p = s.p.put v rd := rfl
@[simp] theorem State.setParam_cp (rd : PReg) (v : Word) : (s.setParam rd v).cp = s.cp := rfl
@[simp] theorem State.setParam_run (rd : PReg) (v : Word) : (s.setParam rd v).run = s.run := rfl
@[simp] theorem State.setParam_done (rd : PReg) (v : Word) : (s.setParam rd v).done = s.done := rfl
@[simp] theorem State.setParam_drop (rd : PReg) (v : Word) : (s.setParam rd v).drop = s.drop := rfl
@[simp] theorem State.setParam_first (rd : PReg) (v : Word) : (s.setParam rd v).first = s.first := rfl
@[simp] theorem State.setParam_err (rd : PReg) (v : Word) : (s.setParam rd v).err = s.err := rfl
@[simp] theorem State.setParam_errInfo (rd : PReg) (v : Word) : (s.setParam rd v).errInfo = s.errInfo := rfl
@[simp] theorem State.setParam_irqEn (rd : PReg) (v : Word) : (s.setParam rd v).irqEn = s.irqEn := rfl
@[simp] theorem State.setParam_busCfg (rd : PReg) (v : Word) : (s.setParam rd v).busCfg = s.busCfg := rfl
@[simp] theorem State.setParam_busCfg2 (rd : PReg) (v : Word) : (s.setParam rd v).busCfg2 = s.busCfg2 := rfl
@[simp] theorem State.setParam_maxChunk (rd : PReg) (v : Word) : (s.setParam rd v).maxChunk = s.maxChunk := rfl
@[simp] theorem State.setParam_rstCfg (rd : PReg) (v : Word) : (s.setParam rd v).rstCfg = s.rstCfg := rfl
@[simp] theorem State.setParam_pipe (rd : PReg) (v : Word) : (s.setParam rd v).pipe = s.pipe := rfl
@[simp] theorem State.setParam_acc (rd : PReg) (v : Word) : (s.setParam rd v).acc = s.acc := rfl
@[simp] theorem State.setParam_dp (rd : PReg) (v : Word) : (s.setParam rd v).dp = s.dp := rfl
@[simp] theorem State.setParam_trace (rd : PReg) (v : Word) : (s.setParam rd v).trace = s.trace := rfl
@[simp] theorem State.setParam_mem (rd : PReg) (v : Word) : (s.setParam rd v).mem = s.mem := rfl
@[simp] theorem State.setParam_plat (rd : PReg) (v : Word) : (s.setParam rd v).plat = s.plat := rfl
@[simp] theorem State.setParam_env (rd : PReg) (v : Word) : (s.setParam rd v).env = s.env := rfl

/-! ### `State.setCP` -/

@[simp] theorem State.setCP_p (v : Word) : (s.setCP v).p = s.p := rfl
@[simp] theorem State.setCP_cp (v : Word) : (s.setCP v).cp = alignCP v := rfl
@[simp] theorem State.setCP_run (v : Word) : (s.setCP v).run = s.run := rfl
@[simp] theorem State.setCP_done (v : Word) : (s.setCP v).done = s.done := rfl
@[simp] theorem State.setCP_drop (v : Word) : (s.setCP v).drop = s.drop := rfl
@[simp] theorem State.setCP_first (v : Word) : (s.setCP v).first = s.first := rfl
@[simp] theorem State.setCP_err (v : Word) : (s.setCP v).err = s.err := rfl
@[simp] theorem State.setCP_errInfo (v : Word) : (s.setCP v).errInfo = s.errInfo := rfl
@[simp] theorem State.setCP_irqEn (v : Word) : (s.setCP v).irqEn = s.irqEn := rfl
@[simp] theorem State.setCP_busCfg (v : Word) : (s.setCP v).busCfg = s.busCfg := rfl
@[simp] theorem State.setCP_busCfg2 (v : Word) : (s.setCP v).busCfg2 = s.busCfg2 := rfl
@[simp] theorem State.setCP_maxChunk (v : Word) : (s.setCP v).maxChunk = s.maxChunk := rfl
@[simp] theorem State.setCP_rstCfg (v : Word) : (s.setCP v).rstCfg = s.rstCfg := rfl
@[simp] theorem State.setCP_pipe (v : Word) : (s.setCP v).pipe = s.pipe := rfl
@[simp] theorem State.setCP_acc (v : Word) : (s.setCP v).acc = s.acc := rfl
@[simp] theorem State.setCP_dp (v : Word) : (s.setCP v).dp = s.dp := rfl
@[simp] theorem State.setCP_trace (v : Word) : (s.setCP v).trace = s.trace := rfl
@[simp] theorem State.setCP_mem (v : Word) : (s.setCP v).mem = s.mem := rfl
@[simp] theorem State.setCP_plat (v : Word) : (s.setCP v).plat = s.plat := rfl
@[simp] theorem State.setCP_env (v : Word) : (s.setCP v).env = s.env := rfl

/-! ### `State.advance` -/

@[simp] theorem State.advance_p : s.advance.p = s.p := rfl
@[simp] theorem State.advance_cp : s.advance.cp = alignCP (s.cpValue + 8) := rfl
@[simp] theorem State.advance_run : s.advance.run = s.run := rfl
@[simp] theorem State.advance_done : s.advance.done = s.done := rfl
@[simp] theorem State.advance_drop : s.advance.drop = s.drop := rfl
@[simp] theorem State.advance_first : s.advance.first = s.first := rfl
@[simp] theorem State.advance_err : s.advance.err = s.err := rfl
@[simp] theorem State.advance_errInfo : s.advance.errInfo = s.errInfo := rfl
@[simp] theorem State.advance_irqEn : s.advance.irqEn = s.irqEn := rfl
@[simp] theorem State.advance_busCfg : s.advance.busCfg = s.busCfg := rfl
@[simp] theorem State.advance_busCfg2 : s.advance.busCfg2 = s.busCfg2 := rfl
@[simp] theorem State.advance_maxChunk : s.advance.maxChunk = s.maxChunk := rfl
@[simp] theorem State.advance_rstCfg : s.advance.rstCfg = s.rstCfg := rfl
@[simp] theorem State.advance_pipe : s.advance.pipe = s.pipe := rfl
@[simp] theorem State.advance_acc : s.advance.acc = s.acc := rfl
@[simp] theorem State.advance_dp : s.advance.dp = s.dp := rfl
@[simp] theorem State.advance_trace : s.advance.trace = s.trace := rfl
@[simp] theorem State.advance_mem : s.advance.mem = s.mem := rfl
@[simp] theorem State.advance_plat : s.advance.plat = s.plat := rfl
@[simp] theorem State.advance_env : s.advance.env = s.env := rfl

/-! ### `State.raiseFault` -/

@[simp] theorem State.raiseFault_p (c : FaultCode) (info : Word) : (s.raiseFault c info).p = s.p := rfl
@[simp] theorem State.raiseFault_cp (c : FaultCode) (info : Word) : (s.raiseFault c info).cp = s.cp := rfl
@[simp] theorem State.raiseFault_run (c : FaultCode) (info : Word) : (s.raiseFault c info).run = false := rfl
@[simp] theorem State.raiseFault_done (c : FaultCode) (info : Word) : (s.raiseFault c info).done = s.done := rfl
@[simp] theorem State.raiseFault_drop (c : FaultCode) (info : Word) : (s.raiseFault c info).drop = s.drop := rfl
@[simp] theorem State.raiseFault_first (c : FaultCode) (info : Word) : (s.raiseFault c info).first = s.first := rfl
@[simp] theorem State.raiseFault_err (c : FaultCode) (info : Word) : (s.raiseFault c info).err = c.code := rfl
@[simp] theorem State.raiseFault_errInfo (c : FaultCode) (info : Word) : (s.raiseFault c info).errInfo = info := rfl
@[simp] theorem State.raiseFault_irqEn (c : FaultCode) (info : Word) : (s.raiseFault c info).irqEn = s.irqEn := rfl
@[simp] theorem State.raiseFault_busCfg (c : FaultCode) (info : Word) : (s.raiseFault c info).busCfg = s.busCfg := rfl
@[simp] theorem State.raiseFault_busCfg2 (c : FaultCode) (info : Word) : (s.raiseFault c info).busCfg2 = s.busCfg2 := rfl
@[simp] theorem State.raiseFault_maxChunk (c : FaultCode) (info : Word) : (s.raiseFault c info).maxChunk = s.maxChunk := rfl
@[simp] theorem State.raiseFault_rstCfg (c : FaultCode) (info : Word) : (s.raiseFault c info).rstCfg = s.rstCfg := rfl
@[simp] theorem State.raiseFault_pipe (c : FaultCode) (info : Word) : (s.raiseFault c info).pipe = s.pipe := rfl
@[simp] theorem State.raiseFault_acc (c : FaultCode) (info : Word) : (s.raiseFault c info).acc = s.acc := rfl
@[simp] theorem State.raiseFault_dp (c : FaultCode) (info : Word) : (s.raiseFault c info).dp = s.dp := rfl
@[simp] theorem State.raiseFault_trace (c : FaultCode) (info : Word) : (s.raiseFault c info).trace = s.trace := rfl
@[simp] theorem State.raiseFault_mem (c : FaultCode) (info : Word) : (s.raiseFault c info).mem = s.mem := rfl
@[simp] theorem State.raiseFault_plat (c : FaultCode) (info : Word) : (s.raiseFault c info).plat = s.plat := rfl
@[simp] theorem State.raiseFault_env (c : FaultCode) (info : Word) : (s.raiseFault c info).env = s.env := rfl

/-! ### `State.clearFault` -/

@[simp] theorem State.clearFault_p : s.clearFault.p = s.p := rfl
@[simp] theorem State.clearFault_cp : s.clearFault.cp = s.cp := rfl
@[simp] theorem State.clearFault_run : s.clearFault.run = s.run := rfl
@[simp] theorem State.clearFault_done : s.clearFault.done = s.done := rfl
@[simp] theorem State.clearFault_drop : s.clearFault.drop = s.drop := rfl
@[simp] theorem State.clearFault_first : s.clearFault.first = s.first := rfl
@[simp] theorem State.clearFault_err : s.clearFault.err = 0 := rfl
@[simp] theorem State.clearFault_errInfo : s.clearFault.errInfo = 0 := rfl
@[simp] theorem State.clearFault_irqEn : s.clearFault.irqEn = s.irqEn := rfl
@[simp] theorem State.clearFault_busCfg : s.clearFault.busCfg = s.busCfg := rfl
@[simp] theorem State.clearFault_busCfg2 : s.clearFault.busCfg2 = s.busCfg2 := rfl
@[simp] theorem State.clearFault_maxChunk : s.clearFault.maxChunk = s.maxChunk := rfl
@[simp] theorem State.clearFault_rstCfg : s.clearFault.rstCfg = s.rstCfg := rfl
@[simp] theorem State.clearFault_pipe : s.clearFault.pipe = s.pipe := rfl
@[simp] theorem State.clearFault_acc : s.clearFault.acc = s.acc := rfl
@[simp] theorem State.clearFault_dp : s.clearFault.dp = s.dp := rfl
@[simp] theorem State.clearFault_trace : s.clearFault.trace = s.trace := rfl
@[simp] theorem State.clearFault_mem : s.clearFault.mem = s.mem := rfl
@[simp] theorem State.clearFault_plat : s.clearFault.plat = s.plat := rfl
@[simp] theorem State.clearFault_env : s.clearFault.env = s.env := rfl

/-! ### `State.go` -/

@[simp] theorem State.go_p : s.go.p = s.p := rfl
@[simp] theorem State.go_cp : s.go.cp = s.cp := rfl
@[simp] theorem State.go_run : s.go.run = true := rfl
@[simp] theorem State.go_done : s.go.done = false := rfl
@[simp] theorem State.go_drop : s.go.drop = s.drop := rfl
@[simp] theorem State.go_first : s.go.first = s.first := rfl
@[simp] theorem State.go_err : s.go.err = s.err := rfl
@[simp] theorem State.go_errInfo : s.go.errInfo = s.errInfo := rfl
@[simp] theorem State.go_irqEn : s.go.irqEn = s.irqEn := rfl
@[simp] theorem State.go_busCfg : s.go.busCfg = s.busCfg := rfl
@[simp] theorem State.go_busCfg2 : s.go.busCfg2 = s.busCfg2 := rfl
@[simp] theorem State.go_maxChunk : s.go.maxChunk = s.maxChunk := rfl
@[simp] theorem State.go_rstCfg : s.go.rstCfg = s.rstCfg := rfl
@[simp] theorem State.go_pipe : s.go.pipe = s.pipe := rfl
@[simp] theorem State.go_acc : s.go.acc = s.acc := rfl
@[simp] theorem State.go_dp : s.go.dp = s.dp := rfl
@[simp] theorem State.go_trace : s.go.trace = s.trace := rfl
@[simp] theorem State.go_mem : s.go.mem = s.mem := rfl
@[simp] theorem State.go_plat : s.go.plat = s.plat := rfl
@[simp] theorem State.go_env : s.go.env = s.env := rfl

/-! ### `State.markDrop` -/

@[simp] theorem State.markDrop_p : s.markDrop.p = s.p := rfl
@[simp] theorem State.markDrop_cp : s.markDrop.cp = s.cp := rfl
@[simp] theorem State.markDrop_run : s.markDrop.run = s.run := rfl
@[simp] theorem State.markDrop_done : s.markDrop.done = s.done := rfl
@[simp] theorem State.markDrop_drop : s.markDrop.drop = true := rfl
@[simp] theorem State.markDrop_first : s.markDrop.first = s.first := rfl
@[simp] theorem State.markDrop_err : s.markDrop.err = s.err := rfl
@[simp] theorem State.markDrop_errInfo : s.markDrop.errInfo = s.errInfo := rfl
@[simp] theorem State.markDrop_irqEn : s.markDrop.irqEn = s.irqEn := rfl
@[simp] theorem State.markDrop_busCfg : s.markDrop.busCfg = s.busCfg := rfl
@[simp] theorem State.markDrop_busCfg2 : s.markDrop.busCfg2 = s.busCfg2 := rfl
@[simp] theorem State.markDrop_maxChunk : s.markDrop.maxChunk = s.maxChunk := rfl
@[simp] theorem State.markDrop_rstCfg : s.markDrop.rstCfg = s.rstCfg := rfl
@[simp] theorem State.markDrop_pipe : s.markDrop.pipe = s.pipe := rfl
@[simp] theorem State.markDrop_acc : s.markDrop.acc = s.acc := rfl
@[simp] theorem State.markDrop_dp : s.markDrop.dp = s.dp := rfl
@[simp] theorem State.markDrop_trace : s.markDrop.trace = s.trace := rfl
@[simp] theorem State.markDrop_mem : s.markDrop.mem = s.mem := rfl
@[simp] theorem State.markDrop_plat : s.markDrop.plat = s.plat := rfl
@[simp] theorem State.markDrop_env : s.markDrop.env = s.env := rfl

/-! ### `State.halted` -/

@[simp] theorem State.halted_p : s.halted.p = s.p := rfl
@[simp] theorem State.halted_cp : s.halted.cp = s.cp := rfl
@[simp] theorem State.halted_run : s.halted.run = false := rfl
@[simp] theorem State.halted_done : s.halted.done = true := rfl
@[simp] theorem State.halted_drop : s.halted.drop = s.drop := rfl
@[simp] theorem State.halted_first : s.halted.first = s.first := rfl
@[simp] theorem State.halted_err : s.halted.err = s.err := rfl
@[simp] theorem State.halted_errInfo : s.halted.errInfo = s.errInfo := rfl
@[simp] theorem State.halted_irqEn : s.halted.irqEn = s.irqEn := rfl
@[simp] theorem State.halted_busCfg : s.halted.busCfg = s.busCfg := rfl
@[simp] theorem State.halted_busCfg2 : s.halted.busCfg2 = s.busCfg2 := rfl
@[simp] theorem State.halted_maxChunk : s.halted.maxChunk = s.maxChunk := rfl
@[simp] theorem State.halted_rstCfg : s.halted.rstCfg = s.rstCfg := rfl
@[simp] theorem State.halted_pipe : s.halted.pipe = s.pipe := rfl
@[simp] theorem State.halted_acc : s.halted.acc = s.acc := rfl
@[simp] theorem State.halted_dp : s.halted.dp = s.dp := rfl
@[simp] theorem State.halted_trace : s.halted.trace = s.trace := rfl
@[simp] theorem State.halted_mem : s.halted.mem = s.mem := rfl
@[simp] theorem State.halted_plat : s.halted.plat = s.plat := rfl
@[simp] theorem State.halted_env : s.halted.env = s.env := rfl

/-! ### `State.taken` -/

@[simp] theorem State.taken_p : s.taken.p = { s.p with cx1 := s.acc.x1, cy1 := s.acc.y1, cx2 := s.acc.x2, cy2 := s.acc.y2 } := rfl
@[simp] theorem State.taken_cp : s.taken.cp = s.cp := rfl
@[simp] theorem State.taken_run : s.taken.run = s.run := rfl
@[simp] theorem State.taken_done : s.taken.done = s.done := rfl
@[simp] theorem State.taken_drop : s.taken.drop = s.drop := rfl
@[simp] theorem State.taken_first : s.taken.first = false := rfl
@[simp] theorem State.taken_err : s.taken.err = s.err := rfl
@[simp] theorem State.taken_errInfo : s.taken.errInfo = s.errInfo := rfl
@[simp] theorem State.taken_irqEn : s.taken.irqEn = s.irqEn := rfl
@[simp] theorem State.taken_busCfg : s.taken.busCfg = s.busCfg := rfl
@[simp] theorem State.taken_busCfg2 : s.taken.busCfg2 = s.busCfg2 := rfl
@[simp] theorem State.taken_maxChunk : s.taken.maxChunk = s.maxChunk := rfl
@[simp] theorem State.taken_rstCfg : s.taken.rstCfg = s.rstCfg := rfl
@[simp] theorem State.taken_pipe : s.taken.pipe = s.pipe := rfl
@[simp] theorem State.taken_acc : s.taken.acc = Rect.empty := rfl
@[simp] theorem State.taken_dp : s.taken.dp = s.dp := rfl
@[simp] theorem State.taken_trace : s.taken.trace = s.trace := rfl
@[simp] theorem State.taken_mem : s.taken.mem = s.mem := rfl
@[simp] theorem State.taken_plat : s.taken.plat = s.plat := rfl
@[simp] theorem State.taken_env : s.taken.env = s.env := rfl

/-! ### `State.mergeCore` -/

@[simp] theorem State.mergeCore_p (rs : List Rect) : (s.mergeCore rs).p = s.p := rfl
@[simp] theorem State.mergeCore_cp (rs : List Rect) : (s.mergeCore rs).cp = s.cp := rfl
@[simp] theorem State.mergeCore_run (rs : List Rect) : (s.mergeCore rs).run = s.run := rfl
@[simp] theorem State.mergeCore_done (rs : List Rect) : (s.mergeCore rs).done = s.done := rfl
@[simp] theorem State.mergeCore_drop (rs : List Rect) : (s.mergeCore rs).drop = s.drop := rfl
@[simp] theorem State.mergeCore_first (rs : List Rect) : (s.mergeCore rs).first = s.first := rfl
@[simp] theorem State.mergeCore_err (rs : List Rect) : (s.mergeCore rs).err = s.err := rfl
@[simp] theorem State.mergeCore_errInfo (rs : List Rect) : (s.mergeCore rs).errInfo = s.errInfo := rfl
@[simp] theorem State.mergeCore_irqEn (rs : List Rect) : (s.mergeCore rs).irqEn = s.irqEn := rfl
@[simp] theorem State.mergeCore_busCfg (rs : List Rect) : (s.mergeCore rs).busCfg = s.busCfg := rfl
@[simp] theorem State.mergeCore_busCfg2 (rs : List Rect) : (s.mergeCore rs).busCfg2 = s.busCfg2 := rfl
@[simp] theorem State.mergeCore_maxChunk (rs : List Rect) : (s.mergeCore rs).maxChunk = s.maxChunk := rfl
@[simp] theorem State.mergeCore_rstCfg (rs : List Rect) : (s.mergeCore rs).rstCfg = s.rstCfg := rfl
@[simp] theorem State.mergeCore_pipe (rs : List Rect) : (s.mergeCore rs).pipe = s.pipe := rfl
@[simp] theorem State.mergeCore_acc (rs : List Rect) : (s.mergeCore rs).acc = s.merged rs := rfl
@[simp] theorem State.mergeCore_dp (rs : List Rect) : (s.mergeCore rs).dp = s.dp := rfl
@[simp] theorem State.mergeCore_trace (rs : List Rect) : (s.mergeCore rs).trace = s.trace := rfl
@[simp] theorem State.mergeCore_mem (rs : List Rect) : (s.mergeCore rs).mem = s.mem := rfl
@[simp] theorem State.mergeCore_plat (rs : List Rect) : (s.mergeCore rs).plat = s.plat := rfl
@[simp] theorem State.mergeCore_env (rs : List Rect) : (s.mergeCore rs).env = s.env := rfl

/-! ### `State.resetInput` -/

@[simp] theorem State.resetInput_p : s.resetInput.p = Params.zero := rfl
@[simp] theorem State.resetInput_cp : s.resetInput.cp = 0 := rfl
@[simp] theorem State.resetInput_run : s.resetInput.run = false := rfl
@[simp] theorem State.resetInput_done : s.resetInput.done = false := rfl
@[simp] theorem State.resetInput_drop : s.resetInput.drop = false := rfl
@[simp] theorem State.resetInput_first : s.resetInput.first = true := rfl
@[simp] theorem State.resetInput_err : s.resetInput.err = 0 := rfl
@[simp] theorem State.resetInput_errInfo : s.resetInput.errInfo = 0 := rfl
@[simp] theorem State.resetInput_irqEn : s.resetInput.irqEn = 0 := rfl
@[simp] theorem State.resetInput_busCfg : s.resetInput.busCfg = 0 := rfl
@[simp] theorem State.resetInput_busCfg2 : s.resetInput.busCfg2 = 0 := rfl
@[simp] theorem State.resetInput_maxChunk : s.resetInput.maxChunk = 0 := rfl
@[simp] theorem State.resetInput_rstCfg : s.resetInput.rstCfg = 0 := rfl
@[simp] theorem State.resetInput_pipe : s.resetInput.pipe = 0 := rfl
@[simp] theorem State.resetInput_acc : s.resetInput.acc = Rect.empty := rfl
@[simp] theorem State.resetInput_dp : s.resetInput.dp = Rect.zero := rfl
@[simp] theorem State.resetInput_trace : s.resetInput.trace = s.trace ++ [.resetMark] := rfl
@[simp] theorem State.resetInput_mem : s.resetInput.mem = s.mem := rfl
@[simp] theorem State.resetInput_plat : s.resetInput.plat = s.plat := rfl
@[simp] theorem State.resetInput_env : s.resetInput.env = { s.env with cut := none } := rfl

/-! ### `State.land` -/

@[simp] theorem State.land_p : s.land.p = s.p := rfl
@[simp] theorem State.land_cp : s.land.cp = s.cp := rfl
@[simp] theorem State.land_run : s.land.run = s.run := rfl
@[simp] theorem State.land_done : s.land.done = s.done := rfl
@[simp] theorem State.land_drop : s.land.drop = s.drop := rfl
@[simp] theorem State.land_first : s.land.first = s.first := rfl
@[simp] theorem State.land_err : s.land.err = s.err := rfl
@[simp] theorem State.land_errInfo : s.land.errInfo = s.errInfo := rfl
@[simp] theorem State.land_irqEn : s.land.irqEn = s.irqEn := rfl
@[simp] theorem State.land_busCfg : s.land.busCfg = s.busCfg := rfl
@[simp] theorem State.land_busCfg2 : s.land.busCfg2 = s.busCfg2 := rfl
@[simp] theorem State.land_maxChunk : s.land.maxChunk = s.maxChunk := rfl
@[simp] theorem State.land_rstCfg : s.land.rstCfg = s.rstCfg := rfl
@[simp] theorem State.land_pipe : s.land.pipe = s.pipe := rfl
@[simp] theorem State.land_acc : s.land.acc = s.acc := rfl
@[simp] theorem State.land_dp : s.land.dp = s.dp := rfl
@[simp] theorem State.land_trace : s.land.trace = s.trace := rfl
@[simp] theorem State.land_mem : s.land.mem = s.env.inFlight.foldl memStoreAll s.mem := rfl
@[simp] theorem State.land_plat : s.land.plat = s.plat := rfl
@[simp] theorem State.land_env : s.land.env = { s.env with inFlight := [] } := rfl

/-! ### `State.disturbed` -/

@[simp] theorem State.disturbed_p (ws : List HostStore) (k : Option Nat) : (s.disturbed ws k).p = s.p := rfl
@[simp] theorem State.disturbed_cp (ws : List HostStore) (k : Option Nat) : (s.disturbed ws k).cp = s.cp := rfl
@[simp] theorem State.disturbed_run (ws : List HostStore) (k : Option Nat) : (s.disturbed ws k).run = s.run := rfl
@[simp] theorem State.disturbed_done (ws : List HostStore) (k : Option Nat) : (s.disturbed ws k).done = s.done := rfl
@[simp] theorem State.disturbed_drop (ws : List HostStore) (k : Option Nat) : (s.disturbed ws k).drop = s.drop := rfl
@[simp] theorem State.disturbed_first (ws : List HostStore) (k : Option Nat) : (s.disturbed ws k).first = s.first := rfl
@[simp] theorem State.disturbed_err (ws : List HostStore) (k : Option Nat) : (s.disturbed ws k).err = s.err := rfl
@[simp] theorem State.disturbed_errInfo (ws : List HostStore) (k : Option Nat) : (s.disturbed ws k).errInfo = s.errInfo := rfl
@[simp] theorem State.disturbed_irqEn (ws : List HostStore) (k : Option Nat) : (s.disturbed ws k).irqEn = s.irqEn := rfl
@[simp] theorem State.disturbed_busCfg (ws : List HostStore) (k : Option Nat) : (s.disturbed ws k).busCfg = s.busCfg := rfl
@[simp] theorem State.disturbed_busCfg2 (ws : List HostStore) (k : Option Nat) : (s.disturbed ws k).busCfg2 = s.busCfg2 := rfl
@[simp] theorem State.disturbed_maxChunk (ws : List HostStore) (k : Option Nat) : (s.disturbed ws k).maxChunk = s.maxChunk := rfl
@[simp] theorem State.disturbed_rstCfg (ws : List HostStore) (k : Option Nat) : (s.disturbed ws k).rstCfg = s.rstCfg := rfl
@[simp] theorem State.disturbed_pipe (ws : List HostStore) (k : Option Nat) : (s.disturbed ws k).pipe = s.pipe := rfl
@[simp] theorem State.disturbed_acc (ws : List HostStore) (k : Option Nat) : (s.disturbed ws k).acc = s.acc := rfl
@[simp] theorem State.disturbed_dp (ws : List HostStore) (k : Option Nat) : (s.disturbed ws k).dp = s.dp := rfl
@[simp] theorem State.disturbed_trace (ws : List HostStore) (k : Option Nat) : (s.disturbed ws k).trace = s.trace := rfl
@[simp] theorem State.disturbed_mem (ws : List HostStore) (k : Option Nat) : (s.disturbed ws k).mem = s.mem := rfl
@[simp] theorem State.disturbed_plat (ws : List HostStore) (k : Option Nat) : (s.disturbed ws k).plat = s.plat := rfl
@[simp] theorem State.disturbed_env (ws : List HostStore) (k : Option Nat) : (s.disturbed ws k).env = { s.env with inFlight := ws, cut := k } := rfl

/-! ### `State.withTurns` -/

@[simp] theorem State.withTurns_p (ts : List Turn) : (s.withTurns ts).p = s.p := rfl
@[simp] theorem State.withTurns_cp (ts : List Turn) : (s.withTurns ts).cp = s.cp := rfl
@[simp] theorem State.withTurns_run (ts : List Turn) : (s.withTurns ts).run = s.run := rfl
@[simp] theorem State.withTurns_done (ts : List Turn) : (s.withTurns ts).done = s.done := rfl
@[simp] theorem State.withTurns_drop (ts : List Turn) : (s.withTurns ts).drop = s.drop := rfl
@[simp] theorem State.withTurns_first (ts : List Turn) : (s.withTurns ts).first = s.first := rfl
@[simp] theorem State.withTurns_err (ts : List Turn) : (s.withTurns ts).err = s.err := rfl
@[simp] theorem State.withTurns_errInfo (ts : List Turn) : (s.withTurns ts).errInfo = s.errInfo := rfl
@[simp] theorem State.withTurns_irqEn (ts : List Turn) : (s.withTurns ts).irqEn = s.irqEn := rfl
@[simp] theorem State.withTurns_busCfg (ts : List Turn) : (s.withTurns ts).busCfg = s.busCfg := rfl
@[simp] theorem State.withTurns_busCfg2 (ts : List Turn) : (s.withTurns ts).busCfg2 = s.busCfg2 := rfl
@[simp] theorem State.withTurns_maxChunk (ts : List Turn) : (s.withTurns ts).maxChunk = s.maxChunk := rfl
@[simp] theorem State.withTurns_rstCfg (ts : List Turn) : (s.withTurns ts).rstCfg = s.rstCfg := rfl
@[simp] theorem State.withTurns_pipe (ts : List Turn) : (s.withTurns ts).pipe = s.pipe := rfl
@[simp] theorem State.withTurns_acc (ts : List Turn) : (s.withTurns ts).acc = s.acc := rfl
@[simp] theorem State.withTurns_dp (ts : List Turn) : (s.withTurns ts).dp = s.dp := rfl
@[simp] theorem State.withTurns_trace (ts : List Turn) : (s.withTurns ts).trace = s.trace := rfl
@[simp] theorem State.withTurns_mem (ts : List Turn) : (s.withTurns ts).mem = s.mem := rfl
@[simp] theorem State.withTurns_plat (ts : List Turn) : (s.withTurns ts).plat = s.plat := rfl
@[simp] theorem State.withTurns_env (ts : List Turn) : (s.withTurns ts).env = { s.env with turns := ts } := rfl

end Sys2Proof.Machine
end

