-- ==== Sys2Proof/Laws/Memory.lean ====
section
/-! SUPPORT. Memory: a read after a write, what a write leaves alone, and the canonical form that every operation keeps. -/

namespace Sys2Proof.Machine

/-! ## Read after write -/

/-- Looking up any address after an insertion. -/
theorem memFind_memInsert (m : Memory) (a b : Nat) (v : Byte) :
    memFind (memInsert m a v) b = if b = a then some v else memFind m b := by
  induction m with
  | nil => simp only [memInsert, memFind]; split <;> simp_all
  | cons c m ih =>
    obtain ⟨k, w⟩ := c
    simp only [memInsert]
    split
    · subst_vars; simp only [memFind]; split <;> simp_all
    · split
      · simp only [memFind]
        by_cases hb : b = a
        · simp [hb]
        · have hk : b < a → b < k := fun h => by omega
          have hn : b < a → b ≠ k := fun h => by omega
          simp only [hb, if_false]
          split <;> simp_all
      · simp only [memFind, ih]
        by_cases hb : b = a
        · subst hb
          have h1 : ¬ b < k := by omega
          simp_all
        · simp [hb]

/-- Looking up any address after a store. -/
theorem memFind_memStore (m : Memory) (a b : Nat) (v : Byte) (h : a < memLimit) :
    memFind (memStore m a v) b = if b = a then some v else memFind m b := by
  simp [memStore, h, memFind_memInsert]

/-- A byte store changes the byte at its address and no other. -/
theorem memByte_memStore (m : Memory) (a b : Nat) (v : Byte) (h : a < memLimit) :
    memByte (memStore m a v) b = if b = a then v else memByte m b := by
  simp only [memByte, memFind_memStore _ _ _ _ h]
  split <;> simp

/-- The byte just stored. -/
theorem memByte_memStore_self (m : Memory) (a : Nat) (v : Byte) (h : a < memLimit) : memByte (memStore m a v) a = v := by
  simp [memByte_memStore _ _ _ _ h]

/-- A byte store leaves every other address alone, wherever it goes. -/
theorem memByte_memStore_of_ne (m : Memory) {a b : Nat} (v : Byte) (h : b ≠ a) : memByte (memStore m a v) b = memByte m b := by
  unfold memStore
  split
  · simp [memByte, memFind_memInsert, h]
  · rfl

/-- A run of byte stores changes exactly the addresses it covers. -/
theorem memByte_memStores (vs : List Byte) : ∀ (m : Memory) (a b : Nat), a + vs.length ≤ memLimit →
    memByte (memStores m a vs) b = if h : a ≤ b ∧ b < a + vs.length then vs[b - a]'(by omega) else memByte m b := by
  induction vs with
  | nil => intro m a b _; simp only [memStores]; rw [dif_neg]; simp only [List.length_nil]; omega
  | cons v vs ih =>
    intro m a b h
    simp only [List.length_cons] at h ⊢
    rw [memStores, ih _ _ _ (by omega)]
    by_cases h1 : a + 1 ≤ b ∧ b < a + 1 + vs.length
    · rw [dif_pos h1, dif_pos (by omega)]
      have e : b - a = (b - (a + 1)) + 1 := by omega
      simp [e]
    · rw [dif_neg h1]
      by_cases hb : b = a
      · subst hb
        rw [dif_pos (by omega), memByte_memStore_self _ _ _ (by omega)]
        simp
      · rw [dif_neg (by omega), memByte_memStore_of_ne _ _ hb]

/-- A run of byte stores leaves the addresses outside it alone, wherever it goes. -/
theorem memByte_memStores_outside (vs : List Byte) : ∀ (m : Memory) (a b : Nat), (b < a ∨ a + vs.length ≤ b) →
    memByte (memStores m a vs) b = memByte m b := by
  induction vs with
  | nil => intro m a b _; rfl
  | cons v vs ih =>
    intro m a b h
    simp only [List.length_cons] at h
    rw [memStores, ih _ _ _ (by omega), memByte_memStore_of_ne _ _ (by omega)]

@[simp] theorem memStores_one (m : Memory) (a : Nat) (v : Byte) : memStores m a [v] = memStore m a v := rfl

@[simp] theorem memBytes_one (m : Memory) (a : Nat) : memBytes m a 1 = [memByte m a] := rfl

@[simp] theorem memBytes_two (m : Memory) (a : Nat) : memBytes m a 2 = [memByte m a, memByte m (a + 1)] := rfl

@[simp] theorem memBytes_four (m : Memory) (a : Nat) :
    memBytes m a 4 = [memByte m a, memByte m (a + 1), memByte m (a + 2), memByte m (a + 3)] := rfl

@[simp] theorem length_memBytes (m : Memory) (a n : Nat) : (memBytes m a n).length = n := by
  induction n generalizing a with
  | zero => rfl
  | succ n ih => simp [memBytes, ih]

@[simp] theorem length_bytes2 (be : Bool) (v : Half) : (bytes2 be v).length = 2 := by cases be <;> rfl

@[simp] theorem length_bytes4 (be : Bool) (v : Word) : (bytes4 be v).length = 4 := by cases be <;> rfl

/-! ## The canonical form -/

theorem memRising_mono {lo lo' : Nat} (h : lo' ≤ lo) : ∀ {m : Memory}, memRising lo m = true → memRising lo' m = true
  | [], _ => rfl
  | (k, _) :: m, hm => by
    simp only [memRising, Bool.and_eq_true, decide_eq_true_eq] at hm ⊢
    exact ⟨by omega, hm.2⟩

theorem memRising_memInsert (a : Nat) (v : Byte) : ∀ {lo : Nat} {m : Memory}, lo < a → memRising lo m = true →
    memRising lo (memInsert m a v) = true
  | lo, [], h, _ => by simp [memInsert, memRising, h]
  | lo, (k, w) :: m, h, hm => by
    simp only [memRising, Bool.and_eq_true, decide_eq_true_eq] at hm
    simp only [memInsert]
    split
    · subst_vars; simp [memRising, hm.2, h]
    · split
      · simp [memRising, h, hm.2]; omega
      · simp only [memRising, Bool.and_eq_true, decide_eq_true_eq]
        exact ⟨hm.1, memRising_memInsert a v (by omega) hm.2⟩

theorem memBounded_memInsert (a : Nat) (v : Byte) (ha : a < memLimit) : ∀ {m : Memory},
    m.all (fun c => c.1 < memLimit) = true → (memInsert m a v).all (fun c => c.1 < memLimit) = true
  | [], _ => by simp [memInsert, ha]
  | (k, w) :: m, hm => by
    simp only [List.all_cons, Bool.and_eq_true, decide_eq_true_eq] at hm
    simp only [memInsert]
    split
    · simp [hm.2, ha]
    · split
      · simp [hm.1, hm.2, ha]
      · simp only [List.all_cons, Bool.and_eq_true, decide_eq_true_eq]
        exact ⟨hm.1, memBounded_memInsert a v ha hm.2⟩

@[simp] theorem wf_nil : Memory.wf [] = true := rfl

theorem wf_cons {k : Nat} {w : Byte} {m : Memory} :
    Memory.wf ((k, w) :: m) = true ↔ memRising k m = true ∧ k < memLimit ∧ m.all (fun c => c.1 < memLimit) = true := by
  simp [Memory.wf]

theorem wf_memInsert (m : Memory) (a : Nat) (v : Byte) (ha : a < memLimit) (h : m.wf = true) : (memInsert m a v).wf = true := by
  cases m with
  | nil => rw [memInsert, wf_cons]; exact ⟨rfl, ha, rfl⟩
  | cons c m =>
    obtain ⟨k, w⟩ := c
    obtain ⟨h1, h2, h3⟩ := wf_cons.1 h
    simp only [memInsert]
    split
    · subst_vars; exact wf_cons.2 ⟨h1, ha, h3⟩
    · split
      · exact wf_cons.2 ⟨by simp [memRising, h1]; omega, ha, by simp [h2, h3]⟩
      · exact wf_cons.2 ⟨memRising_memInsert a v (by omega) h1, h2, memBounded_memInsert a v ha h3⟩

/-- A byte store keeps the canonical form. -/
theorem wf_memStore (m : Memory) (a : Nat) (v : Byte) (h : m.wf = true) : (memStore m a v).wf = true := by
  unfold memStore
  split
  · exact wf_memInsert m a v ‹_› h
  · exact h

/-- A run of byte stores keeps the canonical form. -/
theorem wf_memStores (vs : List Byte) : ∀ (m : Memory) (a : Nat), m.wf = true → (memStores m a vs).wf = true := by
  induction vs with
  | nil => intro m a h; exact h
  | cons v vs ih => intro m a h; exact ih _ _ (wf_memStore _ _ _ h)

/-- A host store keeps the canonical form. -/
theorem wf_memStoreAll (cells : HostStore) : ∀ (m : Memory), m.wf = true → (memStoreAll m cells).wf = true := by
  induction cells with
  | nil => intro m h; exact h
  | cons c cells ih => intro m h; exact ih _ (wf_memStore _ _ _ h)

/-- Host stores one after the other keep the canonical form. -/
theorem wf_foldl_memStoreAll (ws : List HostStore) : ∀ (m : Memory), m.wf = true → (ws.foldl memStoreAll m).wf = true := by
  induction ws with
  | nil => intro m h; exact h
  | cons w ws ih => intro m h; exact ih _ (wf_memStoreAll _ _ h)

/-- Reset's memory has the canonical form. -/
theorem wf_reset : State.reset.mem.wf = true := rfl

end Sys2Proof.Machine
end

