-- ==== Sys2Proof/Laws/Cmd.lean ====
section
/-! SUPPORT. How the body of a command runs, and what each shared operation can do: on an undisturbed state by one equation each, and
on every state by one relation that all of them keep. -/

namespace Sys2Proof.Machine

/-! ## Running a body -/

theorem run_bind {α β : Type} (c : Cmd α) (f : α → Cmd β) (s : State) :
    (c >>= f) s = match c s with | .ok v s' => f v s' | .error e s' => .error e s' := by
  show EStateM.bind c f s = _
  unfold EStateM.bind
  cases c s <;> rfl

theorem run_bind_ok {α β : Type} {c : Cmd α} {f : α → Cmd β} {s s' : State} {v : α} (h : c s = .ok v s') :
    (c >>= f) s = f v s' := by rw [run_bind, h]

theorem run_bind_error {α β : Type} {c : Cmd α} {f : α → Cmd β} {s s' : State} {e : Stop} (h : c s = .error e s') :
    (c >>= f) s = .error e s' := by rw [run_bind, h]

@[simp] theorem run_pure {α : Type} (v : α) (s : State) : (pure v : Cmd α) s = .ok v s := rfl

@[simp] theorem run_get (s : State) : (get : Cmd State) s = .ok s s := rfl

@[simp] theorem run_modify (f : State → State) (s : State) : (modify f : Cmd Unit) s = .ok () (f s) := rfl

@[simp] theorem run_throw {α : Type} (e : Stop) (s : State) : (throw e : Cmd α) s = .error e s := rfl

@[simp] theorem run_raise {α : Type} (c : FaultCode) (i : Word) (s : State) : (raise c i : Cmd α) s = .error (.raised c i) s := rfl

@[simp] theorem run_require_true (c : FaultCode) (i : Word) (s : State) : (require true c i) s = .ok () s := rfl

@[simp] theorem run_require_false (c : FaultCode) (i : Word) (s : State) :
    (require false c i) s = .error (.raised c i) s := rfl

/-- `require` passes, or raises its fault, and changes nothing. -/
theorem run_require (b : Bool) (c : FaultCode) (i : Word) (s : State) :
    (require b c i) s = if b then .ok () s else .error (.raised c i) s := by cases b <;> rfl

/-- A `require` before the rest of a body. -/
theorem run_require_bind {β : Type} (b : Bool) (c : FaultCode) (i : Word) (f : Unit → Cmd β) (s : State) :
    (require b c i >>= f) s = if b then f () s else .error (.raised c i) s := by
  cases b <;> simp [run_bind]

@[simp] theorem run_get_bind {β : Type} (f : State → Cmd β) (s : State) : ((get : Cmd State) >>= f) s = f s s := rfl

@[simp] theorem run_pure_bind {α β : Type} (v : α) (f : α → Cmd β) (s : State) : ((pure v : Cmd α) >>= f) s = f v s := rfl

/-- The access check passes, or raises `E_ACCESS` with the start of the first bad range, and changes nothing. -/
theorem run_requireAccess (rs : List AccessRange) (s : State) :
    (requireAccess rs) s = match firstBad s.plat rs with
      | none => .ok () s
      | some r => .error (.raised .access (BitVec.ofNat 32 r.base)) s := by
  unfold requireAccess
  rw [run_get_bind]
  cases firstBad s.plat rs <;> rfl

/-- The access check before the rest of a body. -/
theorem run_requireAccess_bind {β : Type} (rs : List AccessRange) (f : Unit → Cmd β) (s : State) :
    (requireAccess rs >>= f) s = match firstBad s.plat rs with
      | none => f () s
      | some r => .error (.raised .access (BitVec.ofNat 32 r.base)) s := by
  rw [run_bind, run_requireAccess]
  cases firstBad s.plat rs <;> rfl

/-- The first range that fails its check is one of the list, fails it, and all before it pass. -/
theorem firstBad_eq_some {p : Config.Platform} {rs : List AccessRange} {r : AccessRange} :
    firstBad p rs = some r ↔ rangeOk p r = false ∧ ∃ pre post, rs = pre ++ r :: post ∧ ∀ q ∈ pre, rangeOk p q = true := by
  simp [firstBad, List.find?_eq_some_iff_append]

/-- No range fails its check. -/
theorem firstBad_eq_none {p : Config.Platform} {rs : List AccessRange} : firstBad p rs = none ↔ ∀ r ∈ rs, rangeOk p r = true := by
  simp [firstBad]

/-! ## The operations on an undisturbed state -/

theorem undisturbed_iff {s : State} : s.undisturbed = true ↔ s.env.inFlight = [] ∧ s.env.cut = none := by
  simp [State.undisturbed]

variable {s : State}

theorem run_effect (h : s.env.cut = none) : effect s = .ok () s := by simp [effect, h]

/-- An undisturbed read gives the bytes of memory and changes nothing. -/
theorem run_readAccess (h : s.undisturbed = true) (a n : Nat) : readAccess a n s = .ok (memBytes s.mem a n) s := by
  obtain ⟨h1, h2⟩ := undisturbed_iff.1 h
  have e : ({ s.env with draws := s.env.draws } : Env) = s.env := rfl
  simp only [readAccess, h1, racedView, List.length_nil, Nat.add_zero]
  rw [← h1, e]
  rfl

/-- An undisturbed write stores its bytes and changes nothing else. -/
theorem run_writeAccess (h : s.undisturbed = true) (a : Nat) (bs : List Byte) :
    writeAccess a bs s = .ok () (s.withMem (memStores s.mem a bs)) := by
  obtain ⟨h1, h2⟩ := undisturbed_iff.1 h
  unfold writeAccess
  rw [run_bind_ok (run_effect h2), run_modify]
  have e : ({ s.env with inFlight := [], draws := s.env.draws } : Env) = s.env := by
    cases hs : s.env with
    | mk a b c d e f g k => simp_all
  simp only [h1, racedStores, List.length_nil, Nat.add_zero]
  rw [e]
  rfl

theorem run_read8 (h : s.undisturbed = true) (a : Nat) : read8 a s = .ok (s.byteAt a) s := by
  unfold read8; rw [run_bind_ok (run_readAccess h a 1)]; rfl

theorem run_read16 (h : s.undisturbed = true) (a : Nat) : read16 a s = .ok (s.half a) s := by
  unfold read16; rw [run_bind_ok (run_readAccess h a 2)]; rfl

theorem run_read32 (h : s.undisturbed = true) (a : Nat) : read32 a s = .ok (s.word a) s := by
  unfold read32; rw [run_bind_ok (run_readAccess h a 4)]; rfl

theorem run_write8 (h : s.undisturbed = true) (a : Nat) (v : Byte) : write8 a v s = .ok () (s.withMem (memStore s.mem a v)) :=
  run_writeAccess h a [v]

theorem run_write16 (h : s.undisturbed = true) (a : Nat) (v : Half) :
    write16 a v s = .ok () (s.withMem (memStores s.mem a (bytes2 s.plat.memBE v))) := by
  unfold write16; rw [run_get_bind]; exact run_writeAccess h a _

/-- An event that asks for nothing is appended, and that is all. -/
theorem run_emitAsk_plain (h : s.env.cut = none) {e : Event} (he : e.asks = false) : emitAsk e s = .ok [] (s.logged [e]) := by
  unfold emitAsk emit
  simp [run_bind, run_effect h, he]

/-- The state after an event that asks: the event in the trace, one answer drawn. -/
def State.asked (s : State) (e : Event) : State := (s.logged [e]).withEnv { s.env with asked := s.env.asked + 1 }

theorem run_ask (s : State) : ask s = .ok s.env.asked (s.withEnv { s.env with asked := s.env.asked + 1 }) := rfl

/-- What an answer does to a command: it goes on, raises `E_BUS(0)`, or hangs. -/
theorem run_answered (e : Event) (a : Config.Answer) (s : State) :
    answered e a s = match a with
      | .silent => .error .silent s
      | .fail => if e.canFail then .error (.raised .bus 0) s else .ok () s
      | .ok _ => .ok () s := by
  cases a <;> simp only [answered] <;> try rfl
  split <;> rfl

/-- What an event that asks can do on an undisturbed state: the transport's next answer decides. -/
theorem run_emitAsk_asks (h : s.env.cut = none) {e : Event} (he : e.asks = true) :
    emitAsk e s = match s.env.answer s.env.asked with
      | .silent => .error .silent (s.asked e)
      | .fail => if e.canFail then .error (.raised .bus 0) (s.asked e) else .ok (s.env.eventData e s.env.asked) (s.asked e)
      | .ok _ => .ok (s.env.eventData e s.env.asked) (s.asked e) := by
  have h1 : emit e s = .ok () (s.logged [e]) := by unfold emit; rw [run_bind_ok (run_effect h)]; rfl
  have h2 : emitAsk e s = (answered e (s.env.answer s.env.asked) >>= fun _ => pure (s.env.eventData e s.env.asked)) (s.asked e) := by
    unfold emitAsk
    rw [run_bind_ok h1, he, if_pos rfl]
    rfl
  rw [h2, run_bind, run_answered]
  cases s.env.answer s.env.asked with
  | ok ws => rfl
  | silent => rfl
  | fail => by_cases hc : e.canFail = true <;> simp [hc]

/-- A run of plain events is appended, and that is all. -/
theorem run_emitAll_plain : ∀ (es : List Event) (s : State), s.env.cut = none → (∀ e ∈ es, e.asks = false) →
    emitAll es s = .ok () (s.logged es)
  | [], s, _, _ => by simp [emitAll, State.logged]
  | e :: es, s, h, he => by
    have h1 := run_emitAsk_plain h (he e (by simp))
    have h2 := run_emitAll_plain es (s.logged [e]) h fun x hx => he x (by simp [hx])
    refine (run_bind_ok h1).trans (h2.trans ?_)
    simp [State.logged]

/-- The body of a loop that only changes memory, each round by `f k`. -/
theorem run_loop (body : Nat → Cmd Unit) (f : Nat → Memory → Memory) (s : State)
    (hb : ∀ k m, body k (s.withMem m) = .ok () (s.withMem (f k m))) :
    ∀ n k m, loop body n k (s.withMem m) = .ok () (s.withMem ((List.range' k n).foldl (fun m k => f k m) m))
  | 0, k, m => by simp [loop]
  | n + 1, k, m => by
    unfold loop
    rw [run_bind_ok (hb k m), run_loop body f s hb n (k + 1)]
    simp [List.range'_succ]

/-- A list gathered from items that change nothing. -/
theorem run_gather {α : Type} (item : Nat → Cmd α) (f : Nat → α) (s : State) (hi : ∀ k, item k s = .ok (f k) s) :
    ∀ n k, gather item n k s = .ok ((List.range' k n).map f) s
  | 0, k => by simp [gather]
  | n + 1, k => by
    unfold gather
    rw [run_bind_ok (hi k), run_bind_ok (run_gather item f s hi n (k + 1))]
    simp [List.range'_succ]

/-! ## What the operations of a body can do on any state -/

/-- Everything the shared operations of a body can do to the state: memory changes (where it `writes`), events are appended (where it
`emits`), answers and draws are used up; no register, no platform parameter and no scheduled turn changes. -/
structure Ran (writes emits : Bool) (s t : State) : Prop where
  p : t.p = s.p
  cp : t.cp = s.cp
  run : t.run = s.run
  done : t.done = s.done
  drop : t.drop = s.drop
  first : t.first = s.first
  err : t.err = s.err
  errInfo : t.errInfo = s.errInfo
  irqEn : t.irqEn = s.irqEn
  busCfg : t.busCfg = s.busCfg
  busCfg2 : t.busCfg2 = s.busCfg2
  maxChunk : t.maxChunk = s.maxChunk
  rstCfg : t.rstCfg = s.rstCfg
  pipe : t.pipe = s.pipe
  acc : t.acc = s.acc
  dp : t.dp = s.dp
  plat : t.plat = s.plat
  trace : s.trace <+: t.trace
  traceSame : emits = false → t.trace = s.trace
  mem : s.mem.wf = true → t.mem.wf = true
  memSame : writes = false → t.mem = s.mem
  turns : t.env.turns = s.env.turns
  answers : t.env.answers = s.env.answers
  raceBits : t.env.raceBits = s.env.raceBits
  hostSaw : t.env.hostSaw = s.env.hostSaw
  asked : s.env.asked ≤ t.env.asked
  inFlight : s.env.inFlight = [] → t.env.inFlight = []
  inFlightSame : writes = false → t.env.inFlight = s.env.inFlight
  cut : s.env.cut = none ↔ t.env.cut = none

section
variable {w em : Bool}

theorem Ran.refl (s : State) : Ran w em s s := by constructor <;> simp

theorem Ran.trans {s t u : State} (h : Ran w em s t) (g : Ran w em t u) : Ran w em s u where
  p := g.p.trans h.p
  cp := g.cp.trans h.cp
  run := g.run.trans h.run
  done := g.done.trans h.done
  drop := g.drop.trans h.drop
  first := g.first.trans h.first
  err := g.err.trans h.err
  errInfo := g.errInfo.trans h.errInfo
  irqEn := g.irqEn.trans h.irqEn
  busCfg := g.busCfg.trans h.busCfg
  busCfg2 := g.busCfg2.trans h.busCfg2
  maxChunk := g.maxChunk.trans h.maxChunk
  rstCfg := g.rstCfg.trans h.rstCfg
  pipe := g.pipe.trans h.pipe
  acc := g.acc.trans h.acc
  dp := g.dp.trans h.dp
  plat := g.plat.trans h.plat
  trace := h.trace.trans g.trace
  traceSame := fun x => (g.traceSame x).trans (h.traceSame x)
  mem := fun x => g.mem (h.mem x)
  memSame := fun x => (g.memSame x).trans (h.memSame x)
  turns := g.turns.trans h.turns
  answers := g.answers.trans h.answers
  raceBits := g.raceBits.trans h.raceBits
  hostSaw := g.hostSaw.trans h.hostSaw
  asked := h.asked.trans g.asked
  inFlight := fun x => g.inFlight (h.inFlight x)
  inFlightSame := fun x => (g.inFlightSame x).trans (h.inFlightSame x)
  cut := h.cut.trans g.cut

/-- A body that does less does nothing more. -/
theorem Ran.weaken {w' em' : Bool} {s t : State} (h : Ran w em s t) (hw : w' = false → w = false) (he : em' = false → em = false) :
    Ran w' em' s t :=
  { h with
    traceSame := fun x => h.traceSame (he x)
    memSame := fun x => h.memSame (hw x)
    inFlightSame := fun x => h.inFlightSame (hw x) }

/-- The transport's answers are the same function before and after. -/
theorem Ran.answer {s t : State} (h : Ran w em s t) (n : Nat) : t.env.answer n = s.env.answer n := by
  simp [Env.answer, h.answers]

/-- A stop that can happen between two states: `cut` only where a reset is on its way, `silent` only where an answer still to come is
silence, `E_BUS` only right after an event that can fail. -/
def Stop.From (s t : State) : Stop → Prop
  | .cut => s.env.cut ≠ none
  | .silent => ∃ n, s.env.asked ≤ n ∧ s.env.answer n = .silent
  | .raised c _ => c = .bus → ∃ es e, t.trace = s.trace ++ es ++ [e] ∧ e.canFail = true

theorem Stop.From.back {s t u : State} {e : Stop} (h : Ran w em s t) (he : e.From t u) : e.From s u := by
  cases e with
  | cut => exact fun x => he (h.cut.1 x)
  | silent => obtain ⟨n, h1, h2⟩ := he; exact ⟨n, h.asked.trans h1, by rw [← h.answer]; exact h2⟩
  | raised c i =>
    intro hc
    obtain ⟨es, e, h1, h2⟩ := he hc
    obtain ⟨xs, hx⟩ := h.trace
    exact ⟨xs ++ es, e, by rw [h1, ← hx, List.append_assoc s.trace xs es], h2⟩

end

/-- Every way the body ends, from any state: the state is one `Ran` allows, and it stops only for a reason of `ok`. -/
def Within (w em : Bool) (ok : Stop → Prop) {α : Type} (c : Cmd α) : Prop :=
  ∀ s, match c s with
    | .ok _ t => Ran w em s t
    | .error e t => Ran w em s t ∧ ok e ∧ e.From s t

/-- The stops a body that raises nothing has: the reset input. -/
def onlyCut : Stop → Prop := fun e => e = .cut

/-- The stops of a body that emits: the reset input, silence, and `E_BUS(0)`. -/
def busStops : Stop → Prop := fun e => e = .cut ∨ e = .silent ∨ e = .raised .bus 0

theorem onlyCut_cut : onlyCut .cut := rfl

section
variable {α β : Type} {w em : Bool} {ok : Stop → Prop}

theorem Within.mono {c : Cmd α} {ok' : Stop → Prop} (h : Within w em ok c) (hok : ∀ e, ok e → ok' e) : Within w em ok' c := by
  intro s
  have := h s
  revert this
  cases c s with
  | ok v t => exact id
  | error e t => exact fun x => ⟨x.1, hok e x.2.1, x.2.2⟩

theorem Within.weaken {w' em' : Bool} {c : Cmd α} (h : Within w em ok c) (hw : w' = false → w = false)
    (he : em' = false → em = false) : Within w' em' ok c := by
  intro s
  have := h s
  revert this
  cases c s with
  | ok v t => exact fun x => x.weaken hw he
  | error e t => exact fun x => ⟨x.1.weaken hw he, x.2⟩

theorem Within.of_ok {c : Cmd α} (h : Within w em ok c) {s t : State} {v : α} (hc : c s = .ok v t) : Ran w em s t := by
  have := h s; rw [hc] at this; exact this

theorem Within.of_error {c : Cmd α} (h : Within w em ok c) {s t : State} {e : Stop} (hc : c s = .error e t) :
    Ran w em s t ∧ ok e ∧ e.From s t := by
  have := h s; rw [hc] at this; exact this

theorem within_pure (v : α) : Within w em ok (pure v : Cmd α) := fun s => Ran.refl s

theorem within_get : Within w em ok (get : Cmd State) := fun s => Ran.refl s

theorem within_raise {c : FaultCode} {i : Word} (h : ok (.raised c i)) (hc : c ≠ .bus) : Within w em ok (raise c i : Cmd α) :=
  fun s => ⟨Ran.refl s, h, fun x => absurd x hc⟩

theorem within_bind {c : Cmd α} {f : α → Cmd β} (h : Within w em ok c) (g : ∀ v, Within w em ok (f v)) :
    Within w em ok (c >>= f) := by
  intro s
  cases hc : c s with
  | error e t => rw [run_bind_error hc]; exact h.of_error hc
  | ok v t =>
    rw [run_bind_ok hc]
    have h1 := h.of_ok hc
    cases hf : f v t with
    | ok x u => exact h1.trans ((g v).of_ok hf)
    | error e u => obtain ⟨g1, g2, g3⟩ := (g v).of_error hf; exact ⟨h1.trans g1, g2, g3.back h1⟩

/-- A body that begins by reading the state. -/
theorem within_get_bind {f : State → Cmd β} (g : ∀ s, Within w em ok (f s)) : Within w em ok ((get : Cmd State) >>= f) :=
  within_bind within_get g

theorem within_effect (h : ok .cut) : Within w em ok effect := by
  intro s
  unfold effect
  cases hc : s.env.cut with
  | none => exact Ran.refl s
  | some k =>
    cases k with
    | zero => exact ⟨Ran.refl s, h, by simp [Stop.From, hc]⟩
    | succ k => constructor <;> simp_all

theorem within_readAccess (a n : Nat) : Within w em ok (readAccess a n) := by
  intro s
  constructor <;> simp

theorem within_writeAccess (h : ok .cut) (a : Nat) (bs : List Byte) : Within true em ok (writeAccess a bs) := by
  refine within_bind (within_effect h) fun _ s => ?_
  rw [run_modify]
  constructor <;> simp +contextual [wf_memStores, racedStores]

theorem within_read8 (a : Nat) : Within w em ok (read8 a) := by
  refine within_bind (within_readAccess a 1) fun bs => ?_
  split <;> exact within_pure _

theorem within_read16 (a : Nat) : Within w em ok (read16 a) := by
  refine within_bind (within_readAccess a 2) fun bs => ?_
  split
  · exact within_get_bind fun s => within_pure _
  · exact within_pure _

theorem within_read32 (a : Nat) : Within w em ok (read32 a) := by
  refine within_bind (within_readAccess a 4) fun bs => ?_
  split
  · exact within_get_bind fun s => within_pure _
  · exact within_pure _

theorem within_write8 (h : ok .cut) (a : Nat) (v : Byte) : Within true em ok (write8 a v) := within_writeAccess h a [v]

theorem within_write16 (h : ok .cut) (a : Nat) (v : Half) : Within true em ok (write16 a v) :=
  within_get_bind fun _ => within_writeAccess h a _

theorem within_loop {body : Nat → Cmd Unit} (h : ∀ k, Within w em ok (body k)) : ∀ n k, Within w em ok (loop body n k)
  | 0, _ => within_pure ()
  | n + 1, k => within_bind (h k) fun _ => within_loop h n (k + 1)

theorem within_gather {item : Nat → Cmd α} (h : ∀ k, Within w em ok (item k)) : ∀ n k, Within w em ok (gather item n k)
  | 0, _ => within_pure []
  | n + 1, k => within_bind (h k) fun _ => within_bind (within_gather h n (k + 1)) fun _ => within_pure _

theorem within_emit (h : ok .cut) (e : Event) : Within w true ok (emit e) := by
  refine within_bind (within_effect h) fun _ s => ?_
  rw [run_modify]
  constructor <;> simp

theorem within_emitAsk (h : ok .cut) (hs : ok .silent) (hb : ok (.raised .bus 0)) (e : Event) :
    Within w true ok (emitAsk e) := by
  intro s
  unfold emitAsk
  cases hc : emit e s with
  | error x t => rw [run_bind_error hc]; exact (within_emit h e).of_error hc
  | ok v t =>
    rw [run_bind_ok hc]
    have hr : Ran w true s t := (within_emit h e).of_ok hc
    have htr : t.trace = s.trace ++ [] ++ [e] := by
      unfold emit at hc
      cases he : effect s with
      | error x u => rw [run_bind_error he] at hc; cases hc
      | ok x u =>
        rw [run_bind_ok he, run_modify] at hc
        injection hc with _ hc
        have hu : Ran false false s u := (within_effect (ok := fun _ => True) trivial).of_ok he
        rw [← hc, State.logged_trace, hu.traceSame rfl, List.append_nil]
    by_cases hask : e.asks = true
    · rw [if_pos hask]
      unfold askTransport
      rw [run_bind_ok (run_ask t), run_get_bind, run_bind, run_answered]
      have hr2 : Ran w true s (t.withEnv { t.env with asked := t.env.asked + 1 }) := hr.trans (by constructor <;> simp)
      have ha : (t.withEnv { t.env with asked := t.env.asked + 1 }).env.answer t.env.asked = t.env.answer t.env.asked := rfl
      rw [ha]
      cases hans : t.env.answer t.env.asked with
      | silent => exact ⟨hr2, hs, t.env.asked, hr.asked, by rw [← hr.answer]; exact hans⟩
      | ok ws => exact hr2
      | fail =>
        cases he : e.canFail
        · exact hr2
        · exact ⟨hr2, hb, fun _ => ⟨[], e, htr, he⟩⟩
    · rw [if_neg hask]
      exact hr

/-- An event that asks for nothing cannot fail and cannot hang. -/
theorem within_emitAsk_plain (h : ok .cut) {e : Event} (he : e.asks = false) : Within w true ok (emitAsk e) := by
  refine within_bind (within_emit h e) fun _ => ?_
  rw [he]
  exact within_pure _

theorem within_emitAll (h : ok .cut) (hs : ok .silent) (hb : ok (.raised .bus 0)) : ∀ es, Within w true ok (emitAll es)
  | [] => within_pure ()
  | e :: es => within_bind (within_emitAsk h hs hb e) fun _ => within_emitAll h hs hb es

theorem within_emitAll_plain (h : ok .cut) : ∀ es : List Event, (∀ e ∈ es, e.asks = false) → Within w true ok (emitAll es)
  | [], _ => within_pure ()
  | e :: es, he =>
    within_bind (within_emitAsk_plain h (he e (by simp))) fun _ => within_emitAll_plain h es fun x hx => he x (by simp [hx])

end

end Sys2Proof.Machine
end

