-- ==== Sys2Proof/Laws/Events.lean ====
section
/-! SUPPORT. Bus events: what a body that emits a known list of events does, by what the transport answers. -/

namespace Sys2Proof.Machine

theorem askCount_append (a b : List Event) : askCount (a ++ b) = askCount a + askCount b := by
  simp [askCount]

theorem askCount_cons (e : Event) (es : List Event) : askCount (e :: es) = (if e.asks then 1 else 0) + askCount es := by
  unfold askCount
  rw [List.filter_cons]
  split <;> simp [Nat.add_comm]

@[simp] theorem askCount_nil : askCount [] = 0 := rfl

variable {s : State}

@[simp] theorem State.emitted_nil (s : State) : s.emitted [] = s := by
  simp only [State.emitted, State.logged, askCount_nil, Nat.add_zero, List.append_nil]
  rfl

@[simp] theorem State.emitted_emitted (s : State) (a b : List Event) : (s.emitted a).emitted b = s.emitted (a ++ b) := by
  simp only [State.emitted, State.logged, State.withEnv, askCount_append, List.append_assoc, Nat.add_assoc]

@[simp] theorem State.emitted_p (es : List Event) : (s.emitted es).p = s.p := rfl
@[simp] theorem State.emitted_cp (es : List Event) : (s.emitted es).cp = s.cp := rfl
@[simp] theorem State.emitted_mem (es : List Event) : (s.emitted es).mem = s.mem := rfl
@[simp] theorem State.emitted_plat (es : List Event) : (s.emitted es).plat = s.plat := rfl
@[simp] theorem State.emitted_trace (es : List Event) : (s.emitted es).trace = s.trace ++ es := rfl
@[simp] theorem State.emitted_asked (es : List Event) : (s.emitted es).env.asked = s.env.asked + askCount es := rfl
@[simp] theorem State.emitted_cut (es : List Event) : (s.emitted es).env.cut = s.env.cut := rfl
@[simp] theorem State.emitted_inFlight (es : List Event) : (s.emitted es).env.inFlight = s.env.inFlight := rfl
@[simp] theorem State.emitted_answer (es : List Event) (n : Nat) : (s.emitted es).env.answer n = s.env.answer n := rfl
@[simp] theorem State.emitted_dataWord (es : List Event) (n k : Nat) : (s.emitted es).env.dataWord n k = s.env.dataWord n k := rfl
@[simp] theorem State.emitted_undisturbed (es : List Event) : (s.emitted es).undisturbed = s.undisturbed := rfl

theorem State.emitted_plain {es : List Event} (h : ∀ e ∈ es, e.asks = false) : s.emitted es = s.logged es := by
  have h0 : askCount es = 0 := by
    unfold askCount
    rw [List.length_eq_zero_iff, List.filter_eq_nil_iff]
    intro e he; simp [h e he]
  simp only [State.emitted, h0, Nat.add_zero]
  rfl

theorem nextOk_mono {n m : Nat} (h : s.nextOk n) (hm : m ≤ n) : s.nextOk m := fun k hk => h k (by omega)

theorem nextOk_emitted {a b : List Event} (h : s.nextOk (askCount (a ++ b))) : (s.emitted a).nextOk (askCount b) := by
  intro k hk
  rw [askCount_append] at h
  obtain ⟨ws, hw⟩ := h (askCount a + k) (by omega)
  exact ⟨ws, by simpa [Nat.add_assoc] using hw⟩

theorem eventData_plain {e : Event} (he : e.asks = false) (env : Env) (n : Nat) : env.eventData e n = [] := by
  have h : e.returns.1 = 0 := by
    simp only [Event.asks, Bool.or_eq_false_iff, bne_eq_false_iff_eq] at he
    exact he.2
  simp [Env.eventData, h]

/-- The body emits exactly these events from this state, each answered in order, and gives this value where all are answered with
`ok`; it stops with `E_BUS(0)` at the first that fails, and hangs at the first that is not answered; whatever the answers, it emits
all of them and ends, or a beginning of them and stops. -/
structure Emits {α : Type} (c : Cmd α) (es : List Event) (v : α) (s : State) : Prop where
  ok : s.nextOk (askCount es) → c s = .ok v (s.emitted es)
  fail : ∀ pre e post, es = pre ++ e :: post → s.nextOk (askCount pre) → e.canFail = true →
    s.env.answer (s.env.asked + askCount pre) = .fail → c s = .error (.raised .bus 0) (s.emitted (pre ++ [e]))
  silent : ∀ pre e post, es = pre ++ e :: post → s.nextOk (askCount pre) → e.asks = true →
    s.env.answer (s.env.asked + askCount pre) = .silent → c s = .error .silent (s.emitted (pre ++ [e]))
  begins : (c s = .ok v (s.emitted es)) ∨ ∃ pre e, pre <+: es ∧ c s = .error e (s.emitted pre)

section
variable {α β : Type}

/-- A body that emits nothing and changes nothing. -/
theorem emits_of_ok {c : Cmd α} {v : α} (h : c s = .ok v s) : Emits c [] v s where
  ok := fun _ => by simpa using h
  fail := fun pre e post he => by simp at he
  silent := fun pre e post he => by simp at he
  begins := Or.inl (by simpa using h)

theorem emits_pure (v : α) : Emits (pure v : Cmd α) [] v s := emits_of_ok rfl

/-- One event. -/
theorem emits_emitAsk (h : s.env.cut = none) (e : Event) : Emits (emitAsk e) [e] (s.env.eventData e s.env.asked) s := by
  have key : e.asks = true → s.asked e = s.emitted [e] := by
    intro he
    simp only [State.asked, State.emitted, askCount_cons, he, if_true, askCount_nil, Nat.add_zero]
  have split1 : ∀ {pre x post}, [e] = pre ++ x :: post → pre = [] ∧ x = e := by
    intro pre x post hx
    cases pre with
    | nil => simp at hx; exact ⟨rfl, hx.1.symm⟩
    | cons y ys => simp at hx
  refine ⟨fun ho => ?_, fun pre x post hx _ hf ha => ?_, fun pre x post hx _ hf ha => ?_, ?_⟩
  · cases he : e.asks
    · rw [run_emitAsk_plain h he, eventData_plain he, State.emitted_plain (by simpa using he)]
    · obtain ⟨ws, hw⟩ := ho 0 (by simp [askCount_cons, he])
      rw [run_emitAsk_asks h he]
      simp only [Nat.add_zero] at hw
      rw [hw, key he]
  · obtain ⟨rfl, rfl⟩ := split1 hx
    have he : x.asks = true := by simp [Event.asks, hf]
    rw [run_emitAsk_asks h he]
    simp only [askCount_nil, Nat.add_zero] at ha
    rw [ha, key he, hf]
    rfl
  · obtain ⟨rfl, rfl⟩ := split1 hx
    rw [run_emitAsk_asks h hf]
    simp only [askCount_nil, Nat.add_zero] at ha
    rw [ha, key hf]
    rfl
  · cases he : e.asks
    · left; rw [run_emitAsk_plain h he, eventData_plain he, State.emitted_plain (by simpa using he)]
    · rw [run_emitAsk_asks h he, key he]
      cases s.env.answer s.env.asked with
      | ok ws => exact Or.inl rfl
      | silent => exact Or.inr ⟨[e], _, List.prefix_refl _, rfl⟩
      | fail =>
        cases hf : e.canFail
        · exact Or.inl (by simp)
        · exact Or.inr ⟨[e], _, List.prefix_refl _, by simp; rfl⟩

/-- One body after the other: the events of the one and then those of the other. -/
theorem emits_bind {c : Cmd α} {f : α → Cmd β} {es es' : List Event} {v : α} {v' : β} (h : Emits c es v s)
    (g : Emits (f v) es' v' (s.emitted es)) : Emits (c >>= f) (es ++ es') v' s := by
  refine ⟨fun ho => ?_, fun pre x post hx hp hf ha => ?_, fun pre x post hx hp hf ha => ?_, ?_⟩
  · rw [run_bind_ok (h.ok (nextOk_mono ho (by rw [askCount_append]; omega))), g.ok (nextOk_emitted ho), State.emitted_emitted]
  · rcases List.append_eq_append_iff.1 hx with ⟨q, rfl, h2⟩ | ⟨q, h1, h2⟩
    · have hp1 := nextOk_mono hp (by rw [askCount_append]; omega : askCount es ≤ _)
      rw [run_bind_ok (h.ok hp1), g.fail q x post h2 (nextOk_emitted hp) hf (by
        simpa [askCount_append, Nat.add_assoc] using ha), State.emitted_emitted, List.append_assoc]
    · cases q with
      | nil =>
        simp only [List.append_nil, List.nil_append] at h1 h2
        subst h1
        rw [run_bind_ok (h.ok hp), g.fail [] x post h2.symm (fun k hk => absurd hk (by simp)) hf (by simpa using ha),
          State.emitted_emitted, List.nil_append]
      | cons y ys =>
        simp only [List.cons_append, List.cons.injEq] at h2
        obtain ⟨rfl, rfl⟩ := h2
        exact run_bind_error (h.fail pre x ys h1 hp hf ha)
  · rcases List.append_eq_append_iff.1 hx with ⟨q, rfl, h2⟩ | ⟨q, h1, h2⟩
    · have hp1 := nextOk_mono hp (by rw [askCount_append]; omega : askCount es ≤ _)
      rw [run_bind_ok (h.ok hp1), g.silent q x post h2 (nextOk_emitted hp) hf (by
        simpa [askCount_append, Nat.add_assoc] using ha), State.emitted_emitted, List.append_assoc]
    · cases q with
      | nil =>
        simp only [List.append_nil, List.nil_append] at h1 h2
        subst h1
        rw [run_bind_ok (h.ok hp), g.silent [] x post h2.symm (fun k hk => absurd hk (by simp)) hf (by simpa using ha),
          State.emitted_emitted, List.nil_append]
      | cons y ys =>
        simp only [List.cons_append, List.cons.injEq] at h2
        obtain ⟨rfl, rfl⟩ := h2
        exact run_bind_error (h.silent pre x ys h1 hp hf ha)
  · rcases h.begins with h1 | ⟨pre, e, h1, h2⟩
    · rw [run_bind_ok h1]
      rcases g.begins with g1 | ⟨pre, e, g1, g2⟩
      · left; rw [g1, State.emitted_emitted]
      · right; exact ⟨es ++ pre, e, (List.prefix_append_right_inj es).2 g1, by rw [g2, State.emitted_emitted]⟩
    · right; exact ⟨pre, e, h1.trans (List.prefix_append _ _), run_bind_error h2⟩

/-- Events one after the other. -/
theorem emits_emitAll : ∀ (es : List Event) (s : State), s.env.cut = none → Emits (emitAll es) es () s
  | [], _, _ => emits_pure ()
  | e :: es, s, h => emits_bind (es := [e]) (emits_emitAsk h e) (emits_emitAll es (s.emitted [e]) h)

/-- A list gathered from items that emit. -/
theorem emits_gather {item : Nat → Cmd α} {ev : Nat → List Event} {val : Nat → α} : ∀ (n k : Nat) (s : State),
    (∀ j, k ≤ j → j < k + n → ∀ t, t = s.emitted ((List.range' k (j - k)).flatMap ev) → Emits (item j) (ev j) (val j) t) →
    Emits (gather item n k) ((List.range' k n).flatMap ev) ((List.range' k n).map val) s
  | 0, k, s, _ => emits_pure []
  | n + 1, k, s, h => by
    have h0 := h k (le_refl _) (by omega) s (by simp)
    have ih := emits_gather (item := item) (ev := ev) (val := val) n (k + 1) (s.emitted (ev k)) fun j h1 h2 t ht =>
      h j (by omega) (by omega) t (by
        rw [ht, State.emitted_emitted]
        congr 1
        obtain ⟨d, rfl⟩ : ∃ d, j = k + 1 + d := ⟨j - (k + 1), by omega⟩
        have e1 : k + 1 + d - (k + 1) = d := by omega
        have e2 : k + 1 + d - k = d + 1 := by omega
        rw [e1, e2, List.range'_succ, List.flatMap_cons])
    have hb := emits_bind (f := fun v => gather item n (k + 1) >>= fun vs => pure (v :: vs)) h0
      (emits_bind (f := fun vs => (pure (val k :: vs) : Cmd (List α))) ih (emits_pure (val k :: (List.range' (k + 1) n).map val)))
    simp only [List.append_nil] at hb
    rw [List.range'_succ, List.flatMap_cons, List.map_cons]
    exact hb

end

end Sys2Proof.Machine
end

