-- ==== Sys2Proof/Laws/Checks.lean ====
section
/-! SUPPORT. The numbered checks of a command: a body that begins with checks raises the first that fails, and otherwise goes on from
the same state. -/

namespace Sys2Proof.Machine

@[simp] theorem firstFault_nil : Checks.firstFault [] = none := rfl

theorem firstFault_cons (b : Bool) (c : FaultCode) (i : Word) (cs : Checks) :
    Checks.firstFault ((b, c, i) :: cs) = if b then some (c, i) else cs.firstFault := by
  unfold Checks.firstFault
  cases b <;> simp

theorem firstFault_append (xs ys : Checks) : Checks.firstFault (xs ++ ys) = (xs.firstFault).or ys.firstFault := by
  unfold Checks.firstFault
  rw [List.find?_append]
  cases xs.find? (fun c => c.1) <;> simp

theorem pass_iff {cs : Checks} : cs.pass ↔ cs.firstFault = none := by
  simp only [Checks.pass, Checks.firstFault, Option.map_eq_none_iff, List.find?_eq_none]
  constructor
  · intro h c hc; simp [h c hc]
  · intro h c hc; simpa using h c hc

/-- The first fault of a list of access checks is `E_ACCESS` with the start of the first bad range. -/
theorem firstFault_ranges (p : Config.Platform) (rs : List AccessRange) :
    Checks.firstFault (rs.map (rangeCheck p)) = (firstBad p rs).map fun r => (.access, BitVec.ofNat 32 r.base) := by
  induction rs with
  | nil => rfl
  | cons r rs ih =>
    rw [List.map_cons, show rangeCheck p r = (!rangeOk p r, .access, BitVec.ofNat 32 r.base) from rfl, firstFault_cons, ih]
    unfold firstBad
    rw [List.find?_cons]
    cases rangeOk p r <;> simp

theorem decide_eq_not_bne {α : Type} [DecidableEq α] (a b : α) : decide (a = b) = !(a != b) := by
  by_cases h : a = b <;> simp [h]

variable {α : Type} {s : State}

/-- From this state the body raises the first check that fails, changing nothing, and goes on as `k` where none does. -/
def Guards (c : Cmd α) (cs : Checks) (k : Cmd α) (s : State) : Prop :=
  c s = match cs.firstFault with
    | some (f, i) => .error (.raised f i) s
    | none => k s

theorem Guards.pass {c k : Cmd α} {cs : Checks} (h : Guards c cs k s) (hp : cs.pass) : c s = k s := by
  rw [h, pass_iff.1 hp]

theorem Guards.fault {c k : Cmd α} {cs : Checks} (h : Guards c cs k s) {f : FaultCode} {i : Word}
    (hf : cs.firstFault = some (f, i)) : c s = .error (.raised f i) s := by
  rw [h, hf]

theorem guards_nil {c k : Cmd α} (h : c s = k s) : Guards c [] k s := h

theorem guards_get {f : State → Cmd α} {cs : Checks} {k : Cmd α} (h : Guards (f s) cs k s) : Guards (get >>= f) cs k s := by
  unfold Guards; rw [run_get_bind]; exact h

theorem guards_require {b b' : Bool} {c : FaultCode} {i : Word} {f : Unit → Cmd α} {cs : Checks} {k : Cmd α} (hb : b' = !b)
    (h : b = false → Guards (f ()) cs k s) : Guards (require b' c i >>= f) ((b, c, i) :: cs) k s := by
  subst hb
  unfold Guards
  rw [run_require_bind, firstFault_cons]
  cases hb : b
  · exact h hb
  · rfl

theorem guards_access {rs : List AccessRange} {f : Unit → Cmd α} {cs : Checks} {k : Cmd α} (h : Guards (f ()) cs k s) :
    Guards (requireAccess rs >>= f) (rs.map (rangeCheck s.plat) ++ cs) k s := by
  unfold Guards
  rw [run_requireAccess_bind, firstFault_append, firstFault_ranges]
  cases hb : firstBad s.plat rs with
  | none => exact h
  | some r => rfl

/-- Checks before a body that has checks of its own. -/
theorem guards_bind {c : Cmd Unit} {f : Unit → Cmd α} {cs cs' : Checks} {k : Cmd α} (h : Guards c cs (pure ()) s)
    (g : Guards (f ()) cs' k s) : Guards (c >>= f) (cs ++ cs') k s := by
  unfold Guards at h ⊢
  rw [run_bind, h, firstFault_append]
  cases cs.firstFault with
  | none => exact g
  | some x => rfl

/-! ## The outcome of a body -/

theorem run_body_ok {body : Cmd Unit} {s t : State} (h : body s = .ok () t) : runBody body s = .next t.advance := by
  rw [runBody, h]; rfl

theorem run_body_raised {body : Cmd Unit} {s t : State} {c : FaultCode} {i : Word} (h : body s = .error (.raised c i) t) :
    runBody body s = .next (t.raiseFault c i) := by
  rw [runBody, h]; rfl

/-- Every way a command's body becomes a next state. -/
theorem runBody_next {body : Cmd Unit} {s t : State} (h : runBody body s = .next t) :
    (∃ u, body s = .ok () u ∧ t = u.advance) ∨ (∃ c i u, body s = .error (.raised c i) u ∧ t = u.raiseFault c i) ∨
    (∃ u, body s = .error .cut u ∧ t = u.resetInput) ∨
    ∃ u, body s = .error .silent u ∧ u.env.cut.isSome = true ∧ t = u.resetInput := by
  unfold runBody at h
  cases hb : body s with
  | ok v u => rw [hb] at h; left; exact ⟨u, rfl, by injection h with h; exact h.symm⟩
  | error e u =>
    rw [hb] at h
    cases e with
    | raised c i => right; left; exact ⟨c, i, u, rfl, by injection h with h; exact h.symm⟩
    | cut => right; right; left; exact ⟨u, rfl, by injection h with h; exact h.symm⟩
    | silent =>
      right; right; right
      simp only [finish] at h
      split at h
      · exact ⟨u, rfl, ‹_›, by injection h with h; exact h.symm⟩
      · cases h

/-- The only stop of a body is silence, where no reset is on its way. -/
theorem runBody_stop {body : Cmd Unit} {s : State} (h : ∀ t, runBody body s ≠ .next t) :
    runBody body s = .fault .transportSilent ∧ ∃ u, body s = .error .silent u ∧ u.env.cut = none := by
  unfold runBody at h ⊢
  cases hb : body s with
  | ok v u => rw [hb] at h; exact absurd rfl (h _)
  | error e u =>
    rw [hb] at h
    cases e with
    | raised c i => exact absurd rfl (h _)
    | cut => exact absurd rfl (h _)
    | silent =>
      simp only [finish] at h ⊢
      split at h
      · exact absurd rfl (h _)
      · rename_i hc
        simp only [Option.not_isSome_iff_eq_none] at hc
        exact ⟨by simp [hc], u, rfl, hc⟩

end Sys2Proof.Machine
end

