-- ==== Sys2Proof/Laws/Convert.lean ====
section
/-! SUPPORT. The conversions: their checks, what their bodies can do on any state, and what they compute on an undisturbed one. -/

namespace Sys2Proof.Machine

/-! ## Loops -/

theorem loop_skip (n k : Nat) (s : State) : loop (fun _ => pure ()) n k s = .ok () s := by
  induction n generalizing k with
  | zero => rfl
  | succ n ih => unfold loop; rw [run_pure_bind]; exact ih (k + 1)

/-- A loop whose rounds only change memory, each round by `f k`. -/
theorem run_loop_mem {body : Nat → Cmd Unit} {f : Nat → Memory → Memory} {s : State}
    (hb : ∀ k m, body k (s.withMem m) = .ok () (s.withMem (f k m))) (n : Nat) (m : Memory) :
    loop body n 0 (s.withMem m) = .ok () (s.withMem ((List.range n).foldl (fun m k => f k m) m)) := by
  rw [run_loop body f s hb n 0 m, List.range_eq_range']

@[simp] theorem withMem_self (s : State) : s.withMem s.mem = s := rfl

@[simp] theorem withMem_withMem (s : State) (m m' : Memory) : (s.withMem m).withMem m' = s.withMem m' := rfl

@[simp] theorem withMem_undisturbed (s : State) (m : Memory) : (s.withMem m).undisturbed = s.undisturbed := rfl

/-! ## The framebuffer conversions -/

/-- What `convert` does once its checks have passed; on an empty clip the loops have no round. -/
def pixels (s : State) (pixel : Params → Nat → Nat → Cmd Unit) : Cmd Unit :=
  loop (fun j => loop (fun i => pixel s.p i j) s.p.cw 0) s.p.ch 0

theorem pixels_empty {s : State} {pixel : Params → Nat → Nat → Cmd Unit} (h : s.p.cw = 0 ∨ s.p.ch = 0) :
    pixels s pixel s = .ok () s := by
  unfold pixels
  rcases h with h | h
  · rw [h]; exact loop_skip _ _ _
  · rw [h]; rfl

theorem clipEmpty_iff (p : Params) : p.clipEmpty = true ↔ p.cw = 0 ∨ p.ch = 0 := by simp [Params.clipEmpty]

/-- `convert` makes its checks in the order of `conv_checks` and then does its pixels. -/
theorem guards_convert (c : Conversion) (pixel : Params → Nat → Nat → Cmd Unit) (s : State) :
    Guards (convert c pixel) (conversionChecks c.format c.sb c.db c.rgbTarget c.gamma s) (pixels s pixel) s := by
  unfold convert conversionChecks
  apply guards_get
  simp only [List.cons_append, List.nil_append]
  refine guards_require (decide_eq_not_bne _ _) fun _ => guards_require (by
    rw [Bool.not_not]
    apply Bool.eq_iff_iff.2
    simp only [Params.clipOrdered, Params.clipInside, BitVec.le_def, Bool.and_eq_true, decide_eq_true_eq]
    tauto) fun _ => guards_require (by simp [bne]; try rfl) fun _ => ?_
  split
  · rename_i h
    rw [if_pos ((clipEmpty_iff _).1 h)]
    exact guards_nil (pixels_empty ((clipEmpty_iff _).1 h)).symm
  · rename_i h
    rw [if_neg (fun x => h ((clipEmpty_iff _).2 x))]
    refine guards_require (decide_eq_not_bne _ _) fun _ => guards_require (decide_eq_not_bne _ _) fun _ => ?_
    have e : (List.range s.p.ch).map (fun j => rangeCheck s.plat
          { base := s.p.src.toNat + ((s.p.cy1.toNat + j) * s.p.fbw.toNat + s.p.cx1.toNat) * c.sb, size := s.p.cw * c.sb,
            kind := .rd }) ++
        (if c.gamma then [rangeCheck s.plat { base := s.p.lutb.toNat, size := 256, kind := .rd }] else []) ++
        [rangeCheck s.plat { base := s.p.dst.toNat, size := s.p.cw * s.p.ch * c.db, kind := .wr }] =
        (conversionRanges s.p c).map (rangeCheck s.plat) ++ [] := by
      unfold conversionRanges rowRanges
      cases c.gamma <;> simp [Params.clipSrc, Params.fbAddr]
    rw [e]
    exact guards_access (guards_nil rfl)

/-! ## What the bodies can do on any state -/

theorem within_pixels (s : State) {pixel : Params → Nat → Nat → Cmd Unit}
    (h : ∀ p i j, Within true false onlyCut (pixel p i j)) : Within true false onlyCut (pixels s pixel) :=
  within_loop (fun _ => within_loop (fun _ => h _ _ _) _ _) _ _

theorem within_copyPixel (p : Params) (i j : Nat) : Within true false onlyCut (copyPixel p i j) :=
  within_bind (within_read8 _) fun _ => within_bind (within_write8 onlyCut_cut _ _) fun _ =>
    within_bind (within_read8 _) fun _ => within_write8 onlyCut_cut _ _

theorem within_swapPixel (p : Params) (i j : Nat) : Within true false onlyCut (swapPixel p i j) :=
  within_bind (within_read8 _) fun _ => within_bind (within_read8 _) fun _ =>
    within_bind (within_write8 onlyCut_cut _ _) fun _ => within_write8 onlyCut_cut _ _

theorem within_truncPixel (p : Params) (i j : Nat) : Within true false onlyCut (truncPixel p i j) :=
  within_bind (within_read32 _) fun _ => within_write16 onlyCut_cut _ _

theorem within_grayPixel (gamma : Bool) (p : Params) (i j : Nat) : Within true false onlyCut (grayPixel gamma p i j) := by
  refine within_bind (within_read16 _) fun x => ?_
  cases gamma
  · exact within_bind (within_pure _) fun _ => within_write8 onlyCut_cut _ _
  · exact within_bind (within_read8 _) fun _ => within_write8 onlyCut_cut _ _

theorem within_spreadTo (b : Bool) (a : Nat) (e : Int) : Within true false onlyCut (spreadTo b a e) := by
  unfold spreadTo
  split
  · exact within_bind (within_read8 _) fun _ => within_write8 onlyCut_cut _ _
  · exact within_pure _

theorem within_ditherPixel (base cw ch x y : Nat) : Within true false onlyCut (ditherPixel base cw ch x y) :=
  within_bind (within_read8 _) fun _ => within_bind (within_write8 onlyCut_cut _ _) fun _ =>
    within_bind (within_spreadTo _ _ _) fun _ => within_bind (within_spreadTo _ _ _) fun _ => within_spreadTo _ _ _

theorem within_packGroup (src dst k : Nat) : Within true false onlyCut (packGroup src dst k) :=
  within_bind (within_gather (fun _ => within_read8 _) _ _) fun _ => within_write8 onlyCut_cut _ _

/-! ## `DITHER` and `PACK1` -/

/-- What `DITHER` does once its checks have passed. -/
def ditherLoop (s : State) : Cmd Unit :=
  loop (fun x => loop (fun y => ditherPixel s.p.dst.toNat s.p.cw s.p.ch x y) s.p.ch 0) s.p.cw 0

theorem within_ditherLoop (s : State) : Within true false onlyCut (ditherLoop s) :=
  within_loop (fun _ => within_loop (fun _ => within_ditherPixel _ _ _ _ _) _ _) _ _

theorem guards_dither (s : State) : Guards ditherBody (ditherChecks s) (ditherLoop s) s := by
  unfold ditherBody ditherChecks
  apply guards_get
  simp only [List.cons_append, List.nil_append]
  refine guards_require (by
    simp only [Params.clipOrdered, BitVec.le_def, Bool.not_not]) fun _ => ?_
  split
  · rename_i h
    have h' := (clipEmpty_iff _).1 h
    rw [if_pos h']
    refine guards_nil ?_
    unfold ditherLoop
    rcases h' with h' | h'
    · rw [h']; rfl
    · rw [h']; exact (loop_skip _ _ _).symm
  · rename_i h
    rw [if_neg (fun x => h ((clipEmpty_iff _).2 x))]
    exact guards_access (rs := [_, _]) (cs := []) (guards_nil rfl)

/-- What `PACK1` does once its checks have passed. -/
def packLoop (s : State) : Cmd Unit := loop (packGroup s.p.src.toNat s.p.dst.toNat) (s.p.cw * s.p.ch / 8) 0

theorem within_packLoop (s : State) : Within true false onlyCut (packLoop s) := within_loop (fun _ => within_packGroup _ _ _) _ _

theorem guards_pack1 (s : State) : Guards pack1Body (pack1Checks s) (packLoop s) s := by
  unfold pack1Body pack1Checks
  apply guards_get
  simp only [List.cons_append, List.nil_append]
  refine guards_require (by
    simp only [Params.clipOrdered, BitVec.le_def, Bool.not_not]) fun _ => guards_require (decide_eq_not_bne _ _) fun _ => ?_
  split
  · rename_i h
    have h' := (clipEmpty_iff _).1 h
    rw [if_pos h']
    refine guards_nil ?_
    unfold packLoop
    rcases h' with h' | h' <;> rw [h'] <;> simp <;> rfl
  · rename_i h
    rw [if_neg (fun x => h ((clipEmpty_iff _).2 x))]
    exact guards_access (rs := [_, _]) (cs := []) (guards_nil rfl)

/-! ## Pixels on an undisturbed state -/

variable {s : State}

theorem read8_mem (h : s.undisturbed = true) (m : Memory) (a : Nat) :
    read8 a (s.withMem m) = .ok (memByte m a) (s.withMem m) := run_read8 (s := s.withMem m) h a

theorem read16_mem (h : s.undisturbed = true) (m : Memory) (a : Nat) :
    read16 a (s.withMem m) = .ok (memHalf s.plat.memBE m a) (s.withMem m) := run_read16 (s := s.withMem m) h a

theorem read32_mem (h : s.undisturbed = true) (m : Memory) (a : Nat) :
    read32 a (s.withMem m) = .ok (memWord s.plat.memBE m a) (s.withMem m) := run_read32 (s := s.withMem m) h a

theorem write8_mem (h : s.undisturbed = true) (m : Memory) (a : Nat) (v : Byte) :
    write8 a v (s.withMem m) = .ok () (s.withMem (memStore m a v)) := run_write8 (s := s.withMem m) h a v

theorem write16_mem (h : s.undisturbed = true) (m : Memory) (a : Nat) (v : Half) :
    write16 a v (s.withMem m) = .ok () (s.withMem (memStores m a (bytes2 s.plat.memBE v))) :=
  run_write16 (s := s.withMem m) h a v

theorem run_copyPixel (h : s.undisturbed = true) (p : Params) (i j : Nat) (m : Memory) :
    copyPixel p i j (s.withMem m) = .ok () (s.withMem (copied p i j m)) := by
  unfold copyPixel
  rw [run_bind_ok (read8_mem h _ _), run_bind_ok (write8_mem h _ _ _), run_bind_ok (read8_mem h _ _)]
  exact write8_mem h _ _ _

theorem run_swapPixel (h : s.undisturbed = true) (p : Params) (i j : Nat) (m : Memory) :
    swapPixel p i j (s.withMem m) = .ok () (s.withMem (swapped p i j m)) := by
  unfold swapPixel
  rw [run_bind_ok (read8_mem h _ _), run_bind_ok (read8_mem h _ _), run_bind_ok (write8_mem h _ _ _)]
  exact write8_mem h _ _ _

/-- The two formulas of 42_pixel_conversion.md R186 agree. -/
theorem truncate565_eq (x : Word) :
    truncate565 x = (((x >>> 8) &&& 0xF800) ||| ((x >>> 5) &&& 0x07E0) ||| ((x >>> 3) &&& 0x001F)).setWidth 16 := by
  apply BitVec.eq_of_getLsbD_eq
  intro i hi
  unfold truncate565
  simp only [BitVec.getLsbD_append, BitVec.getLsbD_extractLsb', BitVec.getLsbD_setWidth, BitVec.getLsbD_or, BitVec.getLsbD_and,
    BitVec.getLsbD_ushiftRight]
  interval_cases i <;> simp

theorem run_truncPixel (h : s.undisturbed = true) (p : Params) (i j : Nat) (m : Memory) :
    truncPixel p i j (s.withMem m) = .ok () (s.withMem (truncated s.plat.memBE p i j m)) := by
  unfold truncPixel
  rw [run_bind_ok (read32_mem h _ _)]
  refine (write16_mem h _ _ _).trans ?_
  rw [truncate565_eq]
  rfl

/-- The luma, in the terms of the statements. -/
theorem luma_eq (x : Half) :
    luma x = (299 * (x >>> 11).toNat + 587 * ((x >>> 5) &&& 0x3F).toNat + 114 * (x &&& 0x1F).toNat + 100) / 200 := by
  have h1 : (x.extractLsb' 11 5).toNat = (x >>> 11).toNat := by
    simp only [BitVec.extractLsb'_toNat, BitVec.toNat_ushiftRight]
    have := x.isLt
    rw [Nat.shiftRight_eq_div_pow]
    omega
  have h2 : (x.extractLsb' 5 6).toNat = ((x >>> 5) &&& 0x3F).toNat := by
    have : x.extractLsb' 5 6 = ((x >>> 5) &&& 0x3F).setWidth 6 := by
      apply BitVec.eq_of_getLsbD_eq
      intro i hi
      simp only [BitVec.getLsbD_extractLsb', BitVec.getLsbD_setWidth, BitVec.getLsbD_and, BitVec.getLsbD_ushiftRight]
      interval_cases i <;> simp
    rw [this, BitVec.toNat_setWidth, Nat.mod_eq_of_lt]
    rw [BitVec.toNat_and]
    exact Nat.lt_of_le_of_lt Nat.and_le_right (by decide)
  have h3 : (x.extractLsb' 0 5).toNat = (x &&& 0x1F).toNat := by
    have : x.extractLsb' 0 5 = (x &&& 0x1F).setWidth 5 := by
      apply BitVec.eq_of_getLsbD_eq
      intro i hi
      simp only [BitVec.getLsbD_extractLsb', BitVec.getLsbD_setWidth, BitVec.getLsbD_and]
      interval_cases i <;> simp
    rw [this, BitVec.toNat_setWidth, Nat.mod_eq_of_lt]
    rw [BitVec.toNat_and]
    exact Nat.lt_of_le_of_lt Nat.and_le_right (by decide)
  rw [luma, lumaSum, h1, h2, h3]

theorem run_grayPixel (h : s.undisturbed = true) (gamma : Bool) (p : Params) (i j : Nat) (m : Memory) :
    grayPixel gamma p i j (s.withMem m) = .ok () (s.withMem (grayed s.plat.memBE gamma p i j m)) := by
  unfold grayPixel
  rw [run_bind_ok (read16_mem h _ _)]
  unfold grayed grayOf
  rw [← luma_eq]
  cases gamma
  · exact write8_mem h _ _ _
  · rw [if_pos rfl, run_bind_ok (read8_mem h _ _)]
    exact write8_mem h _ _ _

/-- A conversion's pixels on an undisturbed state: the fold of its pixel over the clip. -/
theorem run_pixels {pixel : Params → Nat → Nat → Cmd Unit} {f : Nat → Nat → Memory → Memory}
    (h : ∀ i j m, pixel s.p i j (s.withMem m) = .ok () (s.withMem (f i j m))) :
    pixels s pixel s = .ok () (s.withMem (eachPixel s.p f s.mem)) := by
  unfold pixels eachPixel
  have h1 := run_loop_mem (s := s) (f := fun j m => (List.range s.p.cw).foldl (fun m i => f i j m) m)
    (body := fun j => loop (fun i => pixel s.p i j) s.p.cw 0) (fun j m => run_loop_mem (fun i m => h i j m) _ m) s.p.ch s.mem
  exact h1

theorem run_spreadTo (h : s.undisturbed = true) (base cw ch : Nat) (e8 w : Int) (x y : Nat) (b : Bool) (a : Nat) (m : Memory)
    (hb : b = decide (x < cw ∧ y < ch)) (ha : a = base + y * cw + x) :
    spreadTo b a (e8 * w) (s.withMem m) = .ok () (s.withMem (spread base cw ch e8 w x y m)) := by
  subst hb ha
  unfold spreadTo spread
  by_cases hc : x < cw ∧ y < ch
  · simp only [hc, and_self, decide_true, if_true]
    rw [run_bind_ok (read8_mem h _ _)]
    refine (write8_mem h _ _ _).trans ?_
    unfold diffuse
    rw [show max (0 : Int) (min 255 ((memByte m (base + y * cw + x)).toNat + e8 * w)) =
      min (max ((memByte m (base + y * cw + x)).toNat + e8 * w) 0) 255 by omega]
  · simp only [hc, decide_false, if_false]
    rfl

theorem run_ditherPixel (h : s.undisturbed = true) (base cw ch x y : Nat) (hx : x < cw) (hy : y < ch) (m : Memory) :
    ditherPixel base cw ch x y (s.withMem m) = .ok () (s.withMem (dithered base cw ch x y m)) := by
  unfold ditherPixel dithered
  have hq : quantise (memByte m (base + y * cw + x)) = if (memByte m (base + y * cw + x)).toNat ≥ 128 then 255 else 0 := rfl
  rw [run_bind_ok (read8_mem h _ _), run_bind_ok (write8_mem h _ _ _)]
  rw [run_bind_ok (run_spreadTo h base cw ch _ 3 x (y + 1) _ _ _ (by simp [hx]) (by ring))]
  rw [run_bind_ok (run_spreadTo h base cw ch _ 3 (x + 1) y _ _ _ (by simp [hy]) (by ring))]
  exact run_spreadTo h base cw ch _ 2 (x + 1) (y + 1) _ _ _ (by simp) (by ring)

/-- A loop whose rounds only change memory, where the round's number may be used. -/
theorem run_loop_lt {body : Nat → Cmd Unit} {f : Nat → Memory → Memory} {s : State} {n : Nat}
    (hb : ∀ k < n, ∀ m, body k (s.withMem m) = .ok () (s.withMem (f k m))) : ∀ (d k : Nat) (m : Memory), k + d ≤ n →
    loop body d k (s.withMem m) = .ok () (s.withMem ((List.range' k d).foldl (fun m k => f k m) m))
  | 0, k, m, _ => by simp [loop]
  | d + 1, k, m, hk => by
    unfold loop
    rw [run_bind_ok (hb k (by omega) m), run_loop_lt hb d (k + 1) _ (by omega), List.range'_succ, List.foldl_cons]

theorem run_ditherLoop (h : s.undisturbed = true) :
    ditherLoop s s = .ok () (s.withMem (ditherAll s.p.dst.toNat s.p.cw s.p.ch s.mem)) := by
  unfold ditherLoop ditherAll
  rw [List.range_eq_range', List.range_eq_range']
  exact run_loop_lt (s := s) (n := s.p.cw)
    (f := fun x m => (List.range' 0 s.p.ch).foldl (fun m y => dithered s.p.dst.toNat s.p.cw s.p.ch x y m) m)
    (fun x hx m => run_loop_lt (fun y hy m => run_ditherPixel h _ _ _ x y hx hy m) s.p.ch 0 m (by omega)) s.p.cw 0 s.mem (by omega)

/-- The packed byte, in the terms of the statements. -/
theorem packBits_eq (m : Memory) (a : Nat) :
    packBits ((List.range' 0 8).map fun t => memByte m (a + t)) = packedByte m a := by
  have hb : ∀ b : Byte, (b >>> 7) = BitVec.ofNat 8 (b.toNat / 128) := by
    intro b; apply BitVec.eq_of_toNat_eq; have := b.isLt
    simp only [BitVec.toNat_ushiftRight, BitVec.toNat_ofNat, Nat.shiftRight_eq_div_pow]; omega
  have hstep : ∀ (o b : Byte) (n : Nat), o = BitVec.ofNat 8 n → (o <<< 1 ||| b >>> 7) = BitVec.ofNat 8 (2 * n + b.toNat / 128) := by
    intro o b n ho
    have hlt : b.toNat / 128 < 2 := by have := b.isLt; omega
    have e : (o <<< 1 ||| b >>> 7) = o <<< 1 + b >>> 7 := by
      symm
      apply BitVec.add_eq_or_of_and_eq_zero
      apply BitVec.eq_of_getLsbD_eq
      intro i hi
      simp only [BitVec.getLsbD_and, BitVec.getLsbD_shiftLeft, BitVec.getLsbD_ushiftRight, BitVec.getLsbD_zero]
      by_cases h0 : i = 0
      · simp [h0]
      · rw [BitVec.getLsbD_of_ge b (7 + i) (by omega)]; simp
    rw [e, ho, hb]
    apply BitVec.eq_of_toNat_eq
    simp only [BitVec.toNat_add, BitVec.toNat_shiftLeft, BitVec.toNat_ofNat, Nat.shiftLeft_eq]
    omega
  have key : ∀ (l : List Nat) (o : Byte) (n : Nat), o = BitVec.ofNat 8 n →
      (l.map fun t => memByte m (a + t)).foldl (fun (o b : Byte) => (o <<< 1) ||| (b >>> 7)) o =
        BitVec.ofNat 8 (l.foldl (fun n t => 2 * n + (memByte m (a + t)).toNat / 128) n) := by
    intro l
    induction l with
    | nil => intro o n h; exact h
    | cons t l ih => intro o n h; exact ih _ _ (hstep o _ n h)
  rw [packBits, packedByte, List.range_eq_range']
  exact key _ 0 0 rfl

theorem run_packGroup (h : s.undisturbed = true) (src dst k : Nat) (m : Memory) :
    packGroup src dst k (s.withMem m) = .ok () (s.withMem (memStore m (dst + k) (packedByte m (src + 8 * k)))) := by
  unfold packGroup
  rw [run_bind_ok (run_gather _ (fun t => memByte m (src + 8 * k + t)) _ (fun t => read8_mem h _ _) 8 0)]
  refine (write8_mem h _ _ _).trans ?_
  rw [packBits_eq]

theorem run_packLoop (h : s.undisturbed = true) :
    packLoop s s = .ok () (s.withMem (packAll s.p.src.toNat s.p.dst.toNat (s.p.cw * s.p.ch / 8) s.mem)) :=
  run_loop_mem (s := s) (f := fun k m => memStore m (s.p.dst.toNat + k) (packedByte m (s.p.src.toNat + 8 * k)))
    (fun k m => run_packGroup h _ _ k m) _ s.mem

end Sys2Proof.Machine
end

