-- ==== Sys2Proof/Laws/Damage.lean ====
section
/-! SUPPORT. Damage: the algebra of union and clamp, and the body of `MERGE`. -/

namespace Sys2Proof.Machine

@[simp] theorem minHalf_toNat (a b : Half) : (minHalf a b).toNat = min a.toNat b.toNat := by
  unfold minHalf
  simp only [BitVec.le_def]
  split <;> omega

@[simp] theorem maxHalf_toNat (a b : Half) : (maxHalf a b).toNat = max a.toNat b.toNat := by
  unfold maxHalf
  simp only [BitVec.le_def]
  split <;> omega

theorem Rect.eq_of_toNat {r s : Rect} (h1 : r.x1.toNat = s.x1.toNat) (h2 : r.y1.toNat = s.y1.toNat)
    (h3 : r.x2.toNat = s.x2.toNat) (h4 : r.y2.toNat = s.y2.toNat) : r = s := by
  cases r; cases s
  simp only [Rect.mk.injEq]
  exact ⟨BitVec.eq_of_toNat_eq h1, BitVec.eq_of_toNat_eq h2, BitVec.eq_of_toNat_eq h3, BitVec.eq_of_toNat_eq h4⟩

theorem lastIndex_toNat (w : Half) : (lastIndex w).toNat = if 0 < w.toNat then w.toNat - 1 else 0 := by
  unfold lastIndex
  have hw := w.isLt
  split
  · subst_vars; rfl
  · rename_i h
    have : w.toNat ≠ 0 := fun x => h (BitVec.eq_of_toNat_eq x)
    rw [if_pos (by omega), BitVec.toNat_sub]
    have h1 : (1 : Half).toNat = 1 := rfl
    rw [h1]
    omega

theorem Rect.union_comm (r s : Rect) : r.union s = s.union r := by
  apply Rect.eq_of_toNat <;> simp only [Rect.union, minHalf_toNat, maxHalf_toNat] <;> omega

theorem Rect.union_assoc (r s u : Rect) : (r.union s).union u = r.union (s.union u) := by
  apply Rect.eq_of_toNat <;> simp only [Rect.union, minHalf_toNat, maxHalf_toNat] <;> omega

theorem Rect.union_self (r : Rect) : r.union r = r := by
  apply Rect.eq_of_toNat <;> simp [Rect.union]

theorem Rect.clamp_clamp (r : Rect) (w h : Half) : (r.clamp w h).clamp w h = r.clamp w h := by
  apply Rect.eq_of_toNat <;> simp [Rect.clamp]

theorem Rect.clamp_union (r s : Rect) (w h : Half) : (r.union s).clamp w h = (r.clamp w h).union (s.clamp w h) := by
  apply Rect.eq_of_toNat <;> simp [Rect.clamp, Rect.union] <;> omega

/-! ## `MERGE` -/

/-- What `MERGE` does once its checks have passed. -/
def mergeRest (copy : Bool) (s : State) : Cmd Unit := do
  let rects ← gather (fun k => readRect (s.p.src.toNat + 8 * k)) (s.rectCount copy) 0
  modify (·.mergeCore rects)

theorem guards_merge (copy : Bool) (s : State) : Guards (mergeBody copy) (mergeChecks copy s) (mergeRest copy s) s := by
  unfold mergeBody mergeChecks mergeRest
  apply guards_get
  dsimp only
  by_cases h : s.rectCount copy = 0
  · rw [if_pos h, if_pos h, h]
    exact guards_nil rfl
  · rw [if_neg h, if_neg h]
    refine guards_require (decide_eq_not_bne (s.p.src.toNat % 2) 0) fun _ => ?_
    exact guards_access (rs := [_]) (cs := []) (guards_nil rfl)

theorem within_readRect {w em : Bool} {ok : Stop → Prop} (a : Nat) : Within w em ok (readRect a) :=
  within_bind (within_read16 _) fun _ => within_bind (within_read16 _) fun _ => within_bind (within_read16 _) fun _ =>
    within_bind (within_read16 _) fun _ => within_pure _

/-- After its checks `MERGE` cannot stop: it reads and then merges. -/
theorem mergeRest_ok (copy : Bool) (s u : State) :
    ∃ v rects, Ran false false u v ∧ mergeRest copy s u = .ok () (v.mergeCore rects) := by
  have h := within_gather (α := Rect) (w := false) (em := false) (ok := fun _ => False)
    (item := fun k => readRect (s.p.src.toNat + 8 * k)) (fun k => within_readRect _) (s.rectCount copy) 0
  cases hc : gather (fun k => readRect (s.p.src.toNat + 8 * k)) (s.rectCount copy) 0 u with
  | ok rects v => exact ⟨v, rects, h.of_ok hc, by unfold mergeRest; rw [run_bind_ok hc]; rfl⟩
  | error e v => exact absurd (h.of_error hc).2.1 id

theorem run_readRect {s : State} (h : s.undisturbed = true) (a : Nat) :
    readRect a s = .ok { x1 := s.half a, y1 := s.half (a + 2), x2 := s.half (a + 4), y2 := s.half (a + 6) } s := by
  unfold readRect
  rw [run_bind_ok (run_read16 h _), run_bind_ok (run_read16 h _), run_bind_ok (run_read16 h _), run_bind_ok (run_read16 h _)]
  rfl

/-- On an undisturbed state `MERGE` merges the rectangles its list holds. -/
theorem run_mergeRest {s : State} (h : s.undisturbed = true) (copy : Bool) :
    mergeRest copy s s = .ok () (s.mergeCore (s.rectsAt s.p.src.toNat (s.rectCount copy))) := by
  unfold mergeRest
  rw [run_bind_ok (run_gather _ _ _ (fun k => run_readRect h (s.p.src.toNat + 8 * k)) _ 0)]
  unfold State.rectsAt
  rw [List.range_eq_range']
  rfl

end Sys2Proof.Machine
end

