-- ==== Sys2Proof/Laws/Transfer.lean ====
section
/-! SUPPORT. Register transfer: the checks of `WRREG` and `RDREG`, what their bodies can do on any state, and the events they emit on
an undisturbed one. -/

namespace Sys2Proof.Machine

/-! ## Checks -/

theorem guards_congr {α : Type} {c k : Cmd α} {cs cs' : Checks} {s : State} (h : cs.firstFault = cs'.firstFault)
    (g : Guards c cs k s) : Guards c cs' k s := by unfold Guards at g ⊢; rw [g, h]

theorem guards_last {b b' : Bool} {c : FaultCode} {i : Word} {s : State} (hb : b' = !b) :
    Guards (require b' c i) [(b, c, i)] (pure ()) s := by
  subst hb
  unfold Guards
  rw [run_require, firstFault_cons]
  cases b <;> rfl

theorem carrier_isSome (s : State) (x16 : Bool) : (s.carrier x16).isSome = s.carries x16 := by
  unfold State.carrier State.carries
  cases s.mode <;> simp only <;> (try rfl) <;> (repeat' split) <;> simp_all

theorem guards_busChecks (s : State) : Guards busChecks (busConfigChecks s) (pure ()) s := by
  unfold busChecks busConfigChecks
  apply guards_get
  refine guards_require (by cases s.mode <;> rfl) fun _ => guards_require (by cases s.mode <;> cases s.dcp <;> rfl) fun _ =>
    guards_last ?_
  cases s.regW16
  · simp only [Bool.false_or, Bool.not_false, Bool.true_and]
    by_cases h : s.p.reg.toNat ≤ 0xFF
    · rw [decide_eq_true h, decide_eq_false (by omega)]; rfl
    · rw [decide_eq_false h, decide_eq_true (by omega)]; rfl
  · rfl

/-- What `WRREG` does once its checks have passed. -/
def wrregPhases (w16 : Bool) (s : State) : Cmd Unit := do
  indexPhase
  if s.p.cnt.toNat ≠ 0 then
    emitAll (s.phaseStart true)
    if s.mode = .i80 then
      sendChunk true w16 (← readWords w16 s.p.src.toNat s.p.cnt.toNat)
    else
      sendChunks w16 (s.dataChunks w16)

theorem cnt_bne (c : Word) : (c != 0) = decide (c.toNat ≠ 0) := by
  by_cases h : c = 0
  · subst h; rfl
  · have h' : c.toNat ≠ 0 := fun x => h (BitVec.eq_of_toNat_eq x)
    rw [decide_eq_true h', bne_iff_ne.2 h]

theorem firstFault_access (p : Config.Platform) (b : Bool) (r : AccessRange) (w : Word) (hw : BitVec.ofNat 32 r.base = w)
    (cs : Checks) :
    Checks.firstFault ((if b then [r] else []).map (rangeCheck p) ++ cs) =
      Checks.firstFault ((b && !rangeOk p r, .access, w) :: cs) := by
  subst hw
  cases b
  · rw [firstFault_cons]; rfl
  · rfl

theorem mode_bne (m n : BusMode) : (m != n) = decide (m ≠ n) := by cases m <;> cases n <;> rfl

theorem guards_wrreg (w16 fl : Bool) (s : State) : Guards (wrregBody w16 fl) (wrregChecks w16 fl s) (wrregPhases w16 s) s := by
  unfold wrregBody wrregChecks
  apply guards_get
  simp only [List.cons_append, List.nil_append]
  refine guards_require rfl fun _ => ?_
  refine guards_bind (guards_busChecks s) ?_
  refine guards_require (by
    rw [State.carried, carrier_isSome, carrier_isSome, Bool.not_or, Bool.not_not, Bool.not_and, Bool.not_not,
      decide_eq_not_bne]) fun _ => ?_
  refine guards_require (by rw [cnt_bne, mode_bne]; rfl) fun _ => ?_
  refine guards_require (by
    rw [cnt_bne]
    cases s.mode <;> simp [bne] <;> rfl) fun _ => ?_
  refine guards_require (by
    rw [cnt_bne]
    congr 1
    rw [show decide (s.p.src.toNat % 2 ≠ 0) = (s.p.src.toNat % 2 != 0) from by
      rw [← Bool.not_not (s.p.src.toNat % 2 != 0), ← decide_eq_not_bne, decide_not]]) fun _ => ?_
  have hr : (if s.p.cnt.toNat ≠ 0 then
      [({ base := s.p.src.toNat, size := s.p.cnt.toNat * wordBytes w16, kind := .rd } : AccessRange)] else []) =
      if (decide (s.p.cnt.toNat ≠ 0)) = true then [{ base := s.p.src.toNat, size := s.p.cnt.toNat * wordBytes w16, kind := .rd }]
      else [] := by simp only [decide_eq_true_eq]
  rw [hr, cnt_bne]
  refine guards_congr (firstFault_access s.plat _ _ s.p.src (by simp) []) ?_
  exact guards_access (guards_nil rfl)

/-- What `RDREG` reads once its checks have passed: the index phase, and the read phase where there is one. -/
def rdregRead (w16 : Bool) (s : State) : Cmd (List Half) := do
  indexPhase
  if s.p.cnt.toNat ≠ 0 then readPhase w16 else pure []

/-- What `RDREG` does once its checks have passed. -/
def rdregPhases (w16 : Bool) (s : State) : Cmd Unit := rdregRead w16 s >>= storeWords w16 s.p.dst.toNat

theorem guards_rdreg (w16 : Bool) (s : State) : Guards (rdregBody w16) (rdregChecks w16 s) (rdregPhases w16 s) s := by
  unfold rdregBody rdregChecks
  apply guards_get
  refine guards_bind (guards_busChecks s) ?_
  refine guards_require (by rw [Bool.not_not]) fun _ => ?_
  refine guards_require (by cases s.mode <;> rfl) fun _ => ?_
  refine guards_require (by
    rw [State.carried, carrier_isSome, carrier_isSome, Bool.not_or, Bool.not_not, Bool.not_and, Bool.not_not,
      decide_eq_not_bne]) fun _ => ?_
  refine guards_require (by rw [cnt_bne, mode_bne]) fun _ => ?_
  refine guards_require (by
    rw [cnt_bne]
    congr 1
    rw [show decide (s.p.dst.toNat % 2 ≠ 0) = (s.p.dst.toNat % 2 != 0) from by
      rw [← Bool.not_not (s.p.dst.toNat % 2 != 0), ← decide_eq_not_bne, decide_not]]) fun _ => ?_
  have hr : (if s.p.cnt.toNat ≠ 0 then
      [({ base := s.p.dst.toNat, size := s.p.cnt.toNat * wordBytes w16, kind := .wr } : AccessRange)] else []) =
      if (decide (s.p.cnt.toNat ≠ 0)) = true then [{ base := s.p.dst.toNat, size := s.p.cnt.toNat * wordBytes w16, kind := .wr }]
      else [] := by simp only [decide_eq_true_eq]
  rw [hr, cnt_bne]
  refine guards_congr (firstFault_access s.plat _ _ s.p.dst (by simp) []) ?_
  refine guards_access (guards_nil ?_)
  unfold rdregPhases rdregRead
  by_cases h : s.p.cnt.toNat ≠ 0
  · simp only [if_pos h, bind_assoc]
  · simp only [if_neg h, bind_assoc, pure_bind]
    rfl

/-! ## What the bodies can do on any state -/

section
variable {w : Bool}

theorem within_emitAll_bus (es : List Event) : Within w true busStops (emitAll es) :=
  within_emitAll (Or.inl rfl) (Or.inr (Or.inl rfl)) (Or.inr (Or.inr rfl)) es

theorem within_emitAsk_bus (e : Event) : Within w true busStops (emitAsk e) :=
  within_emitAsk (Or.inl rfl) (Or.inr (Or.inl rfl)) (Or.inr (Or.inr rfl)) e

theorem within_sendChunk (dc x16 : Bool) (ws : List Half) : Within w true busStops (sendChunk dc x16 ws) :=
  within_get_bind fun _ => within_emitAll_bus _

theorem within_indexPhase : Within w true busStops indexPhase :=
  within_get_bind fun _ => within_bind (within_emitAll_bus _) fun _ => within_sendChunk _ _ _

theorem within_readWord (w16 : Bool) (a : Nat) : Within w true busStops (readWord w16 a) := by
  unfold readWord
  cases w16
  · exact within_bind (within_read8 _) fun _ => within_pure _
  · exact within_read16 _

theorem within_readWords (w16 : Bool) (a n : Nat) : Within w true busStops (readWords w16 a n) :=
  within_gather (fun _ => within_readWord _ _) _ _

theorem within_sendChunks (w16 : Bool) : ∀ cs, Within w true busStops (sendChunks w16 cs)
  | [] => within_pure ()
  | (_, _) :: cs => within_bind (within_readWords _ _ _) fun _ => within_bind (within_sendChunk _ _ _) fun _ =>
      within_sendChunks w16 cs

theorem within_wrregPhases (w16 : Bool) (s : State) : Within w true busStops (wrregPhases w16 s) := by
  refine within_bind within_indexPhase fun _ => ?_
  split
  · refine within_bind (within_emitAll_bus _) fun _ => ?_
    split
    · exact within_bind (within_readWords _ _ _) fun _ => within_sendChunk _ _ _
    · exact within_sendChunks _ _
  · exact within_pure _

theorem within_readStrobes (d n w16 : Bool) : Within w true busStops (readStrobes d n w16) := by
  unfold readStrobes
  cases n
  · refine within_bind (within_emitAsk_bus _) fun _ => ?_
    cases w16
    · exact within_pure _
    · exact within_bind (within_emitAsk_bus _) fun _ => within_pure _
  · exact within_bind (within_emitAsk_bus _) fun _ => within_pure _

theorem within_readPhase (w16 : Bool) : Within w true busStops (readPhase w16) := by
  refine within_get_bind fun s => within_bind (within_emitAll_bus _) fun _ => ?_
  cases s.mode
  · exact within_pure _
  · dsimp only
    split
    · exact within_emitAsk_bus _
    · exact within_bind (within_emitAsk_bus _) fun _ => within_pure _
  · exact within_pure _
  · exact within_bind (within_emitAsk_bus _) fun _ => within_pure _
  · exact within_gather (fun _ => within_readStrobes _ _ _) _ _
  · exact within_bind (within_emitAsk_bus _) fun _ => within_pure _
  · exact within_pure _

theorem within_rdregRead (w16 : Bool) (s : State) : Within w true busStops (rdregRead w16 s) := by
  refine within_bind within_indexPhase fun _ => ?_
  split
  · exact within_readPhase _
  · exact within_pure _

theorem within_storeWords {em : Bool} (w16 : Bool) : ∀ (vs : List Half) (a : Nat), Within true em onlyCut (storeWords w16 a vs)
  | [], _ => within_pure ()
  | v :: vs, a => by
    refine within_bind ?_ fun _ => within_storeWords w16 vs _
    cases w16
    · exact within_write8 onlyCut_cut _ _
    · exact within_write16 onlyCut_cut _ _

theorem within_rdregPhases (w16 : Bool) (s : State) : Within true true busStops (rdregPhases w16 s) :=
  within_bind (within_rdregRead w16 s) fun vs => (within_storeWords w16 vs _).mono fun _ h => Or.inl h

end

/-! ## The events on an undisturbed state -/

variable {s : State}

theorem run_readWord (h : s.undisturbed = true) (w16 : Bool) (a k : Nat) :
    readWord w16 (a + k * wordBytes w16) s = .ok (s.bufferWord w16 a k) s := by
  unfold readWord State.bufferWord wordBytes
  cases w16
  · rw [if_neg (by simp), if_neg (by simp), if_neg (by simp), Nat.mul_one]
    exact run_bind_ok (run_read8 h _)
  · rw [if_pos rfl, if_pos rfl, if_pos rfl, Nat.mul_comm k 2]
    exact run_read16 h _

theorem run_readWords (h : s.undisturbed = true) (w16 : Bool) (a n : Nat) :
    readWords w16 a n s = .ok (s.buffer w16 a n) s := by
  unfold readWords State.buffer
  rw [run_gather _ (s.bufferWord w16 a) s (fun k => run_readWord h w16 a k) n 0, List.range_eq_range']

@[simp] theorem State.emitted_buffer (es : List Event) (w16 : Bool) (a n : Nat) :
    (s.emitted es).buffer w16 a n = s.buffer w16 a n := rfl

@[simp] theorem State.emitted_wireEvents (es : List Event) (dc x16 : Bool) (ws : List Half) :
    (s.emitted es).wireEvents dc x16 ws = s.wireEvents dc x16 ws := rfl

theorem emits_sendChunk (h : s.env.cut = none) (dc x16 : Bool) (ws : List Half) :
    Emits (sendChunk dc x16 ws) (s.wireEvents dc x16 ws) () s :=
  emits_bind (emits_of_ok (run_get s)) (emits_emitAll _ _ h)

theorem emits_sendChunk_after (h : s.env.cut = none) (es : List Event) (dc x16 : Bool) (ws : List Half) :
    Emits (sendChunk dc x16 ws) (s.wireEvents dc x16 ws) () (s.emitted es) := by
  have := emits_sendChunk (s := s.emitted es) (by rw [State.emitted_cut]; exact h) dc x16 ws
  rwa [State.emitted_wireEvents] at this

theorem emits_emitAll_after (h : s.env.cut = none) (es es' : List Event) : Emits (emitAll es') es' () (s.emitted es) :=
  emits_emitAll es' _ (by rw [State.emitted_cut]; exact h)

theorem emits_indexPhase (h : s.env.cut = none) :
    Emits indexPhase (s.phaseStart false ++ s.wireEvents false s.regW16 [s.p.reg]) () s := by
  have h1 : Emits (emitAll (s.phaseStart false) >>= fun _ => sendChunk false s.regW16 [s.p.reg])
      (s.phaseStart false ++ s.wireEvents false s.regW16 [s.p.reg]) () s :=
    emits_bind (emits_emitAll _ s h) (emits_sendChunk_after h _ _ _ _)
  have h2 : ∀ {c : Cmd Unit} {f : State → Cmd Unit} {es : List Event}, c = get >>= f → Emits (f s) es () s → Emits c es () s := by
    intro c f es hc hf
    subst hc
    have := emits_bind (es := []) (emits_of_ok (run_get s)) (f := f) (by rw [State.emitted_nil]; exact hf)
    rwa [List.nil_append] at this
  exact h2 rfl h1

theorem emits_sendChunks (w16 : Bool) : ∀ (cs : List (Nat × Nat)) (es : List Event), s.undisturbed = true →
    Emits (sendChunks w16 cs) (cs.flatMap fun c => s.wireEvents true w16 (s.buffer w16 c.1 (c.2 / wordBytes w16))) ()
      (s.emitted es)
  | [], _, _ => emits_pure ()
  | (a, c) :: cs, es, h => by
    have h2 := (undisturbed_iff.1 h).2
    have hr : readWords w16 a (c / wordBytes w16) (s.emitted es) =
        .ok (s.buffer w16 a (c / wordBytes w16)) (s.emitted es) := by
      have := run_readWords (s := s.emitted es) (by rw [State.emitted_undisturbed]; exact h) w16 a (c / wordBytes w16)
      rwa [State.emitted_buffer] at this
    have h3 := emits_sendChunks w16 cs (es ++ s.wireEvents true w16 (s.buffer w16 a (c / wordBytes w16))) h
    rw [← State.emitted_emitted] at h3
    have h4 := emits_bind (f := fun _ => sendChunks w16 cs) (emits_sendChunk_after h2 es true w16 _) h3
    have h5 := emits_bind (es := []) (f := fun ws => sendChunk true w16 ws >>= fun _ => sendChunks w16 cs) (emits_of_ok hr)
      (by rw [State.emitted_nil]; exact h4)
    rw [List.nil_append] at h5
    exact h5

/-- The data phase of `WRREG` in the terms of its carrier. -/
def State.carriedEvents (s : State) (w16 : Bool) : List Event :=
  if s.p.cnt.toNat ≠ 0 then
    s.phaseStart true ++
      if s.mode = .i80 then s.wireEvents true w16 (s.buffer w16 s.p.src.toNat s.p.cnt.toNat)
      else (s.dataChunks w16).flatMap fun c => s.wireEvents true w16 (s.buffer w16 c.1 (c.2 / wordBytes w16))
  else []

theorem emits_wrregPhases (h : s.undisturbed = true) (w16 : Bool) :
    Emits (wrregPhases w16 s) (s.phaseStart false ++ s.wireEvents false s.regW16 [s.p.reg] ++ s.carriedEvents w16) () s := by
  have h2 := (undisturbed_iff.1 h).2
  refine emits_bind (emits_indexPhase h2) ?_
  generalize s.phaseStart false ++ s.wireEvents false s.regW16 [s.p.reg] = es
  unfold State.carriedEvents
  by_cases hc : s.p.cnt.toNat ≠ 0
  · rw [if_pos hc, if_pos hc]
    refine emits_bind (emits_emitAll_after h2 _ _) ?_
    rw [State.emitted_emitted]
    generalize es ++ s.phaseStart true = es
    by_cases hm : s.mode = .i80
    · rw [if_pos hm, if_pos hm]
      have hr := run_readWords (s := s.emitted es) (by rw [State.emitted_undisturbed]; exact h) w16 s.p.src.toNat s.p.cnt.toNat
      rw [State.emitted_buffer] at hr
      have := emits_bind (es := []) (f := fun ws => sendChunk true w16 ws) (emits_of_ok hr)
        (by rw [State.emitted_nil]; exact emits_sendChunk_after h2 es true w16 _)
      rwa [List.nil_append] at this
    · rw [if_neg hm, if_neg hm]
      exact emits_sendChunks w16 (s.dataChunks w16) es h
  · rw [if_neg hc, if_neg hc]
    exact emits_pure ()

/-! ## The events mode by mode -/

/-- The bus configuration is one the transfers accept: what the configuration and carrier checks leave. -/
structure Configured (w16 : Bool) (s : State) : Prop where
  usable : s.mode ≠ .none ∧ s.mode ≠ .reserved
  index : s.regW16 = true ∨ s.p.reg.toNat ≤ 0xFF
  carriesIndex : s.carries s.regW16 = true
  carriesData : s.p.cnt ≠ 0 → s.carries w16 = true

theorem configured_of_wrreg {w16 fl : Bool} (h : (wrregChecks w16 fl s).pass) : Configured w16 s := by
  simp only [Checks.pass, wrregChecks, busConfigChecks, List.cons_append, List.nil_append, List.mem_cons, List.not_mem_nil,
    or_false, forall_eq_or_imp, forall_eq] at h
  obtain ⟨-, h1, -, h3, h4, -⟩ := h
  refine ⟨?_, ?_, ?_, ?_⟩
  · constructor <;> intro hm <;> simp [hm] at h1
  · cases hr : s.regW16
    · right; simp [hr] at h3; omega
    · left; rfl
  · cases hc : s.carries s.regW16
    · simp [hc] at h4
    · rfl
  · intro hn
    cases hc : s.carries w16
    · simp [hc] at h4; exact absurd h4.2 hn
    · rfl

theorem configured_of_rdreg {w16 : Bool} (h : (rdregChecks w16 s).pass) : Configured w16 s ∧ s.mode ≠ .spi3 := by
  simp only [Checks.pass, rdregChecks, busConfigChecks, List.cons_append, List.nil_append, List.mem_cons, List.not_mem_nil,
    or_false, forall_eq_or_imp, forall_eq] at h
  obtain ⟨h1, -, h3, -, h5, h4, -⟩ := h
  refine ⟨⟨?_, ?_, ?_, ?_⟩, ?_⟩
  · constructor <;> intro hm <;> simp [hm] at h1
  · cases hr : s.regW16
    · right; simp [hr] at h3; omega
    · left; rfl
  · cases hc : s.carries s.regW16
    · simp [hc] at h4
    · rfl
  · intro hn
    cases hc : s.carries w16
    · simp [hc] at h4; exact absurd h4.2 hn
    · rfl
  · intro hm; simp [hm] at h5

theorem index_fits {w : Half} (h : w.toNat ≤ 0xFF) : ((w.setWidth 8).setWidth 16 : Half) = w := by
  apply BitVec.eq_of_toNat_eq
  simp only [BitVec.toNat_setWidth]
  omega

/-- The index phase in the terms of the statements. -/
theorem indexEvents_eq {w16 : Bool} (h : Configured w16 s) :
    s.phaseStart false ++ s.wireEvents false s.regW16 [s.p.reg] = s.indexEvents := by
  obtain ⟨⟨hu1, hu2⟩, hi, hc, -⟩ := h
  unfold State.phaseStart State.wireEvents State.carrier State.indexEvents
  unfold State.carries at hc
  cases hm : s.mode with
  | none => exact absurd hm hu1
  | reserved => exact absurd hm hu2
  | spi4 =>
    simp only [hm, BusMode.hasDC, Bool.or_eq_true] at hc ⊢
    cases h1 : (s.regW16 && s.nat16) <;> cases h2 : s.nat8 <;> simp_all [State.chunkEvents]
  | spi3 =>
    simp only [hm, BusMode.hasDC, Bool.or_eq_true] at hc ⊢
    cases h1 : s.nat9 <;> cases h2 : s.nat8 <;> simp_all [State.chunkEvents, wire9, pad9]
    cases s.regW16 <;> simp [units, split16]
  | spisb =>
    simp only [hm, BusMode.hasDC] at hc ⊢
    simp_all [State.chunkEvents, State.startByte]
  | i80 =>
    simp only [hm, BusMode.hasDC, Bool.or_eq_true] at hc ⊢
    cases h1 : s.nat16 <;> cases h2 : s.nat8 <;> cases h3 : s.regW16 <;> simp_all [State.chunkEvents, units]
    exact (index_fits hi).symm
  | i2c =>
    simp only [BusMode.hasDC]
    simp_all [State.chunkEvents]

theorem bufferWord_fits (a k : Nat) : ((s.bufferWord false a k).setWidth 8).setWidth 16 = s.bufferWord false a k := by
  unfold State.bufferWord
  rw [if_neg (by simp)]
  apply BitVec.eq_of_toNat_eq
  simp only [BitVec.toNat_setWidth]
  have := (s.byteAt (a + k)).isLt
  omega

theorem flatMap_one {α β : Type} (f : α → β) : ∀ l : List α, (l.flatMap fun x => [f x]) = l.map f
  | [] => rfl
  | x :: l => by rw [List.flatMap_cons, flatMap_one f l]; rfl

/-- The data phase in the terms of the statements. -/
theorem dataEvents_eq {w16 : Bool} (h : Configured w16 s) : s.carriedEvents w16 = s.dataEvents w16 := by
  obtain ⟨⟨hu1, hu2⟩, -, -, hc⟩ := h
  unfold State.carriedEvents State.dataEvents
  by_cases hn : s.p.cnt = 0
  · rw [if_pos hn, if_neg (by simp [hn])]
  have hn' : s.p.cnt.toNat ≠ 0 := fun x => hn (BitVec.eq_of_toNat_eq x)
  rw [if_neg hn, if_pos hn']
  replace hc := hc hn
  unfold State.phaseStart State.wireEvents State.carrier
  unfold State.carries at hc
  cases hm : s.mode with
  | none => exact absurd hm hu1
  | reserved => exact absurd hm hu2
  | spi4 =>
    simp only [hm, BusMode.hasDC, Bool.or_eq_true] at hc ⊢
    cases h1 : (w16 && s.nat16) <;> cases h2 : s.nat8 <;> simp_all [State.chunkEvents, flatMap_one]
  | spi3 =>
    simp only [hm, BusMode.hasDC, Bool.or_eq_true] at hc ⊢
    cases h1 : s.nat9 <;> cases h2 : s.nat8 <;> simp_all [State.chunkEvents, wire9, flatMap_one]
  | spisb =>
    simp only [hm, BusMode.hasDC] at hc ⊢
    simp_all [State.chunkEvents, State.startByte, flatMap_one]
  | i80 =>
    simp only [hm, BusMode.hasDC, Bool.or_eq_true] at hc ⊢
    cases h1 : s.nat16 <;> cases h2 : s.nat8 <;> cases h3 : w16 <;> simp_all [State.chunkEvents, units]
    intro v hv
    obtain ⟨k, -, rfl⟩ := List.mem_map.1 hv
    exact (bufferWord_fits _ k).symm
  | i2c =>
    simp only [BusMode.hasDC]
    simp_all [State.chunkEvents, flatMap_one]

/-- `WRREG` emits exactly its events from an undisturbed state that has passed its checks. -/
theorem emits_wrreg (h : s.undisturbed = true) {w16 : Bool} (hc : Configured w16 s) :
    Emits (wrregPhases w16 s) (s.wrregEvents w16) () s := by
  have := emits_wrregPhases h w16
  rwa [indexEvents_eq hc, dataEvents_eq hc] at this

/-! ## `RDREG` -/

theorem memStores_append (xs ys : List Byte) : ∀ (m : Memory) (a : Nat),
    memStores m a (xs ++ ys) = memStores (memStores m a xs) (a + xs.length) ys := by
  induction xs with
  | nil => intro m a; rfl
  | cons x xs ih =>
    intro m a
    rw [List.cons_append, memStores, ih, memStores, List.length_cons]
    congr 1
    omega

@[simp] theorem length_wordInMemory (be w16 : Bool) (v : Half) : (wordInMemory be w16 v).length = wordBytes w16 := by
  cases w16 <;> simp [wordInMemory, wordBytes]

theorem length_flatMap_words (be w16 : Bool) (vs : List Half) :
    (vs.flatMap (wordInMemory be w16)).length = vs.length * wordBytes w16 := by
  induction vs with
  | nil => simp
  | cons v vs ih => rw [List.flatMap_cons, List.length_append, ih, length_wordInMemory, List.length_cons, Nat.succ_mul, Nat.add_comm]

/-- On an undisturbed state the words are stored one after the other. -/
theorem run_storeWords (w16 : Bool) : ∀ (vs : List Half) (a : Nat) (s : State), s.undisturbed = true →
    storeWords w16 a vs s = .ok () (s.withMem (memStores s.mem a (vs.flatMap (wordInMemory s.plat.memBE w16))))
  | [], _, _, _ => rfl
  | v :: vs, a, s, h => by
    have h1 : storeWord w16 a v s = .ok () (s.withMem (memStores s.mem a (wordInMemory s.plat.memBE w16 v))) := by
      cases w16
      · exact run_write8 h a _
      · exact run_write16 h a v
    unfold storeWords
    rw [run_bind_ok h1, run_storeWords w16 vs _ _ (by exact h), List.flatMap_cons, memStores_append, length_wordInMemory]
    rfl

theorem cutWord8 (w : Half) : ((cutWord .w8 w).setWidth 8 : Byte) = w.setWidth 8 := by
  apply BitVec.eq_of_getLsbD_eq
  intro i hi
  simp only [cutWord, BitVec.getLsbD_setWidth, BitVec.getLsbD_and, hi, decide_true, Bool.true_and]
  interval_cases i <;> simp

theorem cutWord8_self (w : Half) : cutWord .w8 w = ((w.setWidth 8 : Byte).setWidth 16) := by
  apply BitVec.eq_of_getLsbD_eq
  intro i hi
  simp only [cutWord, BitVec.getLsbD_setWidth, BitVec.getLsbD_and, hi, decide_true, Bool.true_and]
  interval_cases i <;> simp

theorem joinPairs_range (be : Bool) (f : Nat → Byte) : ∀ (n k : Nat),
    joinPairs be ((List.range' k (2 * n)).map f) = (List.range n).map fun j => join16 be (f (k + 2 * j)) (f (k + 2 * j + 1))
  | 0, k => rfl
  | n + 1, k => by
    have e : 2 * (n + 1) = 2 * n + 1 + 1 := by omega
    rw [e, List.range'_succ, List.range'_succ, List.map_cons, List.map_cons, joinPairs, joinPairs_range be f n (k + 1 + 1),
      List.range_succ_eq_map, List.map_cons, List.map_map]
    congr 1
    apply List.map_congr_left
    intro j _
    simp only [Function.comp]
    congr 2 <;> omega

/-- The bytes of a read, as the words they stand for. -/
theorem wordsOfBytes_range (be w16 : Bool) (f : Nat → Half) (cnt : Nat) :
    wordsOfBytes be w16 ((List.range (cnt * wordBytes w16)).map fun k => cutWord .w8 (f k)) =
      (List.range cnt).map fun k =>
        if w16 then join16 be ((f (2 * k)).setWidth 8) ((f (2 * k + 1)).setWidth 8) else ((f k).setWidth 8 : Byte).setWidth 16 := by
  unfold wordsOfBytes
  cases w16
  · simp [wordBytes, cutWord8, Function.comp_def]
  · rw [if_pos rfl, List.map_map, List.range_eq_range']
    simp only [wordBytes, if_true, Function.comp_def, cutWord8]
    rw [Nat.mul_comm cnt 2, joinPairs_range be (fun k => (f k).setWidth 8) cnt 0]
    simp only [Nat.zero_add]

theorem eventData_reads (env : Env) (bpw : WireBits) (ws : List Half) (cnt n : Nat) :
    env.eventData (.spiTxRx bpw ws cnt) n = (List.range cnt).map fun k => cutWord bpw (env.dataWord n k) := rfl

theorem eventData_i2cRx (env : Env) (a : BitVec 7) (cnt n : Nat) :
    env.eventData (.i2cRx a cnt) n = (List.range cnt).map fun k => cutWord .w8 (env.dataWord n k) := rfl

theorem eventData_i80Rd (env : Env) (bw : WireBits) (n : Nat) : env.eventData (.i80Rd bw) n = [cutWord bw (env.dataWord n 0)] := rfl

/-- One event whose data is turned into words. -/
theorem emits_asked {e : Event} {f : List Half → List Half} {vs : List Half} (h : s.env.cut = none) (es : List Event)
    (hv : f (s.env.eventData e (s.env.asked + askCount es)) = vs) :
    Emits (emitAsk e >>= fun bs => (pure (f bs) : Cmd (List Half))) [e] vs (s.emitted es) := by
  subst hv
  have := emits_bind (f := fun bs => (pure (f bs) : Cmd (List Half)))
    (emits_emitAsk (s := s.emitted es) (by rw [State.emitted_cut]; exact h) e) (emits_pure _)
  rwa [List.append_nil] at this

/-- The events of one word read over the parallel bus. -/
def strobeEvents (nat16 w16 : Bool) : List Event :=
  if nat16 then [.i80Rd .w16] else List.replicate (wordBytes w16) (.i80Rd .w8)

/-- The value of one word read over the parallel bus, from answer number `n` on. -/
def strobeValue (env : Env) (devBE nat16 w16 : Bool) (n : Nat) : Half :=
  if nat16 then (if w16 then env.dataWord n 0 else (env.dataByte n 0).setWidth 16)
  else if w16 then join16 devBE (env.dataByte n 0) (env.dataByte (n + 1) 0)
  else (env.dataByte n 0).setWidth 16

theorem askCount_strobes (nat16 w16 : Bool) : askCount (strobeEvents nat16 w16) = if nat16 then 1 else wordBytes w16 := by
  cases nat16 <;> cases w16 <;> rfl

theorem emits_readStrobes (h : s.env.cut = none) (devBE nat16 w16 : Bool) (es : List Event) :
    Emits (readStrobes devBE nat16 w16) (strobeEvents nat16 w16)
      (strobeValue s.env devBE nat16 w16 (s.env.asked + askCount es)) (s.emitted es) := by
  have h1 := fun bw => emits_emitAsk (s := s.emitted es) (by rw [State.emitted_cut]; exact h) (.i80Rd bw)
  have hd : ∀ bw, (s.emitted es).env.eventData (.i80Rd bw) (s.emitted es).env.asked =
      [cutWord bw (s.env.dataWord (s.env.asked + askCount es) 0)] := fun _ => rfl
  unfold readStrobes strobeEvents strobeValue
  cases nat16
  · cases w16
    · have := emits_bind (f := fun vs => (pure (vs.headD 0) : Cmd Half)) (h1 .w8) (emits_pure _)
      rw [hd, List.headD_cons, cutWord8_self, List.append_nil] at this
      exact this
    · have h2 := emits_emitAsk (s := s.emitted (es ++ [.i80Rd .w8])) (by rw [State.emitted_cut]; exact h) (.i80Rd .w8)
      have hd2 : (s.emitted (es ++ [.i80Rd .w8])).env.eventData (.i80Rd .w8) (s.emitted (es ++ [.i80Rd .w8])).env.asked =
          [cutWord .w8 (s.env.dataWord (s.env.asked + askCount es + 1) 0)] := by
        rw [State.emitted_asked, askCount_append]; rfl
      have h3 := emits_bind (f := fun vs => (pure (join16 devBE
        ((cutWord .w8 (s.env.dataWord (s.env.asked + askCount es) 0)).setWidth 8) ((vs.headD 0).setWidth 8)) : Cmd Half)) h2
        (emits_pure _)
      rw [← State.emitted_emitted] at h3
      have := emits_bind (f := fun vs => emitAsk (.i80Rd .w8) >>= fun vs' =>
        (pure (join16 devBE ((vs.headD 0).setWidth 8) ((vs'.headD 0).setWidth 8)) : Cmd Half)) (h1 .w8) (by
          rw [hd]; exact h3)
      rw [State.emitted_emitted, hd2, List.headD_cons, cutWord8, cutWord8] at this
      exact this
  · have := emits_bind (f := fun vs => (pure (cutWord (if w16 then .w16 else .w8) (vs.headD 0)) : Cmd Half)) (h1 .w16) (emits_pure _)
    rw [hd, List.headD_cons, List.append_nil] at this
    cases w16
    · rw [if_neg (by simp), cutWord8_self] at this
      exact this
    · exact this

theorem flatMap_const {α : Type} (l : List α) : ∀ (n k : Nat), ((List.range' k n).flatMap fun _ => l) = (List.replicate n l).flatten
  | 0, _ => rfl
  | n + 1, k => by rw [List.range'_succ, List.flatMap_cons, flatMap_const l n (k + 1)]; rfl

theorem askCount_repeat (l : List Event) : ∀ n, askCount (List.replicate n l).flatten = n * askCount l
  | 0 => by simp
  | n + 1 => by rw [List.replicate_succ, List.flatten_cons, askCount_append, askCount_repeat l n, Nat.succ_mul, Nat.add_comm]

theorem flatten_strobes (nat16 w16 : Bool) : ∀ n, (List.replicate n (strobeEvents nat16 w16)).flatten =
    if nat16 then List.replicate n (.i80Rd .w16) else List.replicate (n * wordBytes w16) (.i80Rd .w8)
  | 0 => by cases nat16 <;> simp
  | n + 1 => by
    rw [List.replicate_succ, List.flatten_cons, flatten_strobes nat16 w16 n]
    cases nat16 <;> cases w16 <;> simp [strobeEvents, wordBytes, ← List.replicate_succ, Nat.succ_mul]

/-- The reads of the parallel bus. -/
theorem emits_strobes (h : s.env.cut = none) (devBE nat16 w16 : Bool) (es : List Event) (cnt : Nat) :
    Emits (gather (fun _ => readStrobes devBE nat16 w16) cnt 0) (List.replicate cnt (strobeEvents nat16 w16)).flatten
      ((List.range cnt).map fun k =>
        strobeValue s.env devBE nat16 w16 (s.env.asked + askCount es + k * (if nat16 then 1 else wordBytes w16)))
      (s.emitted es) := by
  have := emits_gather (item := fun _ => readStrobes devBE nat16 w16) (ev := fun _ => strobeEvents nat16 w16)
    (val := fun k => strobeValue s.env devBE nat16 w16 (s.env.asked + askCount es + k * (if nat16 then 1 else wordBytes w16)))
    cnt 0 (s.emitted es) fun j _ _ t ht => by
      subst ht
      rw [State.emitted_emitted, flatMap_const]
      have := emits_readStrobes h devBE nat16 w16 (es ++ (List.replicate (j - 0) (strobeEvents nat16 w16)).flatten)
      rwa [askCount_append, askCount_repeat, askCount_strobes, ← Nat.add_assoc, Nat.sub_zero] at this
  rwa [flatMap_const, ← List.range_eq_range'] at this

/-- The read phase of `RDREG` emits its events and gives the words the transport supplied. -/
theorem emits_readPhase (h2 : s.env.cut = none) {w16 : Bool} (hc : Configured w16 s) (h3 : s.mode ≠ .spi3) (hn : s.p.cnt ≠ 0) :
    Emits (readPhase w16) (s.readEvents w16) ((List.range s.p.cnt.toNat).map (s.readValue w16)) (s.emitted s.indexEvents) := by
  obtain ⟨⟨hu1, hu2⟩, -, -, hcar⟩ := hc
  replace hcar := hcar hn
  have start : ∀ {c : Cmd (List Half)} {f : State → Cmd (List Half)} {es : List Event} {v}, c = get >>= f →
      Emits (f (s.emitted s.indexEvents)) es v (s.emitted s.indexEvents) → Emits c es v (s.emitted s.indexEvents) := by
    intro c f es v hc hf
    subst hc
    have := emits_bind (es := []) (emits_of_ok (run_get (s.emitted s.indexEvents))) (f := f)
      (by rw [State.emitted_nil]; exact hf)
    rwa [List.nil_append] at this
  refine start rfl ?_
  dsimp only
  have hmode : (s.emitted s.indexEvents).mode = s.mode := rfl
  have hp : (s.emitted s.indexEvents).phaseStart true = s.phaseStart true := rfl
  rw [hmode, hp]
  unfold State.readEvents
  rw [if_neg hn]
  have hv : ∀ k, s.readValue w16 k = (fun n => match s.mode with
    | .i80 => strobeValue s.env s.devBE s.nat16 w16 (n + k * (if s.nat16 then 1 else wordBytes w16))
    | .spi4 | .spi3 | .spisb | .i2c | .none | .reserved =>
      if w16 && s.mode == .spi4 && s.nat16 then s.env.dataWord n k
      else if w16 then join16 s.devBE (s.env.dataByte n (2 * k)) (s.env.dataByte n (2 * k + 1))
      else (s.env.dataByte n k).setWidth 16) (s.env.asked + askCount s.indexEvents) := by
    intro k
    unfold State.readValue strobeValue wordBytes
    cases s.mode <;> try rfl
    cases s.nat16 <;> cases w16 <;> simp [Nat.mul_comm]
  rw [List.map_congr_left fun k _ => hv k]
  have hplain : ∀ (b : Bool) (e : Event) (f : List Half → List Half) (vs : List Half),
      f (s.env.eventData e (s.env.asked + askCount s.indexEvents)) = vs →
      Emits (emitAll (if b then [.gpioDC true] else []) >>= fun _ => emitAsk e >>= fun bs => (pure (f bs) : Cmd (List Half)))
        ((if b then [.gpioDC true] else []) ++ [e]) vs (s.emitted s.indexEvents) := by
    intro b e f vs hvs
    refine emits_bind (emits_emitAll_after h2 _ _) ?_
    rw [State.emitted_emitted]
    refine emits_asked h2 _ ?_
    rw [← hvs]
    cases b <;> simp [askCount_append, askCount_cons, Event.asks, Event.canFail, Event.returns]
  cases hm : s.mode with
  | none => exact absurd hm hu1
  | reserved => exact absurd hm hu2
  | spi3 => exact absurd hm h3
  | spi4 =>
    simp only [State.phaseStart, hm, BusMode.hasDC, if_true]
    have hnat : (s.emitted s.indexEvents).nat16 = s.nat16 := rfl
    rw [hnat]
    cases hb : (w16 && s.nat16)
    · simp only [Bool.false_eq_true, if_false]
      refine hplain true _ (wordsOfBytes s.devBE w16) _ ?_
      rw [eventData_reads]
      refine (wordsOfBytes_range _ _ _ _).trans ?_
      apply List.map_congr_left
      intro k _
      cases w16 <;> simp_all [Env.dataByte]
    · simp only [if_true]
      have := hplain true (.spiTxRx .w16 [] s.p.cnt.toNat) id _ rfl
      simp only [id_eq, bind_pure, if_true] at this
      refine cast ?_ this
      congr 1
      rw [eventData_reads]
      apply List.map_congr_left
      intro k _
      cases w16 <;> simp_all [cutWord]
  | spisb =>
    simp only [State.phaseStart, hm, BusMode.hasDC, Bool.false_eq_true, if_false]
    have hb : (s.emitted s.indexEvents).startByte true true = (s.startBase &&& 0xFC) ||| 0x03 := by
      show ((s.startBase &&& 0xFC) ||| 0x02) ||| 0x01 = _
      rw [BitVec.or_assoc]; rfl
    rw [hb]
    refine hplain false _ (wordsOfBytes s.devBE w16) _ ?_
    rw [eventData_reads]
    refine (wordsOfBytes_range _ _ _ _).trans ?_
    apply List.map_congr_left
    intro k _
    cases w16 <;> simp [Env.dataByte]
  | i2c =>
    simp only [State.phaseStart, hm, BusMode.hasDC, Bool.false_eq_true, if_false]
    refine hplain false _ (wordsOfBytes s.devBE w16) _ ?_
    rw [eventData_i2cRx]
    refine (wordsOfBytes_range _ _ _ _).trans ?_
    apply List.map_congr_left
    intro k _
    cases w16 <;> simp [Env.dataByte]
  | i80 =>
    simp only [State.phaseStart, hm, BusMode.hasDC, if_true]
    rw [← flatten_strobes]
    refine emits_bind (es := [.gpioDC true]) (emits_emitAll_after h2 _ _) ?_
    rw [State.emitted_emitted]
    have := emits_strobes h2 s.devBE s.nat16 w16 (s.indexEvents ++ [.gpioDC true]) s.p.cnt.toNat
    have ha : askCount (s.indexEvents ++ [.gpioDC true]) = askCount s.indexEvents := by
      rw [askCount_append]; rfl
    rw [ha] at this
    exact this

/-- `RDREG` reads exactly its events from a state that has passed its checks and that no reset will cut. -/
theorem emits_rdregRead (h : s.env.cut = none) {w16 : Bool} (hc : Configured w16 s) (h3 : s.mode ≠ .spi3) :
    Emits (rdregRead w16 s) (s.rdregEvents w16) ((List.range s.p.cnt.toNat).map (s.readValue w16)) s := by
  have hi := emits_indexPhase h
  rw [indexEvents_eq hc] at hi
  refine emits_bind hi ?_
  by_cases hn : s.p.cnt = 0
  · rw [if_neg (by simp [hn])]
    have e1 : s.readEvents w16 = [] := by unfold State.readEvents; rw [if_pos hn]
    have e2 : (List.range s.p.cnt.toNat).map (s.readValue w16) = [] := by rw [hn]; rfl
    rw [e1, e2]
    exact emits_pure []
  · have hn' : s.p.cnt.toNat ≠ 0 := fun x => hn (BitVec.eq_of_toNat_eq x)
    rw [if_pos hn']
    exact emits_readPhase h hc h3 hn

end Sys2Proof.Machine
end

