-- ==== Sys2Proof/Laws/Exec.lean ====
section
/-! SUPPORT. What every command can do from any state: once for all commands. -/

namespace Sys2Proof.Machine

theorem align_code : ¬ FaultCode.align.code.toNat < 0x10 := by decide

theorem access_code : ¬ FaultCode.access.code.toNat < 0x10 := by decide

theorem illegal_code : ¬ FaultCode.illegal.code.toNat < 0x10 := by decide

/-! ## Checks raise only the faults of the spec -/

/-- The checks raise no `E_BUS`, only faults that some rule raises, and 0 with those whose value R305 fixes at 0. -/
def Checks.Proper (cs : Checks) : Prop :=
  ∀ x ∈ cs, x.2.1 ≠ .bus ∧ x.2.1.isRaised = true ∧ (x.2.1.code.toNat < 0x10 → x.2.2 = 0)

theorem Checks.Proper.fault {cs : Checks} (h : cs.Proper) {c : FaultCode} {i : Word} (hf : cs.firstFault = some (c, i)) :
    c ≠ .bus ∧ c.isRaised = true ∧ (c.code.toNat < 0x10 → i = 0) := by
  unfold Checks.firstFault at hf
  cases hc : cs.find? (fun c => c.1) with
  | none => rw [hc] at hf; cases hf
  | some x =>
    rw [hc] at hf
    have hf' : x.2 = (c, i) := by injection hf
    have := h x (List.mem_of_find?_eq_some hc)
    rw [hf'] at this
    exact this

theorem proper_nil : Checks.Proper [] := fun _ h => by cases h

theorem proper_cons {x : Bool × FaultCode × Word} {cs : Checks} (h : x.2.1 ≠ .bus ∧ x.2.1.isRaised = true ∧
    (x.2.1.code.toNat < 0x10 → x.2.2 = 0)) (hs : cs.Proper) : Checks.Proper (x :: cs) := by
  intro y hy
  rcases List.mem_cons.1 hy with rfl | hy
  · exact h
  · exact hs y hy

theorem proper_append {xs ys : Checks} (hx : xs.Proper) (hy : ys.Proper) : Checks.Proper (xs ++ ys) := by
  intro x h
  rcases List.mem_append.1 h with h | h
  · exact hx x h
  · exact hy x h

theorem proper_range (p : Config.Platform) (r : AccessRange) : (rangeCheck p r).2.1 ≠ .bus ∧ (rangeCheck p r).2.1.isRaised = true ∧
    ((rangeCheck p r).2.1.code.toNat < 0x10 → (rangeCheck p r).2.2 = 0) :=
  ⟨by simp [rangeCheck], rfl, fun h => absurd h access_code⟩

theorem proper_ranges (p : Config.Platform) (rs : List AccessRange) : Checks.Proper (rs.map (rangeCheck p)) := by
  intro x hx
  obtain ⟨r, -, rfl⟩ := List.mem_map.1 hx
  exact proper_range p r

theorem proper_zero {b : Bool} {c : FaultCode} (h1 : c ≠ .bus) (h2 : c.isRaised = true) :
    ((b, c, (0 : Word)) : Bool × FaultCode × Word).2.1 ≠ .bus ∧ ((b, c, (0 : Word)) : Bool × FaultCode × Word).2.1.isRaised = true ∧
      (((b, c, (0 : Word)) : Bool × FaultCode × Word).2.1.code.toNat < 0x10 → ((b, c, (0 : Word)) : Bool × FaultCode × Word).2.2 = 0) :=
  ⟨h1, h2, fun _ => rfl⟩

theorem proper_merge (copy : Bool) (s : State) : (mergeChecks copy s).Proper := by
  unfold mergeChecks
  split
  · exact proper_nil
  · exact proper_cons ⟨by simp, rfl, fun h => absurd h align_code⟩ (proper_cons (proper_range _ _) proper_nil)

theorem proper_conversion (f : BitVec 2) (sb db : Nat) (t g : Bool) (s : State) : (conversionChecks f sb db t g s).Proper := by
  unfold conversionChecks
  refine proper_append (proper_cons (proper_zero (by decide) rfl) (proper_cons (proper_zero (by decide) rfl)
    (proper_cons (proper_zero (by decide) rfl) proper_nil))) ?_
  split
  · exact proper_nil
  · refine proper_append (proper_append (proper_append (proper_cons ⟨by simp, rfl, fun h => absurd h align_code⟩
      (proper_cons ⟨by simp, rfl, fun h => absurd h align_code⟩ proper_nil)) ?_) ?_) (proper_cons (proper_range _ _) proper_nil)
    · intro x hx
      obtain ⟨j, -, rfl⟩ := List.mem_map.1 hx
      exact proper_range _ _
    · split
      · exact proper_cons (proper_range _ _) proper_nil
      · exact proper_nil

theorem proper_dither (s : State) : (ditherChecks s).Proper := by
  unfold ditherChecks
  refine proper_append (proper_cons (proper_zero (by decide) rfl) proper_nil) ?_
  split
  · exact proper_nil
  · exact proper_cons (proper_range _ _) (proper_cons (proper_range _ _) proper_nil)

theorem proper_pack1 (s : State) : (pack1Checks s).Proper := by
  unfold pack1Checks
  refine proper_append (proper_cons (proper_zero (by decide) rfl) (proper_cons (proper_zero (by decide) rfl) proper_nil)) ?_
  split
  · exact proper_nil
  · exact proper_cons (proper_range _ _) (proper_cons (proper_range _ _) proper_nil)

theorem proper_busConfig (s : State) : (busConfigChecks s).Proper :=
  proper_cons (proper_zero (by decide) rfl) (proper_cons (proper_zero (by decide) rfl)
    (proper_cons (proper_zero (by decide) rfl) proper_nil))

theorem proper_wrreg (w16 fl : Bool) (s : State) : (wrregChecks w16 fl s).Proper :=
  proper_append (proper_append (proper_cons (proper_zero (by decide) rfl) proper_nil) (proper_busConfig s))
    (proper_cons (proper_zero (by decide) rfl) (proper_cons (proper_zero (by decide) rfl) (proper_cons (proper_zero (by decide) rfl)
      (proper_cons ⟨by simp, rfl, fun h => absurd h align_code⟩ (proper_cons ⟨by simp, rfl, fun h => absurd h access_code⟩
        proper_nil)))))

theorem proper_rdreg (w16 : Bool) (s : State) : (rdregChecks w16 s).Proper :=
  proper_append (proper_busConfig s)
    (proper_cons (proper_zero (by decide) rfl) (proper_cons (proper_zero (by decide) rfl) (proper_cons (proper_zero (by decide) rfl)
      (proper_cons (proper_zero (by decide) rfl) (proper_cons ⟨by simp, rfl, fun h => absurd h align_code⟩
        (proper_cons ⟨by simp, rfl, fun h => absurd h access_code⟩ proper_nil))))))

/-! ## The outcome of a command -/

/-- The commands that can write memory. -/
def Instr.writes : Instr → Bool
  | .cp565 | .sw565 | .x2r565 | .r2gray _ | .dither | .pack1 | .rdreg _ => true
  | .halt | .set _ _ | .delay _ | .merge _ | .take | .wrreg _ _ | .breset => false

/-- The commands that can emit events. -/
def Instr.emits : Instr → Bool
  | .delay _ | .wrreg _ _ | .rdreg _ | .breset => true
  | .halt | .set _ _ | .merge _ | .take | .cp565 | .sw565 | .x2r565 | .r2gray _ | .dither | .pack1 => false

/-- The registers a completed command writes, besides `CP`. -/
inductive Writes : Instr → (State → State) → Prop
  | none {i : Instr} : Writes i id
  | set {rd : PReg} {imm : Word} (h : rd.fits imm = true) : Writes (.set rd imm) (fun u => u.setParam rd imm)
  | merge {copy : Bool} (rects : List Rect) : Writes (.merge copy) (fun u => u.mergeCore rects)
  | take : Writes .take State.taken

/-- Every way a command gives a next state, from any state: it halts, completes, faults before any effect, meets a bus failure after
some events, or is cut by the reset input. -/
inductive Runs (i : Instr) (s : State) : State → Prop
  | halted (h : i = .halt) : Runs i s s.halted
  | completed {u : State} {f : State → State} (h : Ran (Instr.writes i) (Instr.emits i) s u) (hf : Writes i f) (hn : i ≠ .halt) :
      Runs i s (f u).advance
  | refused {c : FaultCode} {info : Word} (hc : c ≠ .bus) (hr : c.isRaised = true) (hi : c.code.toNat < 0x10 → info = 0)
      (hn : i ≠ .halt) : Runs i s (s.raiseFault c info)
  | failed {u : State} (hi : (∃ w fl, i = .wrreg w fl) ∨ ∃ w, i = .rdreg w) (h : Ran false true s u)
      (ht : ∃ es e, u.trace = s.trace ++ es ++ [e] ∧ e.canFail = true) : Runs i s (u.raiseFault .bus 0)
  | cut {u : State} (hc : s.env.cut ≠ none) (h : Ran (Instr.writes i) (Instr.emits i) s u) (hn : i ≠ .halt) : Runs i s u.resetInput

/-- A body behind checks that emits nothing or raises no fault of its own. -/
theorem runs_guarded {i : Instr} {body rest : Cmd Unit} {cs : Checks} {s t : State} (g : Guards body cs rest s) (hp : cs.Proper)
    (hn : i ≠ .halt) (hw : Within (Instr.writes i) (Instr.emits i) onlyCut rest) (h : runBody body s = .next t) : Runs i s t := by
  rcases runBody_next h with ⟨u, hb, rfl⟩ | ⟨c, info, u, hb, rfl⟩ | ⟨u, hb, rfl⟩ | ⟨u, hb, hc, rfl⟩
  all_goals
    cases hf : cs.firstFault with
    | some x =>
      obtain ⟨c', i'⟩ := x
      have := g.fault hf
      rw [hb] at this
      first
        | (cases this; obtain ⟨h1, h2, h3⟩ := hp.fault hf; exact .refused h1 h2 h3 hn)
        | cases this
    | none =>
      have := g.pass (pass_iff.2 hf)
      rw [hb] at this
      first
        | exact .completed (f := id) (hw.of_ok this.symm) .none hn
        | (obtain ⟨h1, h2, h3⟩ := hw.of_error this.symm
           first
             | exact .cut h3 h1 hn
             | cases h2)

theorem guards_set (rd : PReg) (imm : Word) (s : State) :
    Guards (setBody rd imm) [(!rd.fits imm, .illegal, encodeW0 (.set rd imm))] (modify (·.setParam rd imm)) s :=
  guards_require (by rw [Bool.not_not]) fun _ => guards_nil rfl

theorem runs_exec {i : Instr} {s t : State} (h : exec i s = .next t) : Runs i s t := by
  cases i with
  | halt => injection h with h; subst h; exact .halted rfl
  | set rd imm =>
    replace h : runBody (setBody rd imm) s = .next t := h
    have g := guards_set rd imm s
    cases hf : rd.fits imm with
    | true =>
      rw [run_body_ok (t := s.setParam rd imm) ((g.pass (by simp [Checks.pass, hf])).trans rfl)] at h
      injection h with h; subst h
      exact .completed (Ran.refl s) (.set hf) (by simp)
    | false =>
      rw [run_body_raised (g.fault (by rw [hf]; rfl))] at h
      injection h with h; subst h
      exact .refused (by simp) rfl (fun h => absurd h illegal_code) (by simp)
  | delay ms =>
    exact runs_guarded (i := .delay ms) (cs := []) (rest := delayBody ms) (guards_nil rfl) proper_nil (by simp)
      (within_emitAll_plain onlyCut_cut _ (by simp [Event.asks, Event.canFail, Event.returns])) h
  | merge copy =>
    replace h : runBody (mergeBody copy) s = .next t := h
    have g := guards_merge copy s
    cases hf : (mergeChecks copy s).firstFault with
    | some x =>
      obtain ⟨c, info⟩ := x
      rw [run_body_raised (g.fault hf)] at h
      injection h with h; subst h
      obtain ⟨h1, h2, h3⟩ := (proper_merge copy s).fault hf
      exact .refused h1 h2 h3 (by simp)
    | none =>
      obtain ⟨v, rects, hr, hm⟩ := mergeRest_ok copy s s
      rw [run_body_ok ((g.pass (pass_iff.2 hf)).trans hm)] at h
      injection h with h; subst h
      exact .completed (f := fun u => u.mergeCore rects) hr (.merge rects) (by simp)
  | take =>
    replace h : runBody (modify State.taken) s = .next t := h
    rw [run_body_ok (run_modify State.taken s)] at h
    injection h with h; subst h
    exact .completed (Ran.refl s) .take (by simp)
  | cp565 => exact runs_guarded (guards_convert _ _ s) (proper_conversion _ _ _ _ _ s) (by simp) (within_pixels s within_copyPixel) h
  | sw565 => exact runs_guarded (guards_convert _ _ s) (proper_conversion _ _ _ _ _ s) (by simp) (within_pixels s within_swapPixel) h
  | x2r565 =>
    exact runs_guarded (guards_convert _ _ s) (proper_conversion _ _ _ _ _ s) (by simp) (within_pixels s within_truncPixel) h
  | r2gray gamma =>
    exact runs_guarded (guards_convert _ _ s) (proper_conversion _ _ _ _ _ s) (by simp) (within_pixels s (within_grayPixel gamma)) h
  | dither => exact runs_guarded (guards_dither s) (proper_dither s) (by simp) (within_ditherLoop s) h
  | pack1 => exact runs_guarded (guards_pack1 s) (proper_pack1 s) (by simp) (within_packLoop s) h
  | breset =>
    refine runs_guarded (i := .breset) (cs := []) (rest := bresetBody) (guards_nil rfl) proper_nil (by simp) ?_ h
    refine within_get_bind fun u => within_emitAll_plain onlyCut_cut _ ?_
    unfold State.resetPulse
    split <;> simp [Event.asks, Event.canFail, Event.returns]
  | wrreg w16 fl =>
    replace h : runBody (wrregBody w16 fl) s = .next t := h
    have g := guards_wrreg w16 fl s
    have hw := within_wrregPhases (w := false) w16 s
    cases hf : (wrregChecks w16 fl s).firstFault with
    | some x =>
      obtain ⟨c, info⟩ := x
      rw [run_body_raised (g.fault hf)] at h
      injection h with h; subst h
      obtain ⟨h1, h2, h3⟩ := (proper_wrreg w16 fl s).fault hf
      exact .refused h1 h2 h3 (by simp)
    | none =>
      have gp := g.pass (pass_iff.2 hf)
      rcases runBody_next h with ⟨u, hb, rfl⟩ | ⟨c, info, u, hb, rfl⟩ | ⟨u, hb, rfl⟩ | ⟨u, hb, hc, rfl⟩
      · exact .completed (f := id) (hw.of_ok (gp.symm.trans hb)) .none (by simp)
      · obtain ⟨h1, h2, h3⟩ := hw.of_error (gp.symm.trans hb)
        rcases h2 with h2 | h2 | h2
        · cases h2
        · cases h2
        · injection h2 with h4 h5; subst h4 h5; exact .failed (Or.inl ⟨w16, fl, rfl⟩) h1 (h3 rfl)
      · obtain ⟨h1, h2, h3⟩ := hw.of_error (gp.symm.trans hb)
        exact .cut h3 h1 (by simp)
      · obtain ⟨h1, h2, h3⟩ := hw.of_error (gp.symm.trans hb)
        exact .cut (fun x => by rw [h1.cut.1 x] at hc; cases hc) h1 (by simp)
  | rdreg w16 =>
    replace h : runBody (rdregBody w16) s = .next t := h
    have g := guards_rdreg w16 s
    cases hf : (rdregChecks w16 s).firstFault with
    | some x =>
      obtain ⟨c, info⟩ := x
      rw [run_body_raised (g.fault hf)] at h
      injection h with h; subst h
      obtain ⟨h1, h2, h3⟩ := (proper_rdreg w16 s).fault hf
      exact .refused h1 h2 h3 (by simp)
    | none =>
      have gp := g.pass (pass_iff.2 hf)
      have hw := within_rdregPhases w16 s
      rcases runBody_next h with ⟨u, hb, rfl⟩ | ⟨c, info, u, hb, rfl⟩ | ⟨u, hb, rfl⟩ | ⟨u, hb, hc, rfl⟩
      · exact .completed (f := id) (hw.of_ok (gp.symm.trans hb)) .none (by simp)
      · have hb' := gp.symm.trans hb
        unfold rdregPhases at hb'
        cases hr : rdregRead w16 s s with
        | ok vs v =>
          rw [run_bind_ok hr] at hb'
          have := ((within_storeWords (em := true) w16 vs _).of_error hb').2.1
          cases this
        | error e v =>
          rw [run_bind_error hr] at hb'
          injection hb' with h4 h5
          subst h4 h5
          obtain ⟨h1, h2, h3⟩ := (within_rdregRead (w := false) w16 s).of_error hr
          rcases h2 with h2 | h2 | h2
          · cases h2
          · cases h2
          · injection h2 with h4 h5; subst h4 h5; exact .failed (Or.inr ⟨w16, rfl⟩) h1 (h3 rfl)
      · obtain ⟨h1, h2, h3⟩ := hw.of_error (gp.symm.trans hb)
        exact .cut h3 h1 (by simp)
      · obtain ⟨h1, h2, h3⟩ := hw.of_error (gp.symm.trans hb)
        exact .cut (fun x => by rw [h1.cut.1 x] at hc; cases hc) h1 (by simp)

/-- A body behind checks stops only where what follows does. -/
theorem stops_guarded {body rest : Cmd Unit} {cs : Checks} {s : State} {w em : Bool} {ok : Stop → Prop} (g : Guards body cs rest s)
    (hw : Within w em ok rest) (h : ∀ t, runBody body s ≠ .next t) :
    runBody body s = .fault .transportSilent ∧ s.env.cut = none ∧ ∃ n, s.env.asked ≤ n ∧ s.env.answer n = .silent := by
  obtain ⟨h1, u, h2, h3⟩ := runBody_stop h
  refine ⟨h1, ?_⟩
  cases hf : cs.firstFault with
  | some x => obtain ⟨c, i⟩ := x; rw [g.fault hf] at h2; cases h2
  | none =>
    rw [g.pass (pass_iff.2 hf)] at h2
    obtain ⟨h4, -, h5⟩ := hw.of_error h2
    exact ⟨h4.cut.2 h3, h5⟩

/-- A command without a next state waits for a transport that is silent. -/
theorem exec_stop {i : Instr} {s : State} (h : ∀ t, exec i s ≠ .next t) :
    exec i s = .fault .transportSilent ∧ s.env.cut = none ∧ ∃ n, s.env.asked ≤ n ∧ s.env.answer n = .silent := by
  cases i with
  | halt => exact absurd rfl (h _)
  | set rd imm =>
    obtain ⟨h1, u, h2, h3⟩ := runBody_stop (body := setBody rd imm) h
    have g := guards_set rd imm s
    cases hf : rd.fits imm with
    | true => rw [g.pass (by simp [Checks.pass, hf])] at h2; cases h2
    | false => rw [g.fault (by rw [hf]; rfl)] at h2; cases h2
  | delay ms =>
    exact stops_guarded (cs := []) (rest := delayBody ms) (guards_nil rfl) (w := true)
      (within_emitAll_plain onlyCut_cut _ (by simp [Event.asks, Event.canFail, Event.returns])) h
  | merge copy =>
    have g := guards_merge copy s
    obtain ⟨h1, u, h2, h3⟩ := runBody_stop h
    cases hf : (mergeChecks copy s).firstFault with
    | some x => obtain ⟨c, i⟩ := x; rw [g.fault hf] at h2; cases h2
    | none =>
      obtain ⟨v, rects, hr, hm⟩ := mergeRest_ok copy s s
      rw [g.pass (pass_iff.2 hf), hm] at h2; cases h2
  | take => exact absurd (run_body_ok (run_modify State.taken s)) (h _)
  | cp565 => exact stops_guarded (guards_convert _ _ s) (within_pixels s within_copyPixel) h
  | sw565 => exact stops_guarded (guards_convert _ _ s) (within_pixels s within_swapPixel) h
  | x2r565 => exact stops_guarded (guards_convert _ _ s) (within_pixels s within_truncPixel) h
  | r2gray gamma => exact stops_guarded (guards_convert _ _ s) (within_pixels s (within_grayPixel gamma)) h
  | dither => exact stops_guarded (guards_dither s) (within_ditherLoop s) h
  | pack1 => exact stops_guarded (guards_pack1 s) (within_packLoop s) h
  | breset =>
    refine stops_guarded (cs := []) (rest := bresetBody) (guards_nil rfl) (w := true) (em := true) (ok := onlyCut) ?_ h
    refine within_get_bind fun u => within_emitAll_plain onlyCut_cut _ ?_
    unfold State.resetPulse
    split <;> simp [Event.asks, Event.canFail, Event.returns]
  | wrreg w16 fl => exact stops_guarded (guards_wrreg w16 fl s) (within_wrregPhases (w := true) w16 s) h
  | rdreg w16 => exact stops_guarded (guards_rdreg w16 s) (within_rdregPhases w16 s) h

end Sys2Proof.Machine
end

