-- ==== Sys2Proof/Laws/HostPort.lean ====
section
/-! SUPPORT. What a host write to the register block can do, but for `CTRL`. -/

namespace Sys2Proof.Machine

/-- What no host write except one to `CTRL` touches: the run, the fault, `FIRST`, memory, the trace, the platform, the outside world. -/
structure HostKeeps (s t : State) : Prop where
  run : t.run = s.run
  done : t.done = s.done
  first : t.first = s.first
  err : t.err = s.err
  errInfo : t.errInfo = s.errInfo
  trace : t.trace = s.trace
  mem : t.mem = s.mem
  plat : t.plat = s.plat
  env : t.env = s.env

theorem HostKeeps.refl (s : State) : HostKeeps s s := by constructor <;> rfl

theorem hostKeeps_markDrop (s : State) : HostKeeps s s.markDrop := by constructor <;> rfl

theorem hostKeeps_whenIdle {s t : State} (h : HostKeeps s t) : HostKeeps s (s.whenIdle t) := by
  unfold State.whenIdle
  split
  · exact hostKeeps_markDrop s
  · exact h

theorem hostKeeps_push (s : State) (v : Word) : HostKeeps s (s.push v) := by
  unfold State.push
  split <;> constructor <;> rfl

/-- A host write to any offset but that of `CTRL`. -/
theorem hostKeeps_hostWrite (s : State) (off : Nat) (v : Word) (h : off ≠ 0) : HostKeeps s (hostWrite s off v) := by
  unfold hostWrite
  split
  case h_1 => exact absurd rfl h
  case h_11 => exact hostKeeps_push s v
  case h_12 =>
    split
    · split
      · exact hostKeeps_whenIdle (by constructor <;> rfl)
      · exact hostKeeps_markDrop s
    · exact hostKeeps_markDrop s
  all_goals first
    | exact hostKeeps_whenIdle (by constructor <;> rfl)
    | (constructor <;> rfl)

end Sys2Proof.Machine
end

