-- ==== Sys2Proof/Laws/PerInstr.lean ====
section
/-! SUPPORT. Every command's encoding lies in its own row of the opcode map, constructor by constructor. -/

namespace Sys2Proof.Laws.MatchesRow

/-- The encoding of a well-formed command has the `match` of its row under the row's `mask` (30_encoding.md R113). -/
def Statement (i : Instr) : Prop := i.wf = true → encode i &&& i.rowMask = i.rowMatch

/-- A mask of the low word does not see the high word. -/
theorem low_mask (w1 w0 m : Word) : (w1 ++ w0 : BitVec 64) &&& ((0 : Word) ++ m : BitVec 64) = (0 : Word) ++ (w0 &&& m) := by
  rw [BitVec.and_append, show w1 &&& (0 : Word) = 0 from BitVec.and_zero]

theorem halt : Statement .halt := fun _ => by decide

theorem set (rd : PReg) (imm : Word) : Statement (.set rd imm) := fun _ => by
  show (imm ++ ((0 : BitVec 20) ++ rd.num ++ (0x02 : Byte) : BitVec 32) : BitVec 64) &&& 0x00000000FFFFF0FF = 0x02
  refine (low_mask imm _ 0xFFFFF0FF).trans ?_
  show ((0 : Word) ++ (((0 : BitVec 20) ++ rd.num ++ (0x02 : Byte) : BitVec 32) &&& 0xFFFFF0FF) : BitVec 64) = 0x02
  cases rd <;> decide

theorem delay (ms : Word) : Statement (.delay ms) := fun _ => (low_mask ms 0x03 0xFFFFFFFF).trans
  (by show ((0 : Word) ++ ((0x03 : Word) &&& 0xFFFFFFFF) : BitVec 64) = 0x03; decide)

theorem merge (copy : Bool) : Statement (.merge copy) := fun _ => by cases copy <;> decide

theorem take : Statement .take := fun _ => by decide

theorem cp565 : Statement .cp565 := fun _ => by decide

theorem sw565 : Statement .sw565 := fun _ => by decide

theorem x2r565 : Statement .x2r565 := fun _ => by decide

theorem r2gray (gamma : Bool) : Statement (.r2gray gamma) := fun _ => by cases gamma <;> decide

theorem dither : Statement .dither := fun _ => by decide

theorem pack1 : Statement .pack1 := fun _ => by decide

theorem wrreg (w16 fl : Bool) : Statement (.wrreg w16 fl) := fun _ => by cases w16 <;> cases fl <;> decide

theorem rdreg (w16 : Bool) : Statement (.rdreg w16) := fun _ => by cases w16 <;> decide

theorem breset : Statement .breset := fun _ => by decide

end Sys2Proof.Laws.MatchesRow
end

