-- ==== Sys2Proof/Laws/Step.lean ====
section
/-! SUPPORT. The step: what a fetch does, and every way the sequencer's turn can end. -/

namespace Sys2Proof.Machine

/-! ## Fetch -/

/-- A fetch is refused, or reads two words and changes no register, no memory and no trace. -/
theorem fetch_cases (s : State) :
    (accessible s.plat s.cpValue.toNat 8 .rd = false ∧ fetch s = .error (.raised .access s.cpValue) s) ∨
    (accessible s.plat s.cpValue.toNat 8 .rd = true ∧ ∃ w0 w1 u, Ran false false s u ∧ fetch s = .ok (w0, w1) u) := by
  unfold fetch
  rw [run_get_bind]
  cases ha : accessible s.plat s.cpValue.toNat 8 .rd
  · left; exact ⟨rfl, rfl⟩
  · right
    refine ⟨rfl, ?_⟩
    have h := within_bind (w := false) (em := false) (ok := fun _ => False) (within_read32 s.cpValue.toNat)
      fun w0 => within_bind (within_read32 (s.cpValue.toNat + 4)) fun w1 => within_pure (w0, w1)
    rw [if_pos rfl]
    generalize hc : (read32 s.cpValue.toNat >>= fun w0 => read32 (s.cpValue.toNat + 4) >>= fun w1 => pure (w0, w1)) = c at h
    cases hcs : c s with
    | ok v u => obtain ⟨w0, w1⟩ := v; exact ⟨w0, w1, u, h.of_ok hcs, rfl⟩
    | error e u => exact absurd (h.of_error hcs).2.1 id

/-- On an undisturbed state a fetch gives the two words at `CP` and changes nothing. -/
theorem run_fetch {s : State} (h : s.undisturbed = true) (ha : accessible s.plat s.cpValue.toNat 8 .rd = true) :
    fetch s = .ok (s.word s.cpValue.toNat, s.word (s.cpValue.toNat + 4)) s := by
  unfold fetch
  rw [run_get_bind, if_pos ha, run_bind_ok (run_read32 h _), run_bind_ok (run_read32 h _)]
  rfl

/-! ## The sequencer's turn -/

/-- Every way the sequencer's turn gives a next state, before what was in flight lands. -/
inductive SeqRuns (s : State) : State → Prop
  | idle (h : s.run = false) : SeqRuns s s
  | noFetch (h : s.run = true) (ha : accessible s.plat s.cpValue.toNat 8 .rd = false) : SeqRuns s (s.raiseFault .access s.cpValue)
  | illegal {u : State} {w0 w1 : Word} {e : Illegal} (h : s.run = true) (hr : Ran false false s u)
      (hd : decode (w1 ++ w0 : BitVec 64) = .error e) (hw : s.undisturbed = true → u = s ∧ w0 = s.word s.cpValue.toNat ∧
        w1 = s.word (s.cpValue.toNat + 4)) : SeqRuns s (u.raiseFault .illegal w0)
  | runs {u t : State} {w0 w1 : Word} {i : Instr} (h : s.run = true) (hr : Ran false false s u)
      (hd : decode (w1 ++ w0 : BitVec 64) = .ok i) (hw : s.undisturbed = true → u = s ∧ w0 = s.word s.cpValue.toNat ∧
        w1 = s.word (s.cpValue.toNat + 4)) (he : exec i u = .next t) (ht : Runs i u t) : SeqRuns s t

theorem seqStep_cases (s : State) :
    (∃ t, seqStep s = .next t ∧ SeqRuns s t) ∨
    (seqStep s = .fault .transportSilent ∧ s.run = true ∧ s.env.cut = none ∧
      ∃ n, s.env.asked ≤ n ∧ s.env.answer n = .silent) := by
  unfold seqStep
  cases hrun : s.run
  · left; exact ⟨s, rfl, .idle hrun⟩
  rw [if_pos rfl]
  rcases fetch_cases s with ⟨ha, hf⟩ | ⟨ha, w0, w1, u, hr, hf⟩
  · left; rw [hf]; exact ⟨_, rfl, .noFetch hrun ha⟩
  · have hw : s.undisturbed = true → u = s ∧ w0 = s.word s.cpValue.toNat ∧ w1 = s.word (s.cpValue.toNat + 4) := by
      intro hq
      rw [run_fetch hq ha] at hf
      injection hf with h1 h2
      injection h1 with h3 h4
      exact ⟨h2.symm, h3.symm, h4.symm⟩
    rw [hf]
    simp only [runFetched]
    cases hd : decode (w1 ++ w0 : BitVec 64) with
    | error e => left; exact ⟨_, rfl, .illegal hrun hr hd hw⟩
    | ok i =>
      by_cases he : ∃ t, exec i u = .next t
      · obtain ⟨t, he⟩ := he
        left; exact ⟨t, he, .runs hrun hr hd hw he (runs_exec he)⟩
      · right
        obtain ⟨h1, h2, n, h3, h4⟩ := exec_stop (fun t ht => he ⟨t, ht⟩)
        exact ⟨h1, trivial, hr.cut.2 h2, n, hr.asked.trans h3, by rw [← hr.answer]; exact h4⟩

/-! ## The end of the turn -/

theorem land_undisturbed {s : State} (h : s.undisturbed = true) : s.land = s := by
  obtain ⟨h1, h2⟩ := undisturbed_iff.1 h
  cases s with
  | mk p cp run done drop first err errInfo irqEn busCfg busCfg2 maxChunk rstCfg pipe acc dp trace mem plat env =>
    cases env with
    | mk turns answers asked raceBits draws inFlight cut hostSaw =>
      simp only at h1
      subst h1
      rfl

theorem settle_undisturbed {s : State} (h : s.undisturbed = true) : s.settle = s := by
  unfold State.settle
  rw [(undisturbed_iff.1 h).2, land_undisturbed h]
  rfl

/-- A turn without disturbances starts where it is. -/
theorem disturbed_nothing {s : State} (h : s.undisturbed = true) : s.disturbed [] none = s := by
  obtain ⟨h1, h2⟩ := undisturbed_iff.1 h
  cases s with
  | mk p cp run done drop first err errInfo irqEn busCfg busCfg2 maxChunk rstCfg pipe acc dp trace mem plat env =>
    cases env with
    | mk turns answers asked raceBits draws inFlight cut hostSaw =>
      simp only at h1 h2
      subst h1 h2
      rfl

theorem Ran.undisturbed {w em : Bool} {s t : State} (h : Ran w em s t) (hs : s.undisturbed = true) : t.undisturbed = true := by
  obtain ⟨h1, h2⟩ := undisturbed_iff.1 hs
  exact undisturbed_iff.2 ⟨h.inFlight h1, h.cut.1 h2⟩

/-- A command leaves nothing in flight where nothing was. -/
theorem Runs.undisturbed {i : Instr} {s t : State} (h : Runs i s t) (hs : s.undisturbed = true) : t.undisturbed = true := by
  cases h with
  | halted h => exact hs
  | completed h hf hn =>
    have := h.undisturbed hs
    cases hf <;> exact this
  | refused => exact hs
  | failed hi h ht => exact h.undisturbed hs
  | cut hc h hn => exact absurd (undisturbed_iff.1 hs).2 hc

theorem SeqRuns.undisturbed {s t : State} (h : SeqRuns s t) (hs : s.undisturbed = true) : t.undisturbed = true := by
  cases h with
  | idle h => exact hs
  | noFetch h ha => exact hs
  | illegal h hr hd hw => exact hr.undisturbed hs
  | runs h hr hd hw he ht => exact ht.undisturbed (hr.undisturbed hs)

/-- Every way a step gives a next state. -/
theorem step_cases {s t : State} (h : step s = .next t) :
    (s.env.turns = [] ∧ ∃ u, SeqRuns s u ∧ seqStep s = .next u ∧ t = u.settle) ∨
    (∃ ws k ts u, s.env.turns = .sequencer ws k :: ts ∧ SeqRuns ((s.withTurns ts).disturbed ws k) u ∧
      seqStep ((s.withTurns ts).disturbed ws k) = .next u ∧ t = u.settle) ∨
    (∃ off size v ts, s.env.turns = .regWrite off size v :: ts ∧ accessShaped off size = true ∧
      t = hostWrite (s.withTurns ts) off v) ∨
    (∃ off size ts, s.env.turns = .regRead off size :: ts ∧ accessShaped off size = true ∧
      t = (s.withTurns ts).withEnv { (s.withTurns ts).env with
        hostSaw := s.env.hostSaw ++ [(off, hostRead (s.withTurns ts) off)] }) ∨
    (∃ cells ts, s.env.turns = .store cells :: ts ∧ t = (s.withTurns ts).withMem (memStoreAll s.mem cells)) ∨
    (∃ ts, s.env.turns = .reset :: ts ∧ t = (s.withTurns ts).resetInput) := by
  unfold step at h
  have seq : ∀ u, settled (seqStep u) = .next t → ∃ v, SeqRuns u v ∧ seqStep u = .next v ∧ t = v.settle := by
    intro u hu
    rcases seqStep_cases u with ⟨v, hv, hr⟩ | ⟨hv, -⟩
    · rw [hv] at hu; injection hu with hu; exact ⟨v, hr, hv, hu.symm⟩
    · rw [hv] at hu; cases hu
  cases ht : s.env.turns with
  | nil => rw [ht] at h; left; exact ⟨rfl, seq s h⟩
  | cons x ts =>
    rw [ht] at h
    cases x with
    | sequencer ws k =>
      right; left
      obtain ⟨v, h1, h2, h3⟩ := seq _ h
      exact ⟨ws, k, ts, v, rfl, h1, h2, h3⟩
    | regWrite off size v =>
      right; right; left
      simp only [turnWrite] at h
      split at h
      · injection h with h; exact ⟨off, size, v, ts, rfl, ‹_›, h.symm⟩
      · cases h
    | regRead off size =>
      right; right; right; left
      simp only [turnRead] at h
      split at h
      · injection h with h; exact ⟨off, size, ts, rfl, ‹_›, h.symm⟩
      · cases h
    | store cells =>
      right; right; right; right; left
      injection h with h; exact ⟨cells, ts, rfl, h.symm⟩
    | reset =>
      right; right; right; right; right
      injection h with h; exact ⟨ts, rfl, h.symm⟩

/-- A step of an undisturbed sequencer is its turn. -/
theorem step_of_seqStep {s t : State} (ht : s.env.turns = []) (hq : s.undisturbed = true) (h : seqStep s = .next t) :
    step s = .next t := by
  unfold step
  rw [ht]
  simp only [h, settled]
  rcases seqStep_cases s with ⟨u, hu, hr⟩ | ⟨hu, -⟩
  · rw [hu] at h
    injection h with h
    subst h
    rw [settle_undisturbed (hr.undisturbed hq)]
  · rw [hu] at h; cases h

end Sys2Proof.Machine
end

