-- ==== Sys2Proof/Laws/Unseen.lean ====
section
/-! SUPPORT. What a command cannot see: `IRQEN`, `PIPE.PREPARED` but for a flush, and a reset on its way. Two states that differ only in
the first two run alike; and a command is a sequence of memory writes and events, of which a reset leaves the beginning. -/

namespace Sys2Proof.Machine

/-- The states differ at most in `IRQEN`, in bits of `PIPE` that commands do not read, and in the reset on its way. -/
structure Alike (s t : State) : Prop where
  p : t.p = s.p
  cp : t.cp = s.cp
  run : t.run = s.run
  done : t.done = s.done
  drop : t.drop = s.drop
  first : t.first = s.first
  err : t.err = s.err
  errInfo : t.errInfo = s.errInfo
  busCfg : t.busCfg = s.busCfg
  busCfg2 : t.busCfg2 = s.busCfg2
  maxChunk : t.maxChunk = s.maxChunk
  rstCfg : t.rstCfg = s.rstCfg
  fullRow : t.fullRow = s.fullRow
  forceFull : t.forceFull = s.forceFull
  acc : t.acc = s.acc
  dp : t.dp = s.dp
  trace : t.trace = s.trace
  mem : t.mem = s.mem
  plat : t.plat = s.plat
  turns : t.env.turns = s.env.turns
  answers : t.env.answers = s.env.answers
  asked : t.env.asked = s.env.asked
  raceBits : t.env.raceBits = s.env.raceBits
  draws : t.env.draws = s.env.draws
  inFlight : t.env.inFlight = s.env.inFlight
  hostSaw : t.env.hostSaw = s.env.hostSaw

theorem Alike.refl (s : State) : Alike s s := by constructor <;> rfl

/-- The bodies of commands, built from what a body can do; a body sees of the state only what alike states share. -/
inductive Good : {α : Type} → Cmd α → Prop
  | pure {α : Type} (v : α) : Good (Pure.pure v)
  | raise {α : Type} (c : FaultCode) (i : Word) : Good (Machine.raise c i : Cmd α)
  | silent {α : Type} : Good (throw .silent : Cmd α)
  | get {α : Type} {f : State → Cmd α} (h : ∀ s t, Alike s t → f t = f s) (g : ∀ s, Good (f s)) : Good (MonadState.get >>= f)
  | bind {α β : Type} {c : Cmd α} {f : α → Cmd β} (h : Good c) (g : ∀ v, Good (f v)) : Good (c >>= f)
  | readAccess (a n : Nat) : Good (Machine.readAccess a n)
  | writeAccess (a : Nat) (bs : List Byte) (h : bs.length ≤ 2) : Good (Machine.writeAccess a bs)
  | emit (e : Event) : Good (Machine.emit e)
  | ask : Good Machine.ask
  | setParam (rd : PReg) (v : Word) : Good (modify fun s => s.setParam rd v)
  | mergeCore (rects : List Rect) : Good (modify fun s => s.mergeCore rects)
  | taken : Good (modify State.taken)

/-- The state a result carries. -/
def Result.state {α : Type} : EStateM.Result Stop State α → State
  | .ok _ s => s
  | .error _ s => s

@[simp] theorem Result.state_ok {α : Type} (v : α) (s : State) : Result.state (.ok v s : EStateM.Result Stop State α) = s := rfl

@[simp] theorem Result.state_error {α : Type} (e : Stop) (s : State) :
    Result.state (.error e s : EStateM.Result Stop State α) = s := rfl

theorem effect_now {s : State} (h : s.env.cut = some 0) : effect s = .error .cut s := by simp [effect, h]

theorem effect_later {s : State} {k : Nat} (h : s.env.cut = some (k + 1)) :
    effect s = .ok () (s.withEnv { s.env with cut := some k }) := by simp [effect, h]

/-- A body only appends to the trace, keeps the platform and adds no store in flight. -/
theorem Good.grows {α : Type} {c : Cmd α} (h : Good c) :
    ∀ s, s.trace <+: (Result.state (c s)).trace ∧ (Result.state (c s)).plat = s.plat ∧
      (s.env.inFlight = [] → (Result.state (c s)).env.inFlight = []) := by
  induction h with
  | pure v => exact fun s => ⟨List.prefix_refl _, rfl, id⟩
  | raise c i => exact fun s => ⟨List.prefix_refl _, rfl, id⟩
  | silent => exact fun s => ⟨List.prefix_refl _, rfl, id⟩
  | get h g ih => exact fun s => ih s s
  | @bind α β c f h g ih jh =>
    intro s
    rw [run_bind]
    have := ih s
    revert this
    cases c s with
    | ok v u =>
      intro h
      have h' := jh v u
      exact ⟨h.1.trans h'.1, h'.2.1.trans h.2.1, fun x => h'.2.2 (h.2.2 x)⟩
    | error e u => exact id
  | readAccess a n => exact fun s => ⟨List.prefix_refl _, rfl, id⟩
  | writeAccess a bs _ =>
    intro s
    unfold Machine.writeAccess
    cases hc : s.env.cut with
    | none =>
      rw [run_bind_ok (run_effect hc)]
      exact ⟨List.prefix_refl _, rfl, fun x => by show racedStores _ _ _ _ s.env.inFlight = []; rw [x]; rfl⟩
    | some k =>
      cases k with
      | zero => rw [run_bind_error (effect_now hc)]; exact ⟨List.prefix_refl _, rfl, id⟩
      | succ k =>
        rw [run_bind_ok (effect_later hc)]
        exact ⟨List.prefix_refl _, rfl, fun x => by show racedStores _ _ _ _ s.env.inFlight = []; rw [x]; rfl⟩
  | emit e =>
    intro s
    unfold Machine.emit
    cases hc : s.env.cut with
    | none => rw [run_bind_ok (run_effect hc)]; exact ⟨List.prefix_append _ _, rfl, id⟩
    | some k =>
      cases k with
      | zero => rw [run_bind_error (effect_now hc)]; exact ⟨List.prefix_refl _, rfl, id⟩
      | succ k => rw [run_bind_ok (effect_later hc)]; exact ⟨List.prefix_append _ _, rfl, id⟩
  | ask => exact fun s => ⟨List.prefix_refl _, rfl, id⟩
  | setParam rd v => exact fun s => ⟨List.prefix_refl _, rfl, id⟩
  | mergeCore rects => exact fun s => ⟨List.prefix_refl _, rfl, id⟩
  | taken => exact fun s => ⟨List.prefix_refl _, rfl, id⟩

theorem racedView_congr {e e' : Env} (h : e'.raceBits = e.raceBits) : ∀ (ws : List HostStore) (k : Nat) (m : Memory),
    racedView e' k ws m = racedView e k ws m
  | [], _, _ => rfl
  | w :: ws, k, m => by
    have hb : e'.raceBit k = e.raceBit k := by unfold Env.raceBit; rw [h]
    unfold racedView
    rw [hb, racedView_congr h]

theorem racedStores_congr {e e' : Env} (h : e'.raceBits = e.raceBits) (a n : Nat) : ∀ (ws : List HostStore) (k : Nat),
    racedStores e' a n k ws = racedStores e a n k ws
  | [], _ => rfl
  | w :: ws, k => by
    have hb : e'.raceBit k = e.raceBit k := by unfold Env.raceBit; rw [h]
    unfold racedStores
    rw [hb, racedStores_congr h]

/-- How a body runs from `t` where it runs to `u` from the alike `s`: to `v`, which is alike and keeps what `s` and `t` differ in. -/
structure Follows (s t u v : State) : Prop where
  alike : Alike u v
  irqEn : u.irqEn = s.irqEn ∧ v.irqEn = t.irqEn
  pipe : u.pipe = s.pipe ∧ v.pipe = t.pipe
  cut : u.env.cut = s.env.cut ∧ v.env.cut = t.env.cut

/-- Where no reset is on its way the body runs alike from alike states, to the same value or the same stop. -/
def Blind {α : Type} (c : Cmd α) : Prop :=
  ∀ s t, Alike s t → s.env.cut = none → t.env.cut = none →
    ∃ u v, Follows s t u v ∧ ((∃ x, c s = .ok x u ∧ c t = .ok x v) ∨ ∃ e, e ≠ .cut ∧ c s = .error e u ∧ c t = .error e v)

theorem Follows.refl {s t : State} (h : Alike s t) : Follows s t s t := ⟨h, ⟨rfl, rfl⟩, ⟨rfl, rfl⟩, rfl, rfl⟩

theorem Follows.trans {s t u v x y : State} (h : Follows s t u v) (g : Follows u v x y) : Follows s t x y where
  alike := g.alike
  irqEn := ⟨g.irqEn.1.trans h.irqEn.1, g.irqEn.2.trans h.irqEn.2⟩
  pipe := ⟨g.pipe.1.trans h.pipe.1, g.pipe.2.trans h.pipe.2⟩
  cut := ⟨g.cut.1.trans h.cut.1, g.cut.2.trans h.cut.2⟩

/-- An operation that gives one value and changes alike states alike. -/
theorem blind_ok {α : Type} {c : Cmd α} {val : State → α} {f : State → State}
    (hc : ∀ s, s.env.cut = none → c s = .ok (val s) (f s)) (hv : ∀ s t, Alike s t → val t = val s)
    (hf : ∀ s t, Alike s t → Follows s t (f s) (f t)) : Blind c := by
  intro s t ha h1 h2
  exact ⟨f s, f t, hf s t ha, Or.inl ⟨val s, hc s h1, by rw [hc t h2, hv s t ha]⟩⟩

/-- Every body built from the operations runs alike from alike states. -/
theorem Good.blind {α : Type} {c : Cmd α} (h : Good c) : Blind c := by
  induction h with
  | pure v => exact fun s t ha _ _ => ⟨s, t, Follows.refl ha, Or.inl ⟨v, rfl, rfl⟩⟩
  | raise c i => exact fun s t ha _ _ => ⟨s, t, Follows.refl ha, Or.inr ⟨.raised c i, by simp, rfl, rfl⟩⟩
  | silent => exact fun s t ha _ _ => ⟨s, t, Follows.refl ha, Or.inr ⟨.silent, by simp, rfl, rfl⟩⟩
  | get h g ih =>
    intro s t ha hs ht
    have := ih s s t ha hs ht
    simp only [run_get_bind, h s t ha]
    exact this
  | @bind α β c f h g ih jh =>
    intro s t ha hs ht
    obtain ⟨u, v, hf, ⟨x, h1, h2⟩ | ⟨e, he, h1, h2⟩⟩ := ih s t ha hs ht
    · obtain ⟨y, z, hg, hr⟩ := jh x u v hf.alike (hf.cut.1.trans hs) (hf.cut.2.trans ht)
      refine ⟨y, z, hf.trans hg, ?_⟩
      simp only [run_bind_ok h1, run_bind_ok h2]
      exact hr
    · exact ⟨u, v, hf, Or.inr ⟨e, he, run_bind_error h1, run_bind_error h2⟩⟩
  | readAccess a n =>
    refine blind_ok (val := fun s => memBytes (racedView s.env s.env.draws s.env.inFlight s.mem) a n)
      (f := fun s => s.withEnv { s.env with draws := s.env.draws + s.env.inFlight.length }) (fun _ _ => rfl) (fun s t ha => ?_)
      fun s t ha => ⟨{ ha with draws := ?_ }, ⟨rfl, rfl⟩, ⟨rfl, rfl⟩, rfl, rfl⟩
    · simp only [racedView_congr ha.raceBits, ha.draws, ha.inFlight, ha.mem]
    · show t.env.draws + _ = s.env.draws + _
      rw [ha.draws, ha.inFlight]
  | writeAccess a bs _ =>
    refine blind_ok (val := fun _ => ()) (f := fun s => (s.withMem (memStores s.mem a bs)).withEnv { s.env with
        inFlight := racedStores s.env a bs.length s.env.draws s.env.inFlight, draws := s.env.draws + s.env.inFlight.length })
      (fun s h => run_bind_ok (run_effect h)) (fun _ _ _ => rfl)
      fun s t ha => ⟨{ ha with mem := ?_, draws := ?_, inFlight := ?_ }, ⟨rfl, rfl⟩, ⟨rfl, rfl⟩, rfl, rfl⟩
    · show memStores t.mem a bs = memStores s.mem a bs
      rw [ha.mem]
    · show t.env.draws + _ = s.env.draws + _
      rw [ha.draws, ha.inFlight]
    · show racedStores t.env _ _ _ _ = racedStores s.env _ _ _ _
      rw [racedStores_congr ha.raceBits, ha.draws, ha.inFlight]
  | emit e =>
    refine blind_ok (val := fun _ => ()) (f := fun s => s.logged [e]) (fun s h => run_bind_ok (run_effect h)) (fun _ _ _ => rfl)
      fun s t ha => ⟨{ ha with trace := ?_ }, ⟨rfl, rfl⟩, ⟨rfl, rfl⟩, rfl, rfl⟩
    show t.trace ++ _ = s.trace ++ _
    rw [ha.trace]
  | ask =>
    refine blind_ok (val := fun s => s.env.asked) (f := fun s => s.withEnv { s.env with asked := s.env.asked + 1 }) (fun _ _ => rfl)
      (fun _ _ ha => ha.asked) fun s t ha => ⟨{ ha with asked := ?_ }, ⟨rfl, rfl⟩, ⟨rfl, rfl⟩, rfl, rfl⟩
    show t.env.asked + 1 = s.env.asked + 1
    rw [ha.asked]
  | setParam rd v =>
    refine blind_ok (val := fun _ => ()) (f := fun s => s.setParam rd v) (fun _ _ => rfl) (fun _ _ _ => rfl)
      fun s t ha => ⟨{ ha with p := ?_ }, ⟨rfl, rfl⟩, ⟨rfl, rfl⟩, rfl, rfl⟩
    show t.p.put v rd = s.p.put v rd
    rw [ha.p]
  | mergeCore rects =>
    refine blind_ok (val := fun _ => ()) (f := fun s => s.mergeCore rects) (fun _ _ => rfl) (fun _ _ _ => rfl)
      fun s t ha => ⟨{ ha with acc := ?_ }, ⟨rfl, rfl⟩, ⟨rfl, rfl⟩, rfl, rfl⟩
    show t.merged rects = s.merged rects
    unfold State.merged
    rw [ha.first, ha.forceFull, ha.p, ha.acc]
  | taken =>
    refine blind_ok (val := fun _ => ()) (f := State.taken) (fun _ _ => rfl) (fun _ _ _ => rfl)
      fun s t ha => ⟨{ ha with p := ?_, first := rfl, acc := rfl }, ⟨rfl, rfl⟩, ⟨rfl, rfl⟩, rfl, rfl⟩
    show ({ t.p with cx1 := t.acc.x1, cy1 := t.acc.y1, cx2 := t.acc.x2, cy2 := t.acc.y2 } : Params) =
      { s.p with cx1 := s.acc.x1, cy1 := s.acc.y1, cx2 := s.acc.x2, cy2 := s.acc.y2 }
    rw [ha.p, ha.acc]

/-! ## A body as a sequence of effects -/

theorem memAfter_append (m : Memory) (a b : List Effect) : memAfter m (a ++ b) = memAfter (memAfter m a) b := List.foldl_append

theorem eventsOf_append (a b : List Effect) : eventsOf (a ++ b) = eventsOf a ++ eventsOf b := List.filterMap_append

/-- The state with a reset on its way. -/
def State.cutAt (s : State) (k : Option Nat) : State := s.withEnv { s.env with cut := k }

theorem alike_cutAt (s : State) (k : Option Nat) : Alike s (s.cutAt k) := by constructor <;> rfl

/-- The result with its state replaced. -/
def Result.mapState {α : Type} (f : State → State) : EStateM.Result Stop State α → EStateM.Result Stop State α
  | .ok v s => .ok v (f s)
  | .error e s => .error e (f s)

/-- What a body has done when it ends, and when a reset comes after `k` effects: the first `k`. -/
structure Performs {α : Type} (c : Cmd α) (s : State) (effs : List Effect) : Prop where
  atomic : ∀ e ∈ effs, e.atomic = true
  mem : (Result.state (c s)).mem = memAfter s.mem effs
  trace : (Result.state (c s)).trace = s.trace ++ eventsOf effs
  quiet : (Result.state (c s)).env.cut = none ∧ (Result.state (c s)).env.inFlight = []
  uncut : ∀ t, c s ≠ .error .cut t
  whole : ∀ k, effs.length ≤ k → c (s.cutAt (some k)) = Result.mapState (·.cutAt (some (k - effs.length))) (c s)
  part : ∀ k, k < effs.length → ∃ t, c (s.cutAt (some k)) = .error .cut t ∧ t.mem = memAfter s.mem (effs.take k) ∧
    t.trace = s.trace ++ eventsOf (effs.take k) ∧ t.plat = s.plat ∧ t.env.inFlight = []

/-- A body without effects. -/
theorem performs_nothing {α : Type} {c : Cmd α} {s : State} (h : ∀ k, c (s.cutAt (some k)) = Result.mapState (·.cutAt (some k)) (c s))
    (hm : (Result.state (c s)).mem = s.mem) (ht : (Result.state (c s)).trace = s.trace)
    (hq : (Result.state (c s)).env.cut = none ∧ (Result.state (c s)).env.inFlight = []) (hu : ∀ t, c s ≠ .error .cut t) :
    Performs c s [] :=
  ⟨fun _ he => (by cases he), hm, (by rw [ht]; simp [eventsOf]), hq, hu, fun k _ => h k, fun k hk => absurd hk (by simp)⟩

/-- Every body built from the operations performs a sequence of effects, and a reset cuts it. -/
theorem Good.performs {α : Type} {c : Cmd α} (h : Good c) :
    ∀ s : State, s.env.cut = none → s.env.inFlight = [] → ∃ effs, Performs c s effs := by
  induction h with
  | pure v => exact fun s hc hi => ⟨[], performs_nothing (fun _ => rfl) rfl rfl ⟨hc, hi⟩ (fun _ h => by cases h)⟩
  | raise c i => exact fun s hc hi => ⟨[], performs_nothing (fun _ => rfl) rfl rfl ⟨hc, hi⟩ (fun _ h => by cases h)⟩
  | silent => exact fun s hc hi => ⟨[], performs_nothing (fun _ => rfl) rfl rfl ⟨hc, hi⟩ (fun _ h => by cases h)⟩
  | @get α f h g ih =>
    intro s hc hi
    obtain ⟨effs, hp⟩ := ih s s hc hi
    have e1 : (MonadState.get >>= f) s = f s s := rfl
    have e2 : ∀ k, (MonadState.get >>= f) (s.cutAt k) = f s (s.cutAt k) := fun k => by
      show f (s.cutAt k) (s.cutAt k) = _
      rw [h s _ (alike_cutAt s k)]
    exact ⟨effs, hp.atomic, by rw [e1]; exact hp.mem, by rw [e1]; exact hp.trace, by rw [e1]; exact hp.quiet,
      by rw [e1]; exact hp.uncut, fun k hk => by rw [e1, e2]; exact hp.whole k hk, fun k hk => by rw [e2]; exact hp.part k hk⟩
  | @bind α β c f h g ih jh =>
    intro s hc hi
    obtain ⟨es, hp⟩ := ih s hc hi
    obtain ⟨ha, hm, ht, hq, hu, hw, hpart⟩ := hp
    cases hr : c s with
    | error e u =>
      rw [hr] at hm ht hq hw hu
      have e1 : (c >>= f) s = .error e u := run_bind_error hr
      refine ⟨es, ha, by rw [e1]; exact hm, by rw [e1]; exact ht, by rw [e1]; exact hq, fun t ht => ?_, fun k hk => ?_, fun k hk => ?_⟩
      · rw [e1] at ht; injection ht with h1 h2; subst h1; exact hu u rfl
      · rw [e1]; exact run_bind_error (hw k hk)
      · obtain ⟨t, h1, h2⟩ := hpart k hk; exact ⟨t, run_bind_error h1, h2⟩
    | ok x u =>
      rw [hr] at hm ht hq hw
      simp only [Result.state_ok] at hm ht hq
      obtain ⟨fs, ga, gm, gt, gq, gu, gw, gpart⟩ := jh x u hq.1 hq.2
      have e1 : (c >>= f) s = f x u := run_bind_ok hr
      have e2 : ∀ k, es.length ≤ k → (c >>= f) (s.cutAt (some k)) = f x (u.cutAt (some (k - es.length))) := fun k hk =>
        run_bind_ok (hw k hk)
      have hpl : u.plat = s.plat := by have := (h.grows s).2.1; rwa [hr] at this
      refine ⟨es ++ fs, ?_, ?_, ?_, by rw [e1]; exact gq, by rw [e1]; exact gu, fun k hk => ?_, fun k hk => ?_⟩
      · intro e he
        rcases List.mem_append.1 he with he | he
        · exact ha e he
        · exact ga e he
      · rw [e1, gm, hm, memAfter_append]
      · rw [e1, gt, ht, eventsOf_append, List.append_assoc]
      · rw [List.length_append] at hk ⊢
        rw [e1, e2 k (by omega), gw _ (by omega), Nat.sub_sub]
      · rw [List.length_append] at hk
        by_cases hk' : k < es.length
        · obtain ⟨t, h1, h2⟩ := hpart k hk'
          rw [List.take_append_of_le_length (by omega)]
          exact ⟨t, run_bind_error h1, h2⟩
        · obtain ⟨t, h1, h2, h3, h4, h5⟩ := gpart (k - es.length) (by omega)
          have htk : (es ++ fs).take k = es ++ fs.take (k - es.length) := by
            rw [List.take_append, List.take_of_length_le (by omega : es.length ≤ k)]
          refine ⟨t, (e2 k (by omega)).trans h1, ?_, ?_, h4.trans hpl, h5⟩
          · rw [h2, hm, htk, memAfter_append]
          · rw [h3, ht, htk, eventsOf_append, List.append_assoc]
  | readAccess a n => exact fun s hc hi => ⟨[], performs_nothing (fun k => by
      unfold Machine.readAccess State.cutAt
      simp only [State.withEnv_env, State.withEnv_mem, Result.mapState]
      rw [racedView_congr (e := s.env) (e' := { s.env with cut := some k }) rfl]
      rfl) rfl rfl ⟨hc, hi⟩ (fun _ h => by cases h)⟩
  | writeAccess a bs hl =>
    intro s hc hi
    have hrun : ∀ (t : State), effect s = .ok () t → Machine.writeAccess a bs s = .ok () ((t.withMem (memStores t.mem a bs)).withEnv
        { t.env with
          inFlight := racedStores t.env a bs.length t.env.draws t.env.inFlight
          draws := t.env.draws + t.env.inFlight.length }) :=
      fun t ht => run_bind_ok ht
    have h1 := hrun s (run_effect hc)
    refine ⟨[.write a bs], by simpa [Effect.atomic] using hl, by rw [h1]; rfl, by rw [h1]; simp [eventsOf],
      by rw [h1]; exact ⟨hc, by show racedStores _ _ _ _ s.env.inFlight = []; rw [hi]; rfl⟩, fun t ht => (by rw [h1] at ht; cases ht),
      fun k hk => ?_, fun k hk => ?_⟩
    · obtain ⟨j, rfl⟩ : ∃ j, k = j + 1 := ⟨k - 1, by simp at hk; omega⟩
      rw [h1]
      unfold Machine.writeAccess
      rw [run_bind_ok (effect_later (s := s.cutAt (some (j + 1))) rfl), run_modify]
      simp only [State.cutAt, State.withEnv_env, State.withEnv_mem, Result.mapState]
      rw [racedStores_congr (e := s.env) (e' := { s.env with cut := some j }) rfl]
      rfl
    · have : k = 0 := by simp at hk; omega
      subst this
      refine ⟨s.cutAt (some 0), ?_, rfl, by simp [eventsOf, State.cutAt], rfl, hi⟩
      unfold Machine.writeAccess
      exact run_bind_error (effect_now rfl)
  | emit e =>
    intro s hc hi
    have h1 : Machine.emit e s = .ok () (s.logged [e]) := by unfold Machine.emit; rw [run_bind_ok (run_effect hc)]; rfl
    refine ⟨[.event e], by simp [Effect.atomic], by rw [h1]; rfl, by rw [h1]; rfl, by rw [h1]; exact ⟨hc, hi⟩,
      fun t ht => (by rw [h1] at ht; cases ht), fun k hk => ?_, fun k hk => ?_⟩
    · obtain ⟨j, rfl⟩ : ∃ j, k = j + 1 := ⟨k - 1, by simp at hk; omega⟩
      rw [h1]
      unfold Machine.emit
      rw [run_bind_ok (effect_later (s := s.cutAt (some (j + 1))) rfl)]
      rfl
    · have : k = 0 := by simp at hk; omega
      subst this
      refine ⟨s.cutAt (some 0), ?_, rfl, by simp [eventsOf, State.cutAt], rfl, hi⟩
      unfold Machine.emit
      exact run_bind_error (effect_now rfl)
  | ask => exact fun s hc hi => ⟨[], performs_nothing (fun _ => rfl) rfl rfl ⟨hc, hi⟩ (fun _ h => by cases h)⟩
  | setParam rd v => exact fun s hc hi => ⟨[], performs_nothing (fun _ => rfl) rfl rfl ⟨hc, hi⟩ (fun _ h => by cases h)⟩
  | mergeCore rects => exact fun s hc hi => ⟨[], performs_nothing (fun _ => rfl) rfl rfl ⟨hc, hi⟩ (fun _ h => by cases h)⟩
  | taken => exact fun s hc hi => ⟨[], performs_nothing (fun _ => rfl) rfl rfl ⟨hc, hi⟩ (fun _ h => by cases h)⟩

/-! ## The bodies of the commands -/

theorem good_require (b : Bool) (c : FaultCode) (i : Word) : Good (require b c i) := by
  cases b
  · exact Good.raise c i
  · exact Good.pure ()

theorem good_requireAccess (rs : List AccessRange) : Good (requireAccess rs) := by
  refine Good.get (fun s t h => by rw [h.plat]) fun s => ?_
  cases firstBad s.plat rs with
  | none => exact Good.pure ()
  | some r => exact Good.raise _ _

theorem good_read8 (a : Nat) : Good (read8 a) := Good.bind (Good.readAccess a 1) fun bs => by
  split <;> exact Good.pure _

theorem good_read16 (a : Nat) : Good (read16 a) := Good.bind (Good.readAccess a 2) fun bs => by
  split
  · exact Good.get (fun s t h => by rw [h.plat]) fun s => Good.pure _
  · exact Good.pure _

theorem good_read32 (a : Nat) : Good (read32 a) := Good.bind (Good.readAccess a 4) fun bs => by
  split
  · exact Good.get (fun s t h => by rw [h.plat]) fun s => Good.pure _
  · exact Good.pure _

theorem good_write8 (a : Nat) (v : Byte) : Good (write8 a v) := Good.writeAccess a [v] (by simp)

theorem good_write16 (a : Nat) (v : Half) : Good (write16 a v) :=
  Good.get (fun s t h => by rw [h.plat]) fun s => Good.writeAccess _ _ (by unfold bytes2; split <;> simp)

theorem good_loop {body : Nat → Cmd Unit} (h : ∀ k, Good (body k)) : ∀ n k, Good (loop body n k)
  | 0, _ => Good.pure ()
  | n + 1, k => Good.bind (h k) fun _ => good_loop h n (k + 1)

theorem good_gather {α : Type} {item : Nat → Cmd α} (h : ∀ k, Good (item k)) : ∀ n k, Good (gather item n k)
  | 0, _ => Good.pure []
  | n + 1, k => Good.bind (h k) fun _ => Good.bind (good_gather h n (k + 1)) fun _ => Good.pure _

theorem good_askTransport (e : Event) : Good (askTransport e) := by
  refine Good.bind Good.ask fun n => Good.get (fun s t h => ?_) fun s => ?_
  · have h1 : t.env.answer n = s.env.answer n := by unfold Env.answer; rw [h.answers]
    have h2 : t.env.eventData e n = s.env.eventData e n := by
      unfold Env.eventData Env.dataWord Env.answer; rw [h.answers]
    rw [h1, h2]
  · refine Good.bind ?_ fun _ => Good.pure _
    cases s.env.answer n with
    | ok ws => exact Good.pure ()
    | silent => exact Good.silent
    | fail =>
      simp only [answered]
      split
      · exact Good.raise _ _
      · exact Good.pure ()

theorem good_emitAsk (e : Event) : Good (emitAsk e) := by
  refine Good.bind (Good.emit e) fun _ => ?_
  split
  · exact good_askTransport e
  · exact Good.pure _

theorem good_emitAll : ∀ es, Good (emitAll es)
  | [] => Good.pure ()
  | e :: es => Good.bind (good_emitAsk e) fun _ => good_emitAll es

theorem good_set (rd : PReg) (imm : Word) : Good (setBody rd imm) := Good.bind (good_require _ _ _) fun _ => Good.setParam rd imm

theorem good_merge (copy : Bool) : Good (mergeBody copy) := by
  refine Good.get (fun s t h => ?_) fun s => ?_
  · dsimp only; unfold State.rectCount; rw [h.p]
  · dsimp only
    split
    · exact Good.mergeCore []
    · exact Good.bind (good_require _ _ _) fun _ => Good.bind (good_requireAccess _) fun _ =>
        Good.bind (good_gather (fun k => Good.bind (good_read16 _) fun _ => Good.bind (good_read16 _) fun _ =>
          Good.bind (good_read16 _) fun _ => Good.bind (good_read16 _) fun _ => Good.pure _) _ _) fun rects => Good.mergeCore rects

theorem good_convert (c : Conversion) {pixel : Params → Nat → Nat → Cmd Unit} (hp : ∀ p i j, Good (pixel p i j)) :
    Good (convert c pixel) := by
  refine Good.get (fun s t h => ?_) fun s => ?_
  · dsimp only; rw [h.p, h.fullRow]
  · dsimp only
    refine Good.bind (good_require _ _ _) fun _ => Good.bind (good_require _ _ _) fun _ => Good.bind (good_require _ _ _) fun _ => ?_
    split
    · exact Good.pure ()
    · exact Good.bind (good_require _ _ _) fun _ => Good.bind (good_require _ _ _) fun _ => Good.bind (good_requireAccess _) fun _ =>
        good_loop (fun j => good_loop (fun i => hp _ i j) _ _) _ _

theorem good_copyPixel (p : Params) (i j : Nat) : Good (copyPixel p i j) :=
  Good.bind (good_read8 _) fun _ => Good.bind (good_write8 _ _) fun _ => Good.bind (good_read8 _) fun _ => good_write8 _ _

theorem good_swapPixel (p : Params) (i j : Nat) : Good (swapPixel p i j) :=
  Good.bind (good_read8 _) fun _ => Good.bind (good_read8 _) fun _ => Good.bind (good_write8 _ _) fun _ => good_write8 _ _

theorem good_truncPixel (p : Params) (i j : Nat) : Good (truncPixel p i j) := Good.bind (good_read32 _) fun _ => good_write16 _ _

theorem good_grayPixel (gamma : Bool) (p : Params) (i j : Nat) : Good (grayPixel gamma p i j) := by
  refine Good.bind (good_read16 _) fun x => ?_
  cases gamma
  · exact Good.bind (Good.pure _) fun _ => good_write8 _ _
  · exact Good.bind (good_read8 _) fun _ => good_write8 _ _

theorem good_spreadTo (b : Bool) (a : Nat) (e : Int) : Good (spreadTo b a e) := by
  unfold spreadTo
  split
  · exact Good.bind (good_read8 _) fun _ => good_write8 _ _
  · exact Good.pure ()

theorem good_dither : Good ditherBody := by
  refine Good.get (fun s t h => ?_) fun s => ?_
  · dsimp only; rw [h.p]
  · dsimp only
    refine Good.bind (good_require _ _ _) fun _ => ?_
    split
    · exact Good.pure ()
    · exact Good.bind (good_requireAccess _) fun _ => good_loop (fun x => good_loop (fun y => Good.bind (good_read8 _) fun _ =>
        Good.bind (good_write8 _ _) fun _ => Good.bind (good_spreadTo _ _ _) fun _ => Good.bind (good_spreadTo _ _ _) fun _ =>
        good_spreadTo _ _ _) _ _) _ _

theorem good_pack1 : Good pack1Body := by
  refine Good.get (fun s t h => ?_) fun s => ?_
  · dsimp only; rw [h.p]
  · dsimp only
    refine Good.bind (good_require _ _ _) fun _ => Good.bind (good_require _ _ _) fun _ => ?_
    split
    · exact Good.pure ()
    · exact Good.bind (good_requireAccess _) fun _ => good_loop (fun k => Good.bind (good_gather (fun _ => good_read8 _) _ _) fun _ =>
        good_write8 _ _) _ _

/-- The fields of the configuration are the same. -/
theorem Alike.config {s t : State} (h : Alike s t) : t.mode = s.mode ∧ t.nat8 = s.nat8 ∧ t.nat9 = s.nat9 ∧ t.nat16 = s.nat16 ∧
    t.devBE = s.devBE ∧ t.rdEn = s.rdEn ∧ t.rstP = s.rstP ∧ t.regW16 = s.regW16 ∧ t.dcp = s.dcp := by
  unfold State.mode State.nat8 State.nat9 State.nat16 State.devBE State.rdEn State.rstP State.regW16 State.dcp
  rw [h.busCfg]
  exact ⟨rfl, rfl, rfl, rfl, rfl, rfl, rfl, rfl, rfl⟩

theorem Alike.phaseStart {s t : State} (h : Alike s t) (dc : Bool) : t.phaseStart dc = s.phaseStart dc := by
  unfold State.phaseStart; rw [h.config.1]

theorem Alike.carrier {s t : State} (h : Alike s t) (x16 : Bool) : t.carrier x16 = s.carrier x16 := by
  obtain ⟨h1, h2, h3, h4, -⟩ := h.config
  unfold State.carrier; rw [h1, h2, h3, h4]

theorem Alike.wireEvents {s t : State} (h : Alike s t) (dc x16 : Bool) (ws : List Half) :
    t.wireEvents dc x16 ws = s.wireEvents dc x16 ws := by
  have h5 := h.config.2.2.2.2.1
  unfold State.wireEvents State.chunkEvents State.startByte State.startBase State.i2cAddr State.i2cDat State.i2cCmd
  rw [h.carrier, h5, h.busCfg2]

theorem Alike.dataChunks {s t : State} (h : Alike s t) (w16 : Bool) : t.dataChunks w16 = s.dataChunks w16 := by
  unfold State.dataChunks State.chunkMax; rw [h.plat, h.maxChunk, h.p]

theorem good_sendChunk (dc x16 : Bool) (ws : List Half) : Good (sendChunk dc x16 ws) :=
  Good.get (fun s t h => by rw [h.wireEvents]) fun _ => good_emitAll _

theorem good_indexPhase : Good indexPhase := by
  refine Good.get (fun s t h => ?_) fun s => Good.bind (good_emitAll _) fun _ => good_sendChunk _ _ _
  rw [h.phaseStart, h.config.2.2.2.2.2.2.2.1, h.p]

theorem good_readWord (w16 : Bool) (a : Nat) : Good (readWord w16 a) := by
  unfold readWord
  cases w16
  · exact Good.bind (good_read8 _) fun _ => Good.pure _
  · exact good_read16 _

theorem good_readWords (w16 : Bool) (a n : Nat) : Good (readWords w16 a n) := good_gather (fun _ => good_readWord _ _) _ _

theorem good_sendChunks (w16 : Bool) : ∀ cs, Good (sendChunks w16 cs)
  | [] => Good.pure ()
  | (_, _) :: cs => Good.bind (good_readWords _ _ _) fun _ => Good.bind (good_sendChunk _ _ _) fun _ => good_sendChunks w16 cs

theorem good_busChecks : Good busChecks := by
  refine Good.get (fun s t h => ?_) fun s => Good.bind (good_require _ _ _) fun _ => Good.bind (good_require _ _ _) fun _ =>
    good_require _ _ _
  rw [h.config.1, h.config.2.2.2.2.2.2.2.2, h.config.2.2.2.2.2.2.2.1, h.p]

/-- A write transfer without a flush does not look at `PREPARED`. -/
theorem good_wrreg (w16 : Bool) : Good (wrregBody w16 false) := by
  refine Good.get (fun s t h => ?_) fun s => ?_
  · have hc : t.carried w16 = s.carried w16 := by
      unfold State.carried; rw [h.carrier, h.carrier, h.p, h.config.2.2.2.2.2.2.2.1]
    have hm : t.chunkMax (wordBytes w16) = s.chunkMax (wordBytes w16) := by unfold State.chunkMax; rw [h.maxChunk]
    simp only [Bool.false_and]
    rw [hc, hm, h.p, h.config.1, h.config.2.2.1, h.dataChunks, h.phaseStart]
  · refine Good.bind (good_require _ _ _) fun _ => Good.bind good_busChecks fun _ => Good.bind (good_require _ _ _) fun _ =>
      Good.bind (good_require _ _ _) fun _ => Good.bind (good_require _ _ _) fun _ => Good.bind (good_require _ _ _) fun _ =>
      Good.bind (good_requireAccess _) fun _ => Good.bind good_indexPhase fun _ => ?_
    split
    · refine Good.bind (good_emitAll _) fun _ => ?_
      split
      · exact Good.bind (good_readWords _ _ _) fun _ => good_sendChunk _ _ _
      · exact good_sendChunks _ _
    · exact Good.pure ()

theorem good_readStrobes (d n w16 : Bool) : Good (readStrobes d n w16) := by
  unfold readStrobes
  cases n
  · refine Good.bind (good_emitAsk _) fun _ => ?_
    cases w16
    · exact Good.pure _
    · exact Good.bind (good_emitAsk _) fun _ => Good.pure _
  · exact Good.bind (good_emitAsk _) fun _ => Good.pure _

theorem good_readPhase (w16 : Bool) : Good (readPhase w16) := by
  refine Good.get (fun s t h => ?_) fun s => Good.bind (good_emitAll _) fun _ => ?_
  · have hb : t.startByte true true = s.startByte true true := by unfold State.startByte State.startBase; rw [h.busCfg2]
    have ha : t.i2cAddr = s.i2cAddr := by unfold State.i2cAddr; rw [h.busCfg2]
    simp only [hb, ha, h.phaseStart, h.p, h.config.1, h.config.2.2.2.1, h.config.2.2.2.2.1]
  · cases s.mode
    · exact Good.pure _
    · dsimp only
      split
      · exact good_emitAsk _
      · exact Good.bind (good_emitAsk _) fun _ => Good.pure _
    · exact Good.pure _
    · exact Good.bind (good_emitAsk _) fun _ => Good.pure _
    · exact good_gather (fun _ => good_readStrobes _ _ _) _ _
    · exact Good.bind (good_emitAsk _) fun _ => Good.pure _
    · exact Good.pure _

theorem good_storeWords (w16 : Bool) : ∀ (vs : List Half) (a : Nat), Good (storeWords w16 a vs)
  | [], _ => Good.pure ()
  | v :: vs, a => by
    refine Good.bind ?_ fun _ => good_storeWords w16 vs _
    cases w16
    · exact good_write8 _ _
    · exact good_write16 _ _

theorem good_rdreg (w16 : Bool) : Good (rdregBody w16) := by
  refine Good.get (fun s t h => ?_) fun s => ?_
  · have hc : t.carried w16 = s.carried w16 := by
      unfold State.carried; rw [h.carrier, h.carrier, h.p, h.config.2.2.2.2.2.2.2.1]
    simp only [hc, h.p, h.config.1, h.config.2.2.2.2.2.1, h.maxChunk]
  · refine Good.bind good_busChecks fun _ => Good.bind (good_require _ _ _) fun _ => Good.bind (good_require _ _ _) fun _ =>
      Good.bind (good_require _ _ _) fun _ => Good.bind (good_require _ _ _) fun _ => Good.bind (good_require _ _ _) fun _ =>
      Good.bind (good_requireAccess _) fun _ => Good.bind good_indexPhase fun _ => ?_
    split
    · exact Good.bind (good_readPhase _) fun _ => good_storeWords _ _ _
    · exact Good.pure ()

theorem good_breset : Good bresetBody := by
  refine Good.get (fun s t h => ?_) fun s => good_emitAll _
  unfold State.resetPulse State.assertMs State.settleMs
  rw [h.config.2.2.2.2.2.2.1, h.rstCfg]

/-- A flush looks at `PREPARED` first and then is a plain write transfer. -/
theorem wrreg_flush (w16 : Bool) (s : State) :
    wrregBody w16 true s = if s.prepared then wrregBody w16 false s else .error (.raised .state 0) s := by
  unfold wrregBody
  rw [run_get_bind, run_get_bind]
  simp only [Bool.true_and, Bool.false_and]
  cases s.prepared <;> rfl

/-! ## The events of the commands -/

/-- When the body ends, whichever way, it has emitted a beginning of these events. -/
def Begins (c : Cmd Unit) (es : List Event) (s : State) : Prop :=
  ∃ pre, pre <+: es ∧ (Result.state (c s)).trace = s.trace ++ pre

theorem begins_silent {s : State} {c : Cmd Unit} {es : List Event} (h : (Result.state (c s)).trace = s.trace) : Begins c es s :=
  ⟨[], List.nil_prefix, by rw [h, List.append_nil]⟩

theorem begins_within {s : State} {w : Bool} {ok : Stop → Prop} {c : Cmd Unit} {es : List Event} (h : Within w false ok c) :
    Begins c es s := by
  refine begins_silent ?_
  cases hc : c s with
  | ok v t => exact (h.of_ok hc).traceSame rfl
  | error e t => exact (h.of_error hc).1.traceSame rfl

theorem begins_emits {s : State} {c : Cmd Unit} {es : List Event} (h : Emits c es () s) : Begins c es s := by
  rcases h.begins with h | ⟨pre, e, hp, h⟩ <;> rw [Begins, h]
  · exact ⟨es, List.prefix_refl es, rfl⟩
  · exact ⟨pre, hp, rfl⟩

theorem begins_guarded {s : State} {body rest : Cmd Unit} {cs : Checks} {es : List Event} (g : Guards body cs rest s)
    (h : cs.pass → Begins rest es s) : Begins body es s := by
  cases hf : cs.firstFault with
  | some x => exact begins_silent (by rw [g.fault hf]; rfl)
  | none => rw [Begins, g.pass (pass_iff.2 hf)]; exact h (pass_iff.2 hf)

theorem begins_wrreg {s : State} (h : s.undisturbed = true) (w16 : Bool) : Begins (wrregBody w16 false) (s.wrregEvents w16) s :=
  begins_guarded (guards_wrreg w16 false s) fun hp => begins_emits (emits_wrreg h (configured_of_wrreg hp))

theorem begins_rdreg {s : State} (h : s.env.cut = none) (w16 : Bool) : Begins (rdregBody w16) (s.rdregEvents w16) s := by
  refine begins_guarded (guards_rdreg w16 s) fun hp => ?_
  obtain ⟨h1, h2⟩ := configured_of_rdreg hp
  rcases (emits_rdregRead h h1 h2).begins with hr | ⟨pre, e, hpre, hr⟩
  · obtain ⟨pre, h3, h4⟩ := begins_within (es := []) (s := s.emitted (s.rdregEvents w16))
      (within_storeWords (em := false) w16 ((List.range s.p.cnt.toNat).map (s.readValue w16)) s.p.dst.toNat)
    obtain rfl := List.prefix_nil.1 h3
    refine ⟨_, List.prefix_refl _, ?_⟩
    unfold rdregPhases
    rw [run_bind_ok hr, h4, List.append_nil]
    rfl
  · refine ⟨pre, hpre, ?_⟩
    unfold rdregPhases
    rw [run_bind_error hr]
    rfl

/-- Where the transport is silent the body has written no memory. -/
def HangsClean (c : Cmd Unit) : Prop := ∀ s t, c s = .error .silent t → t.mem = s.mem

theorem hangsClean_within {w em : Bool} {ok : Stop → Prop} {c : Cmd Unit} (hw : Within w em ok c) (h : ok .silent → w = false) :
    HangsClean c := fun _ _ hc => (hw.of_error hc).1.memSame (h (hw.of_error hc).2.1)

theorem hangsClean_guarded {body : Cmd Unit} {rest : State → Cmd Unit} {cs : State → Checks} (g : ∀ s, Guards body (cs s) (rest s) s)
    (h : ∀ s, HangsClean (rest s)) : HangsClean body := by
  intro s t hc
  cases hf : (cs s).firstFault with
  | some x => rw [(g s).fault hf] at hc; cases hc
  | none => rw [(g s).pass (pass_iff.2 hf)] at hc; exact h s s t hc

theorem onlyCut_silent {P : Prop} (h : onlyCut .silent) : P := by cases h

theorem hangsClean_rdreg (w16 : Bool) : HangsClean (rdregBody w16) := by
  refine hangsClean_guarded (guards_rdreg w16) fun s u t hc => ?_
  unfold rdregPhases at hc
  cases hr : rdregRead w16 s u with
  | ok vs v => rw [run_bind_ok hr] at hc; exact onlyCut_silent ((within_storeWords (em := true) w16 vs _).of_error hc).2.1
  | error e v =>
    rw [run_bind_error hr] at hc
    injection hc with _ hc
    subst hc
    exact ((within_rdregRead (w := false) w16 s).of_error hr).1.memSame rfl

/-- Every command but `HALT` and a flush is a body built from the operations; it emits a beginning of its events, and has written no
memory where the transport is silent. -/
theorem good_exec (i : Instr) (hh : i ≠ .halt) (hf : ∀ w, i ≠ .wrreg w true) :
    ∃ body : Cmd Unit, Good body ∧ (∀ s, exec i s = runBody body s) ∧
      (∀ s, s.undisturbed = true → Begins body (s.commandEvents i) s) ∧ HangsClean body := by
  have conv : ∀ (c : Conversion) (pixel : Params → Nat → Nat → Cmd Unit) (es : State → List Event),
      (∀ p i j, Within true false onlyCut (pixel p i j)) →
      (∀ s, s.undisturbed = true → Begins (convert c pixel) (es s) s) ∧ HangsClean (convert c pixel) := fun c pixel _ h =>
    ⟨fun s _ => begins_guarded (guards_convert c pixel s) fun _ => begins_within (within_pixels s h),
      hangsClean_guarded (guards_convert c pixel) fun s => hangsClean_within (within_pixels s h) onlyCut_silent⟩
  cases i with
  | halt => exact absurd rfl hh
  | set rd imm =>
    exact ⟨_, good_set rd imm, fun _ => rfl, fun s _ => begins_guarded (guards_set rd imm s) fun _ => begins_silent rfl,
      hangsClean_guarded (guards_set rd imm) fun _ _ _ h => by cases h⟩
  | delay ms =>
    exact ⟨_, good_emitAll [.delay ms], fun _ => rfl, fun s h => begins_emits (emits_emitAll _ s (undisturbed_iff.1 h).2),
      hangsClean_within (within_emitAll_bus (w := false) _) fun _ => rfl⟩
  | merge copy =>
    refine ⟨_, good_merge copy, fun _ => rfl, fun s _ => begins_guarded (guards_merge copy s) fun _ => begins_silent ?_,
      hangsClean_guarded (guards_merge copy) fun s u t h => ?_⟩
    · obtain ⟨v, rects, hr, hm⟩ := mergeRest_ok copy s s
      rw [hm]
      exact hr.traceSame rfl
    · obtain ⟨v, rects, -, hm⟩ := mergeRest_ok copy s u
      rw [hm] at h
      cases h
  | take => exact ⟨_, Good.taken, fun _ => rfl, fun s _ => begins_silent rfl, fun _ _ h => by cases h⟩
  | cp565 => exact ⟨_, good_convert _ good_copyPixel, fun _ => rfl, conv _ _ _ within_copyPixel⟩
  | sw565 => exact ⟨_, good_convert _ good_swapPixel, fun _ => rfl, conv _ _ _ within_swapPixel⟩
  | x2r565 => exact ⟨_, good_convert _ good_truncPixel, fun _ => rfl, conv _ _ _ within_truncPixel⟩
  | r2gray gamma => exact ⟨_, good_convert _ (good_grayPixel gamma), fun _ => rfl, conv _ _ _ (within_grayPixel gamma)⟩
  | dither =>
    exact ⟨_, good_dither, fun _ => rfl, fun s _ => begins_guarded (guards_dither s) fun _ => begins_within (within_ditherLoop s),
      hangsClean_guarded guards_dither fun s => hangsClean_within (within_ditherLoop s) onlyCut_silent⟩
  | pack1 =>
    exact ⟨_, good_pack1, fun _ => rfl, fun s _ => begins_guarded (guards_pack1 s) fun _ => begins_within (within_packLoop s),
      hangsClean_guarded guards_pack1 fun s => hangsClean_within (within_packLoop s) onlyCut_silent⟩
  | wrreg w16 fl =>
    cases fl with
    | true => exact absurd rfl (hf w16)
    | false =>
      exact ⟨_, good_wrreg w16, fun _ => rfl, fun s h => begins_wrreg h w16,
        hangsClean_guarded (guards_wrreg w16 false) fun s => hangsClean_within (within_wrregPhases (w := false) w16 s) fun _ => rfl⟩
  | rdreg w16 => exact ⟨_, good_rdreg w16, fun _ => rfl, fun s h => begins_rdreg (undisturbed_iff.1 h).2 w16, hangsClean_rdreg w16⟩
  | breset =>
    exact ⟨_, good_breset, fun _ => rfl, fun s h =>
      begins_emits (c := emitAll s.resetPulse) (emits_emitAll _ s (undisturbed_iff.1 h).2),
      hangsClean_within (within_get_bind fun _ => within_emitAll_bus (w := false) _) fun _ => rfl⟩

end Sys2Proof.Machine
end

