-- ==== Sys2Proof/Laws/Race.lean ====
section
/-! SUPPORT. Host stores that fall inside a command (20_memory.md R88): outside the bytes the command may write, memory is in the end what
the stores in their order make of it. -/

namespace Sys2Proof.Machine

/-! ## Stores in flight and one byte -/

/-- The byte that `b` will hold once every store in flight has landed. -/
def State.landed (s : State) (b : Nat) : Byte := memByte (s.env.inFlight.foldl memStoreAll s.mem) b

theorem byteAt_land (s : State) (b : Nat) : s.land.byteAt b = s.landed b := rfl

theorem landed_congr {s t : State} (hm : t.mem = s.mem) (hi : t.env.inFlight = s.env.inFlight) (b : Nat) : t.landed b = s.landed b := by
  unfold State.landed; rw [hm, hi]

theorem memByte_memStore_congr {m m' : Memory} {b : Nat} (h : memByte m b = memByte m' b) (a : Nat) (v : Byte) :
    memByte (memStore m a v) b = memByte (memStore m' a v) b := by
  by_cases hb : b = a
  · subst hb
    by_cases hl : b < memLimit
    · rw [memByte_memStore_self m b v hl, memByte_memStore_self m' b v hl]
    · unfold memStore; rw [if_neg hl, if_neg hl]; exact h
  · rw [memByte_memStore_of_ne m v hb, memByte_memStore_of_ne m' v hb, h]

/-- Cells of other bytes may be dropped from a store: this byte does not notice. -/
theorem memByte_memStoreAll_filter {b : Nat} {keep : Word × Byte → Bool} : ∀ (w : HostStore) {m m' : Memory},
    memByte m b = memByte m' b → (∀ c ∈ w, c.1.toNat = b → keep c = true) →
    memByte (memStoreAll m (w.filter keep)) b = memByte (memStoreAll m' w) b
  | [], _, _, h, _ => h
  | c :: w, m, m', h, hk => by
    have ih := fun {m m' : Memory} (h : memByte m b = memByte m' b) => memByte_memStoreAll_filter (keep := keep) w h
      fun x hx => hk x (List.mem_cons_of_mem _ hx)
    rw [List.filter_cons]
    cases hc : keep c with
    | true => exact ih (memByte_memStore_congr h _ _)
    | false =>
      rw [if_neg Bool.false_ne_true]
      refine ih (h.trans (memByte_memStore_of_ne m' c.2 fun e => ?_).symm)
      rw [hk c (List.mem_cons_self ..) e.symm] at hc
      cases hc

/-- A write of the command beside a byte spends nothing that the stores in flight have for that byte. -/
theorem landed_racedStores (e : Env) {a n b : Nat} (hb : b < a ∨ a + n ≤ b) : ∀ (ws : List HostStore) (d : Nat) {m m' : Memory},
    memByte m b = memByte m' b → memByte ((racedStores e a n d ws).foldl memStoreAll m) b = memByte (ws.foldl memStoreAll m') b
  | [], _, _, _, h => h
  | w :: ws, d, m, m', h => by
    rw [racedStores, List.foldl_cons, List.foldl_cons]
    refine landed_racedStores e hb ws (d + 1) ?_
    split
    · have := memByte_memStoreAll_filter (keep := fun _ => true) w h fun _ _ _ => rfl
      rwa [List.filter_eq_self.2 fun _ _ => rfl] at this
    · refine memByte_memStoreAll_filter w h fun c _ hc => ?_
      subst hc
      simp only [Bool.not_eq_true', Bool.and_eq_false_iff, decide_eq_false_iff_not]
      omega

/-! ## Bodies that leave a byte to the stores -/

/-- Whatever the body does, what `b` will hold stays the same. -/
def Spares (b : Nat) {α : Type} (c : Cmd α) : Prop := ∀ s, (Result.state (c s)).landed b = s.landed b

section
variable {α β : Type} {b : Nat}

/-- A body that writes no memory. -/
theorem spares_within {em : Bool} {ok : Stop → Prop} {c : Cmd α} (h : Within false em ok c) : Spares b c := by
  intro s
  cases hc : c s with
  | ok v t => have hr := h.of_ok hc; exact landed_congr (hr.memSame rfl) (hr.inFlightSame rfl) b
  | error e t => have hr := (h.of_error hc).1; exact landed_congr (hr.memSame rfl) (hr.inFlightSame rfl) b

theorem spares_bind {c : Cmd α} {f : α → Cmd β} (h : Spares b c) (g : ∀ v, Spares b (f v)) : Spares b (c >>= f) := by
  intro s
  have hs := h s
  cases hc : c s with
  | ok v t => rw [hc] at hs; rw [run_bind_ok hc]; exact (g v t).trans hs
  | error e t => rw [hc] at hs; rw [run_bind_error hc]; exact hs

theorem spares_writeAccess {a : Nat} {bs : List Byte} (hb : b < a ∨ a + bs.length ≤ b) : Spares b (writeAccess a bs) := by
  refine spares_bind (spares_within (em := false) (within_effect onlyCut_cut)) fun _ s => ?_
  rw [run_modify]
  exact landed_racedStores s.env hb s.env.inFlight s.env.draws (memByte_memStores_outside bs s.mem a b hb)

theorem spares_read8 (a : Nat) : Spares b (read8 a) := spares_within (em := false) (ok := onlyCut) (within_read8 a)

theorem spares_write8 {a : Nat} (hb : b < a ∨ a + 1 ≤ b) (v : Byte) : Spares b (write8 a v) := spares_writeAccess hb

theorem spares_write16 {a : Nat} (hb : b < a ∨ a + 2 ≤ b) (v : Half) : Spares b (write16 a v) :=
  spares_bind (fun _ => rfl) fun _ => spares_writeAccess (by rw [length_bytes2]; exact hb)

theorem spares_loop {body : Nat → Cmd Unit} : ∀ n k, (∀ j, k ≤ j → j < k + n → Spares b (body j)) → Spares b (loop body n k)
  | 0, _, _ => fun _ => rfl
  | n + 1, k, h => spares_bind (h k (le_refl k) (by omega)) fun _ =>
    spares_loop n (k + 1) fun j h1 h2 => h j (by omega) (by omega)

end

/-! ## The writing commands -/

section
variable {b : Nat}

/-- A byte outside the largest destination a command can have: two bytes a pixel of the clip, two bytes a word of the count. -/
def Params.outside (p : Params) (b : Nat) : Prop :=
  b < p.dst.toNat ∨ (p.dst.toNat + 2 * (p.cw * p.ch) ≤ b ∧ p.dst.toNat + 2 * p.cnt.toNat ≤ b)

/-- Element `(i, j)` of the destination lies inside it. -/
theorem element_lt {cw ch i j : Nat} (hi : i < cw) (hj : j < ch) : j * cw + i + 1 ≤ cw * ch := by
  have : (j + 1) * cw ≤ ch * cw := Nat.mul_le_mul_right cw hj
  rw [Nat.mul_comm ch cw, Nat.succ_mul] at this
  omega

theorem spares_pixels (s : State) {pixel : Params → Nat → Nat → Cmd Unit}
    (h : ∀ i j, j * s.p.cw + i + 1 ≤ s.p.cw * s.p.ch → Spares b (pixel s.p i j)) : Spares b (pixels s pixel) :=
  spares_loop _ _ fun j _ hj => spares_loop _ _ fun i _ hi => h i j (element_lt (by omega) (by omega))

theorem spares_copyPixel {p : Params} {i j : Nat} (hb : p.outside b) (hij : j * p.cw + i + 1 ≤ p.cw * p.ch) :
    Spares b (copyPixel p i j) := by
  unfold Params.outside at hb
  refine spares_bind (spares_read8 _) fun _ => spares_bind (spares_write8 ?_ _) fun _ => spares_bind (spares_read8 _) fun _ =>
    spares_write8 ?_ _ <;> (unfold Params.clipDst; omega)

theorem spares_swapPixel {p : Params} {i j : Nat} (hb : p.outside b) (hij : j * p.cw + i + 1 ≤ p.cw * p.ch) :
    Spares b (swapPixel p i j) := by
  unfold Params.outside at hb
  refine spares_bind (spares_read8 _) fun _ => spares_bind (spares_read8 _) fun _ => spares_bind (spares_write8 ?_ _) fun _ =>
    spares_write8 ?_ _ <;> (unfold Params.clipDst; omega)

theorem spares_truncPixel {p : Params} {i j : Nat} (hb : p.outside b) (hij : j * p.cw + i + 1 ≤ p.cw * p.ch) :
    Spares b (truncPixel p i j) := by
  unfold Params.outside at hb
  refine spares_bind (spares_within (em := false) (ok := onlyCut) (within_read32 _)) fun _ => spares_write16 ?_ _
  unfold Params.clipDst
  omega

theorem spares_grayPixel {p : Params} {i j : Nat} (hb : p.outside b) (hij : j * p.cw + i + 1 ≤ p.cw * p.ch) (gamma : Bool) :
    Spares b (grayPixel gamma p i j) := by
  unfold Params.outside at hb
  have hw : ∀ v, Spares b (write8 (p.clipDst 1 i j) v) := spares_write8 (by unfold Params.clipDst; omega)
  refine spares_bind (spares_within (em := false) (ok := onlyCut) (within_read16 _)) fun x => ?_
  cases gamma
  · exact spares_bind (fun _ => rfl) fun _ => hw _
  · exact spares_bind (spares_read8 _) fun _ => hw _

theorem spares_spreadTo {inside : Bool} {a : Nat} (h : inside = true → b < a ∨ a + 1 ≤ b) (e : Int) :
    Spares b (spreadTo inside a e) := by
  unfold spreadTo
  split
  · exact spares_bind (spares_read8 _) fun _ => spares_write8 (h ‹_›) _
  · exact fun _ => rfl

theorem spares_ditherPixel {base cw ch x y : Nat} (hb : b < base ∨ base + cw * ch ≤ b) (hx : x < cw) (hy : y < ch) :
    Spares b (ditherPixel base cw ch x y) := by
  have here := element_lt hx hy
  have below : y + 1 < ch → _ := fun h => element_lt (i := x) hx h
  have right : x + 1 < cw → _ := fun h => element_lt h hy
  have both : x + 1 < cw → y + 1 < ch → _ := fun h g => element_lt h g
  rw [Nat.succ_mul] at below
  refine spares_bind (spares_read8 _) fun v => spares_bind (spares_write8 (by omega) _) fun _ =>
    spares_bind (spares_spreadTo (fun h => ?_) _) fun _ => spares_bind (spares_spreadTo (fun h => ?_) _) fun _ =>
    spares_spreadTo (fun h => ?_) _
  · have := below (of_decide_eq_true h); omega
  · have := right (of_decide_eq_true h); omega
  · rw [Bool.and_eq_true, decide_eq_true_eq, decide_eq_true_eq] at h
    have := both h.1 h.2
    rw [Nat.succ_mul] at this
    omega

theorem spares_ditherLoop {s : State} (hb : s.p.outside b) : Spares b (ditherLoop s) := by
  unfold Params.outside at hb
  exact spares_loop _ _ fun x _ hx => spares_loop _ _ fun y _ hy => spares_ditherPixel (by omega) (by omega) (by omega)

theorem spares_packLoop {s : State} (hb : s.p.outside b) : Spares b (packLoop s) := by
  unfold Params.outside at hb
  refine spares_loop _ _ fun k _ hk => spares_bind (spares_within (em := false) (ok := onlyCut)
    (within_gather (fun _ => within_read8 _) _ _)) fun _ => spares_write8 ?_ _
  omega

theorem spares_storeWords (w16 : Bool) : ∀ (vs : List Half) (a : Nat), (b < a ∨ a + 2 * vs.length ≤ b) →
    Spares b (storeWords w16 a vs)
  | [], _, _ => fun _ => rfl
  | v :: vs, a, hb => by
    rw [List.length_cons] at hb
    cases w16
    · exact spares_bind (spares_write8 (by omega) _) fun _ => spares_storeWords false vs (a + 1) (by omega)
    · exact spares_bind (spares_write16 (by omega) _) fun _ => spares_storeWords true vs (a + 2) (by omega)

/-- `RDREG` stores at most the words it was asked for. -/
theorem landed_rdregPhases {s : State} {w16 : Bool} (hb : s.p.outside b) (hc : s.env.cut = none) (hp : (rdregChecks w16 s).pass) :
    (Result.state (rdregPhases w16 s s)).landed b = s.landed b := by
  obtain ⟨h1, h2⟩ := configured_of_rdreg hp
  have hr := spares_within (b := b) (within_rdregRead (w := false) w16 s) s
  unfold rdregPhases
  cases hv : rdregRead w16 s s with
  | error e t => rw [hv] at hr; rw [run_bind_error hv]; exact hr
  | ok vs t =>
    rw [hv] at hr
    rw [run_bind_ok hv]
    refine Eq.trans (spares_storeWords w16 vs _ ?_ t) hr
    have hl : vs.length = s.p.cnt.toNat := by
      rcases (emits_rdregRead hc h1 h2).begins with h | ⟨pre, e, -, h⟩
      · rw [hv] at h; injection h with h _; rw [h, List.length_map, List.length_range]
      · rw [hv] at h; cases h
    unfold Params.outside at hb
    omega

end

/-! ## Every command, and the whole turn -/

section
variable {b : Nat}

theorem landed_runBody {body : Cmd Unit} {s t : State} (hb : (Result.state (body s)).landed b = s.landed b)
    (h : runBody body s = .next t) : t.landed b = s.landed b := by
  rcases runBody_next h with ⟨u, hu, rfl⟩ | ⟨c, i, u, hu, rfl⟩ | ⟨u, hu, rfl⟩ | ⟨u, hu, -, rfl⟩ <;>
    (rw [hu] at hb; exact hb)

theorem landed_guarded {body rest : Cmd Unit} {cs : Checks} {s t : State} (g : Guards body cs rest s)
    (hb : cs.pass → (Result.state (rest s)).landed b = s.landed b) (h : runBody body s = .next t) : t.landed b = s.landed b := by
  refine landed_runBody ?_ h
  cases hf : cs.firstFault with
  | some x => rw [g.fault hf]; rfl
  | none => rw [g.pass (pass_iff.2 hf)]; exact hb (pass_iff.2 hf)

/-- No command changes what a byte outside its destination will hold. -/
theorem landed_exec {i : Instr} {s t : State} (hc : s.env.cut = none) (hb : s.p.outside b) (h : exec i s = .next t) :
    t.landed b = s.landed b := by
  cases i with
  | halt => injection h with h; subst h; rfl
  | set rd imm => exact landed_guarded (guards_set rd imm s) (fun _ => rfl) h
  | delay ms =>
    exact landed_runBody (spares_within (within_emitAll_plain (ok := onlyCut) onlyCut_cut _
      (by simp [Event.asks, Event.canFail, Event.returns])) s) h
  | merge copy =>
    refine landed_guarded (guards_merge copy s) (fun _ => ?_) h
    obtain ⟨v, rects, hr, hm⟩ := mergeRest_ok copy s s
    rw [hm]
    exact landed_congr (hr.memSame rfl) (hr.inFlightSame rfl) b
  | take => exact landed_runBody (body := modify State.taken) rfl h
  | cp565 => exact landed_guarded (guards_convert _ _ s) (fun _ => spares_pixels s (fun _ _ => spares_copyPixel hb) s) h
  | sw565 => exact landed_guarded (guards_convert _ _ s) (fun _ => spares_pixels s (fun _ _ => spares_swapPixel hb) s) h
  | x2r565 => exact landed_guarded (guards_convert _ _ s) (fun _ => spares_pixels s (fun _ _ => spares_truncPixel hb) s) h
  | r2gray gamma =>
    exact landed_guarded (guards_convert _ _ s) (fun _ => spares_pixels s (fun _ _ h => spares_grayPixel hb h gamma) s) h
  | dither => exact landed_guarded (guards_dither s) (fun _ => spares_ditherLoop hb s) h
  | pack1 => exact landed_guarded (guards_pack1 s) (fun _ => spares_packLoop hb s) h
  | wrreg w16 fl => exact landed_guarded (guards_wrreg w16 fl s) (fun _ => spares_within (within_wrregPhases w16 s) s) h
  | rdreg w16 => exact landed_guarded (guards_rdreg w16 s) (landed_rdregPhases hb hc) h
  | breset =>
    refine landed_runBody (spares_within (em := true) (ok := onlyCut) (within_get_bind fun u => within_emitAll_plain onlyCut_cut _ ?_) s) h
    unfold State.resetPulse
    split <;> simp [Event.asks, Event.canFail, Event.returns]

/-- Before what is in flight lands, the sequencer's turn has not changed what a byte outside the destination will hold. -/
theorem landed_seqRuns {s t : State} (hc : s.env.cut = none) (hb : s.p.outside b) (h : SeqRuns s t) : t.landed b = s.landed b := by
  cases h with
  | idle => rfl
  | noFetch => rfl
  | illegal h hr hd hw => exact landed_congr (hr.memSame rfl) (hr.inFlightSame rfl) b
  | runs h hr hd hw he ht =>
    exact (landed_exec (hr.cut.1 hc) (by rw [hr.p]; exact hb) he).trans (landed_congr (hr.memSame rfl) (hr.inFlightSame rfl) b)

end

end Sys2Proof.Machine
end

