-- ==== Sys2Proof/Tests/Slice0.lean ====
section
/-! SUPPORT. Tests of the model: the refusals of well-formedness, the words of every command written out from 30_encoding.md, single
steps with the values of 95_test_vectors.md, and a witness for the hypotheses of every statement. -/

set_option Elab.async false

namespace Sys2Proof.Tests

open Sys2Proof.Machine

/-! ## Well-formedness: each check refuses an ill-formed command (30_encoding.md R115, vectors VE9 to VE11) -/

theorem test_wf_refuses_wide_half : (Instr.set .fbw 0x10000).wf = false := by decide
theorem test_wf_refuses_wide_format : (Instr.set .fbfmt 4).wf = false := by decide
theorem test_wf_refuses_wide_clip : (Instr.set .cx1 0xFFFF0000).wf = false := by decide
theorem test_wf_accepts_widest :
    (Instr.set .fbfmt 3).wf = true ∧ (Instr.set .cy2 0xFFFF).wf = true ∧ (Instr.set .src 0xFFFFFFFF).wf = true := by decide

/-! ## Decoding: words written out from the tables of 30_encoding.md R111 to R113 -/

theorem test_decode_halt : decodeTableWord 64 0x0000000000000001 = some .halt := by decide
theorem test_decode_set : decodeTableWord 64 0x0000FFFF00000B02 = some (.set .cy2 0xFFFF) := by decide
theorem test_decode_set_registers :
    (List.range 16).map (fun n => decodeTableWord 64 (0x0000000100000002 + 256 * n)) =
      [some (.set .src 1), some (.set .dst 1), some (.set .lutb 1), some (.set .cnt 1), some (.set .reg 1), some (.set .fbw 1),
        some (.set .fbh 1), some (.set .fbfmt 1), some (.set .cx1 1), some (.set .cy1 1), some (.set .cx2 1), some (.set .cy2 1),
        none, none, none, none] := by decide
theorem test_decode_delay : decodeTableWord 64 0xFFFFFFFF00000003 = some (.delay 0xFFFFFFFF) := by decide
theorem test_decode_merge :
    decodeTableWord 64 0x10 = some (.merge false) ∧ decodeTableWord 64 0x110 = some (.merge true) := by decide
theorem test_decode_take : decodeTableWord 64 0x11 = some .take := by decide
theorem test_decode_cp565 : decodeTableWord 64 0x20 = some .cp565 := by decide
theorem test_decode_sw565 : decodeTableWord 64 0x21 = some .sw565 := by decide
theorem test_decode_x2r565 : decodeTableWord 64 0x22 = some .x2r565 := by decide
theorem test_decode_r2gray :
    decodeTableWord 64 0x23 = some (.r2gray false) ∧ decodeTableWord 64 0x123 = some (.r2gray true) := by decide
theorem test_decode_dither : decodeTableWord 64 0x24 = some .dither := by decide
theorem test_decode_pack1 : decodeTableWord 64 0x25 = some .pack1 := by decide
theorem test_decode_wrreg :
    decodeTableWord 64 0x130 = some (.wrreg true false) ∧ decodeTableWord 64 0x230 = some (.wrreg false true) := by decide
theorem test_decode_rdreg :
    decodeTableWord 64 0x31 = some (.rdreg false) ∧ decodeTableWord 64 0x131 = some (.rdreg true) := by decide
theorem test_decode_breset : decodeTableWord 64 0x32 = some .breset := by decide

/-- Vectors VE1, VE2, VE4 to VE6, VE8, VE11: each reason of 30_encoding.md R115 refuses by its name. -/
theorem test_decode_refuses :
    decode 0 = .error .unknownOpcode ∧ decode (BitVec.allOnes 64) = .error .reservedBits ∧
    decode 0x101 = .error .undefinedBits ∧ decode 0x100000001 = .error .undefinedBits ∧ decode 0x1001 = .error .reservedBits ∧
    decode 0xC02 = .error .badRegister ∧ decode 0x400000702 = .error .immediateTooWide ∧
    decodeBytes false [1, 0, 0, 0, 0, 0, 0] = .error .tooShort := by decide

/-- Vectors VE14, VE16, VE17, VE19, VE21, VE23 to VE25. -/
theorem test_decode_refuses_more :
    ([0x103, 0x210, 0x100000010, 0x223, 0x430, 0x231, 0x04, 0x12, 0x26, 0x33, 0x10024] : List Nat).map (decodeTableWord 64) =
      List.replicate 11 none := by decide

/-! ## Single steps with the values of 95_test_vectors.md -/

/-- `Accessible` of the vectors: `0x00000000` to `0x000FFFFF`. -/
def lowMegabyte : Config.Platform :=
  { Config.defaultPlatform with holes := [{ base := 0x100000, size := 0xFFF00000, noRead := true, noWrite := true }] }

/-- Reset state, the vectors' platform, a run at `0x1000` on the command of the given low and high word, an empty trace. -/
def start (w0 w1 : Word) : State :=
  { State.reset with
    plat := lowMegabyte
    run := true
    cp := 0x1000
    trace := []
    mem := memStores [] 0x1000 (bytes4 false w0 ++ bytes4 false w1) }

/-- Bytes placed in memory. -/
def put (a : Nat) (bs : List Byte) (s : State) : State := s.withMem (memStores s.mem a bs)

/-- The transport's answers. -/
def hears (answers : List Config.Answer) (s : State) : State := s.withEnv { s.env with answers := answers }

/-- The state after a step, if there is one. -/
def after (s : State) : Option State :=
  match step s with
  | .next t => some t
  | .fault _ | .refused _ => none

/-- Bytes of memory after a step. -/
def bytesAfter (a n : Nat) (s : State) : Option (List Byte) := (after s).map fun t => memBytes t.mem a n

/-- What a step records: `RUN`, `ERR`, `ERRINFO`, `CP`. -/
def verdict (s : State) : Option (Bool × Byte × Word × Word) := (after s).map fun t => (t.run, t.err, t.errInfo, t.cpValue)

/-- Vector VS1. -/
theorem test_halt : (after (start 0x01 0)).map (fun t => (t.status, t.cpValue)) = some (0x06, 0x1000) := by decide +kernel

/-- Program PG1, first step. -/
theorem test_set : (after (start 0x502 0xF0)).map (fun t => (t.p.fbw, t.cpValue)) = some (240, 0x1008) := by decide +kernel

/-- Vector VE9. -/
theorem test_set_too_wide : verdict (start 0x502 0x10000) = some (false, 0x10, 0x502, 0x1000) := by decide +kernel

/-- Vector VS13, and a delay of 120 as in program PG4. -/
theorem test_delay : (after (start 0x03 120)).map (fun t => (t.trace, t.cpValue)) = some ([.delay 120], 0x1008) := by decide +kernel

/-- Vector VS3: `E_ILLEGAL`. -/
theorem test_illegal : (after (start 0 0)).map (fun t => (t.status, t.errInfo, t.cpValue)) = some (0x1004, 0, 0x1000) := by decide +kernel

/-- The start of the merge vectors, section 2.11. -/
def mergeStart (w0 cnt : Word) (bytes : List Byte) : State :=
  let s := put 0x2000 bytes (start w0 0)
  { s with p := { s.p with fbw := 240, fbh := 320, src := 0x2000, cnt := cnt }, first := false }

/-- Vector VM2. -/
theorem test_merge :
    (after (mergeStart 0x10 2 [0x0A, 0, 0x14, 0, 0x32, 0, 0x3C, 0, 0x1E, 0, 0x0A, 0, 0x64, 0, 0x28, 0])).map
      (fun t => (hostRead t 0x28, hostRead t 0x2C)) = some (0x000A000A, 0x003C0064) := by decide +kernel

/-- Vector VM9: one pair is two rectangles. -/
theorem test_merge_copy :
    (after (mergeStart 0x110 1 [0x0A, 0, 0x14, 0, 0x32, 0, 0x3C, 0, 0x64, 0, 0x64, 0, 0x78, 0, 0x82, 0])).map
      (fun t => (hostRead t 0x28, hostRead t 0x2C)) = some (0x0014000A, 0x00820078) := by decide +kernel

/-- Vector VM19. -/
theorem test_take :
    (after { start 0x11 0 with acc := { x1 := 10, y1 := 10, x2 := 240, y2 := 320 } }).map
      (fun t => (t.p.cx1, t.p.cy1, t.p.cx2, t.p.cy2, t.acc, t.first)) = some (10, 10, 240, 320, Rect.empty, false) := by decide +kernel

/-- Geometry of a conversion, `DST` at `0x4000`. -/
def shaped (fbw fbh : Half) (fmt : BitVec 2) (x1 y1 x2 y2 : Half) (s : State) : State :=
  { s with p := { s.p with
    src := 0x2000, dst := 0x4000, fbw := fbw, fbh := fbh, fbfmt := fmt, cx1 := x1, cy1 := y1, cx2 := x2, cy2 := y2 } }

/-- The 4 by 3 framebuffer of vectors VX1 and VX2. -/
def grid (w0 : Word) : State :=
  shaped 4 3 1 1 1 3 3 (put 0x2000 ((List.range 12).flatMap fun i => [BitVec.ofNat 8 i, 0x10]) (start w0 0))

/-- Vector VX1. -/
theorem test_cp565 : bytesAfter 0x4000 8 (grid 0x20) = some [0x05, 0x10, 0x06, 0x10, 0x09, 0x10, 0x0A, 0x10] := by decide +kernel

/-- Vector VX12: `E_FORMAT` of the full-row policy. -/
theorem test_cp565_full_row : verdict { grid 0x20 with pipe := 0x2 } = some (false, 0x03, 0, 0x1000) := by decide +kernel

/-- Vector VX2. -/
theorem test_sw565 : bytesAfter 0x4000 8 (grid 0x21) = some [0x10, 0x05, 0x10, 0x06, 0x10, 0x09, 0x10, 0x0A] := by decide +kernel

/-- Vector VX18. -/
theorem test_sw565_misaligned :
    verdict { grid 0x21 with p := { (grid 0x21).p with src := 0x2001 } } = some (false, 0x11, 0x2001, 0x1000) := by decide +kernel

/-- Vector VX3: rows `0xAB123456` and `0x00080408`. -/
theorem test_x2r565 :
    bytesAfter 0x4000 4 (shaped 2 1 2 0 0 2 1 (put 0x2000 [0x56, 0x34, 0x12, 0xAB, 0x08, 0x04, 0x08, 0x00] (start 0x22 0))) =
      some [0xAA, 0x11, 0x21, 0x08] := by decide +kernel

/-- Vector VX4: in place. -/
theorem test_x2r565_in_place :
    let s := shaped 2 1 2 0 0 2 1 (put 0x2000 [0x00, 0x00, 0xFF, 0x00, 0xFF, 0x00, 0x00, 0x00] (start 0x22 0))
    bytesAfter 0x2000 8 { s with p := { s.p with dst := 0x2000 } } = some [0x00, 0xF8, 0x1F, 0x00, 0xFF, 0x00, 0x00, 0x00] := by decide +kernel

/-- Vector VL15. -/
theorem test_r2gray :
    bytesAfter 0x4000 4 (shaped 4 1 1 0 0 4 1 (put 0x2000 [0xFF, 0xFF, 0x00, 0xF8, 0xE0, 0x07, 0x1F, 0x00] (start 0x23 0))) =
      some [0xF9, 0x2E, 0xB9, 0x12] := by decide +kernel

/-- Vector VL15 with the table: the entries 249 and 46 of `255 - i`. -/
theorem test_r2gray_gamma :
    let s := shaped 2 1 1 0 0 2 1 (put 0x302E [0xD1] (put 0x30F9 [0x06] (put 0x2000 [0xFF, 0xFF, 0x00, 0xF8] (start 0x123 0))))
    bytesAfter 0x4000 2 { s with p := { s.p with lutb := 0x3000 } } = some [0x06, 0xD1] := by decide +kernel

/-- Vector VD2. -/
theorem test_dither :
    bytesAfter 0x4000 4 (shaped 2 2 0 0 0 2 2 (put 0x4000 [0xC8, 0x32, 0x80, 0x7F] (start 0x24 0))) =
      some [0xFF, 0x00, 0x00, 0xFF] := by decide +kernel

/-- Vector VD14: the clip's origin and the format do not matter. -/
theorem test_dither_origin :
    bytesAfter 0x4000 2 (shaped 0 0 3 10 10 12 11 (put 0x4000 [0xC8, 0x64] (start 0x24 0))) = some [0xFF, 0x00] := by decide +kernel

/-- Vector VQ6. -/
theorem test_pack1 :
    bytesAfter 0x4000 1 (shaped 0 0 0 0 0 8 1 (put 0x2000 [0x7F, 0x80, 0x01, 0xFE, 0x40, 0xC0, 0x00, 0xFF] (start 0x25 0))) =
      some [0x55] := by decide +kernel

/-- Vector VQ9. -/
theorem test_pack1_width : verdict (shaped 0 0 0 0 0 4 2 (start 0x25 0)) = some (false, 0x03, 0, 0x1000) := by decide +kernel

/-- The start of the register transfer vectors, section 2.3. -/
def wire (w0 cfg cfg2 cnt : Word) : State :=
  let s := put 0x2000 [0x00, 0xF8, 0x1F, 0x00] (start w0 0)
  hears [.ok [], .ok [], .ok []] { s with
    p := { s.p with reg := 0x2C, src := 0x2000, dst := 0x3000, cnt := cnt }
    busCfg := cfg
    busCfg2 := cfg2
    maxChunk := 4096
    pipe := 0x1 }

/-- Vector VW9. -/
theorem test_wrreg_spi3 :
    (after (wire 0x130 0x052 0 2)).map (·.trace) = some [.spiTx .w9 [0x02C], .spiTx .w9 [0x1F8, 0x100, 0x100, 0x11F]] := by decide +kernel

/-- Vector VW14. -/
theorem test_wrreg_start_byte :
    (after (wire 0x30 0x00B 0x73 4)).map (·.trace) =
      some [.spiTx .w8 [0x70, 0x2C], .spiTx .w8 [0x72, 0x00, 0xF8, 0x1F, 0x00]] := by decide +kernel

/-- Vector VR1. -/
theorem test_rdreg :
    (after (hears [.ok [], .ok [0x93, 0x41]] (wire 0x131 0x4C9 0 1))).map (fun t => (t.trace, memBytes t.mem 0x3000 2)) =
      some ([.gpioDC false, .spiTx .w8 [0x2C], .gpioDC true, .spiTxRx .w8 [] 2], [0x41, 0x93]) := by decide +kernel

/-- Vector VR16: `E_BUS`, and nothing stored. -/
theorem test_rdreg_fails :
    verdict (hears [.ok [], .fail] (wire 0x131 0x489 0 1)) = some (false, 0x01, 0, 0x1000) ∧
    bytesAfter 0x3000 2 (put 0x3000 [0xEE, 0xEE] (hears [.ok [], .fail] (wire 0x131 0x489 0 1))) = some [0xEE, 0xEE] := by decide +kernel

/-- Vector VB1. -/
theorem test_breset :
    (after { start 0x32 0 with busCfg := 0x100, rstCfg := 0x00780014 }).map (·.trace) =
      some [.gpioReset false, .delay 20, .gpioReset true, .delay 120] := by decide +kernel

/-- Vectors VS4 and VS6 on the fault of VS3: `GO` alone is refused and flagged, `CLRERR` with `GO` restarts. -/
theorem test_recovery :
    (after (start 0 0)).map (fun t => (hostWrite t 0 0x01).status) = some 0x100C ∧
    (after (start 0 0)).map (fun t => (hostWrite t 0 0x05).status) = some 0x05 := by decide +kernel

/-- Vector VM18, first push: a host turn each. -/
theorem test_damage_port :
    (after ((mergeStart 0x01 0 []).withTurns [.regWrite 0x30 4 0x0014000A])).bind (fun t =>
      (after (t.withTurns [.regWrite 0x34 4 0x003C0032])).bind fun u =>
        (after (u.withTurns [.regWrite 0x38 4 0])).map (·.acc)) = some { x1 := 10, y1 := 20, x2 := 50, y2 := 60 } := by decide +kernel

/-! ## Witnesses: for every statement with hypotheses, a concrete state and operands that meet all of them together -/

/-- The state a command leaves, if it leaves one. -/
def ran (i : Instr) (s : State) : Option State :=
  match exec i s with
  | .next t => some t
  | .fault _ | .refused _ => none

theorem of_after {s : State} {P : State → Bool} (h : (after s).any P = true) : ∃ t, step s = .next t ∧ P t = true := by
  unfold after at h
  split at h
  · next t ht => exact ⟨t, ht, h⟩
  · cases h
  · cases h

/-- The step hangs. -/
def hangs (s : State) : Bool :=
  match step s with
  | .fault _ => true
  | .next _ | .refused _ => false

theorem of_hangs {s : State} (h : hangs s = true) : step s = .fault .transportSilent := by
  unfold hangs at h
  split at h
  · next r hr => cases r; exact hr
  · cases h
  · cases h

theorem of_ran {i : Instr} {s : State} {P : State → Bool} (h : (ran i s).any P = true) :
    ∃ t, exec i s = .next t ∧ P t = true := by
  unfold ran at h
  split at h
  · next t ht => exact ⟨t, ht, h⟩
  · cases h
  · cases h

theorem of_all {cs : Checks} (h : cs.all (fun c => !c.1) = true) : cs.pass := by
  intro c hc
  simpa using List.all_eq_true.1 h c hc

/-- An answer is `ok`. -/
def isOk : Config.Answer → Bool
  | .ok _ => true
  | .fail | .silent => false

theorem of_oks {s : State} {n : Nat} (h : (List.range n).all (fun k => isOk (s.env.answer (s.env.asked + k))) = true) :
    s.nextOk n := by
  intro k hk
  have := List.all_eq_true.1 h k (List.mem_range.2 hk)
  cases ha : s.env.answer (s.env.asked + k) with
  | ok ws => exact ⟨ws, rfl⟩
  | fail => rw [ha] at this; cases this
  | silent => rw [ha] at this; cases this

/-- A state with `HALT` at `CP`, about to fetch it. -/
def atHalt : State := start 0x01 0

theorem fetching_atHalt : Fetching atHalt := ⟨rfl, rfl, rfl, by decide +kernel⟩

theorem inv_atHalt : Inv atHalt := by
  constructor <;> first | exact Or.inl rfl | decide +kernel

/-- A state with a fault `E_ILLEGAL` recorded. -/
def faulted : State := { atHalt with run := false, err := 0x10, errInfo := 0x1001 }

theorem inv_faulted : Inv faulted := by
  constructor <;> first | exact Or.inr ⟨.illegal, rfl, rfl⟩ | decide +kernel

theorem witness_DecodingUndoesEncoding :
    Instr.wf .halt = true ∧ Instr.wf (.set .cy2 0xFFFF) = true ∧ Instr.wf (.set .fbfmt 3) = true := by decide

theorem witness_EncodingUndoesDecoding : decode 0x0000FFFF00000B02 = .ok (.set .cy2 0xFFFF) := by decide

theorem witness_IllegalCommandsFault :
    Fetching (start 0xC02 0) ∧
    ∃ e, decode ((start 0xC02 0).word ((start 0xC02 0).cpValue.toNat + 4) ++ (start 0xC02 0).word (start 0xC02 0).cpValue.toNat :
      BitVec 64) = .error e :=
  ⟨⟨rfl, rfl, rfl, by decide +kernel⟩, .badRegister, by decide +kernel⟩

theorem witness_StepRunsDecodedCommand :
    Fetching atHalt ∧ decodeBytes atHalt.plat.memBE (memBytes atHalt.mem atHalt.cpValue.toNat 8) = .ok (.halt, []) :=
  ⟨fetching_atHalt, by decide +kernel⟩

/-- The last accessible place for a command is `0x000FFFF8`; the next one is not accessible. -/
theorem witness_FetchNeedsRunAndAccess :
    (atHalt.halted.env.turns = [] ∧ atHalt.halted.undisturbed = true ∧ atHalt.halted.run = false) ∧
    (let s := { atHalt with cp := 0x100000 };
      s.env.turns = [] ∧ s.undisturbed = true ∧ s.run = true ∧ accessible s.plat s.cpValue.toNat 8 .rd = false) ∧
    accessible lowMegabyte 0xFFFF8 8 .rd = true := by decide +kernel

theorem witness_OnlyGoStartsRun :
    (∃ t, step (State.reset.withTurns [.regWrite 0 4 0x01]) = .next t ∧ (t.run && !State.reset.run) = true) ∧
    ∃ t, step (faulted.withTurns [.regWrite 0 4 0x05]) = .next t ∧ (t.run && !faulted.run) = true :=
  ⟨of_after (by decide +kernel), of_after (by decide +kernel)⟩

theorem witness_RunEndsOneWay :
    (Inv atHalt ∧ ∃ t, step atHalt = .next t ∧ (!t.run && t.done) = true) ∧
    (Inv (start 0 0) ∧ ∃ t, step (start 0 0) = .next t ∧ (!t.run && t.err == 0x10) = true) ∧
    (Inv (atHalt.withTurns [.reset]) ∧ ∃ t, step (atHalt.withTurns [.reset]) = .next t ∧ (!t.run && t.trace == [.resetMark]) = true) :=
  ⟨⟨inv_atHalt, of_after (by decide +kernel)⟩,
    ⟨by constructor <;> first | exact Or.inl rfl | decide +kernel, of_after (by decide +kernel)⟩,
    ⟨by constructor <;> first | exact Or.inl rfl | decide +kernel, of_after (by decide +kernel)⟩⟩

/-- A register write at the last offset; and a run in which the transport is silent, which has no next state. -/
theorem witness_AnsweredStepsEnd :
    (∀ off size v ts, (State.reset.withTurns [.regWrite 0xFC 4 0]).env.turns = .regWrite off size v :: ts →
      accessShaped off size = true) ∧
    (∀ off size ts, (State.reset.withTurns [.regWrite 0xFC 4 0]).env.turns = .regRead off size :: ts →
      accessShaped off size = true) ∧
    after (hears [.silent] (wire 0x130 0x052 0 2)) = none := by
  refine ⟨fun off size v ts h => ?_, fun off size ts h => ?_, by decide +kernel⟩
  · have : Turn.regWrite 0xFC 4 0 = .regWrite off size v := (List.cons.inj h).1
    injection this with h1 h2; subst h1; subst h2; rfl
  · cases (List.cons.inj h).1

theorem witness_StepsKeepInvariant : Inv atHalt ∧ ∃ t, step atHalt = .next t ∧ t.done = true :=
  ⟨inv_atHalt, of_after (P := State.done) (by decide +kernel)⟩

theorem witness_TraceGrowsPlatformStays : ∃ t, step (start 0x03 120) = .next t ∧ (t.trace == [.delay 120]) = true :=
  of_after (by decide +kernel)

/-- A command that goes on, one that ends the run, and one that faults. -/
theorem witness_CommandPointerMoves :
    (Fetching (start 0x03 120) ∧ ∃ t, step (start 0x03 120) = .next t ∧ t.run = true) ∧
    (Fetching atHalt ∧ ∃ t, step atHalt = .next t ∧ (!t.run && t.done) = true) ∧
    (Fetching (start 0 0) ∧ ∃ t, step (start 0 0) = .next t ∧ (!t.run && t.err != 0) = true) :=
  ⟨⟨⟨rfl, rfl, rfl, by decide +kernel⟩, of_after (P := State.run) (by decide +kernel)⟩,
    ⟨fetching_atHalt, of_after (by decide +kernel)⟩,
    ⟨⟨rfl, rfl, rfl, by decide +kernel⟩, of_after (by decide +kernel)⟩⟩

theorem witness_OnlySetAndTakeWriteParams :
    atHalt.env.cut = none ∧ (∃ t, exec (.set .fbw 240) atHalt = .next t ∧ (t.p.fbw == 240) = true) ∧
    (∃ t, exec .take atHalt = .next t ∧ (t.p.cx1 == 0xFFFF) = true) ∧ ∃ t, exec .breset atHalt = .next t ∧ (t.p == atHalt.p) = true :=
  ⟨rfl, of_ran (by decide +kernel), of_ran (by decide +kernel), of_ran (by decide +kernel)⟩

theorem witness_CommandsWriteOnlyTheirState :
    atHalt.env.cut = none ∧ (∃ t, exec (.merge false) atHalt = .next t ∧ (t.acc != atHalt.acc) = true) ∧
    (∃ t, exec .take atHalt = .next t ∧ (t.first != atHalt.first) = true) ∧
    ∃ t, exec .halt atHalt = .next t ∧ (t.done != atHalt.done) = true :=
  ⟨rfl, of_ran (by decide +kernel), of_ran (by decide +kernel), of_ran (by decide +kernel)⟩

theorem witness_CommandsReachOnlyTheirSpaces :
    (grid 0x20).env.cut = none ∧ (∃ t, exec .cp565 (grid 0x20) = .next t ∧ (t.byteAt 0x4000 == 0x05) = true) ∧
    ∃ t, exec (.delay 7) (grid 0x20) = .next t ∧ (t.trace == [.delay 7]) = true :=
  ⟨rfl, of_ran (by decide +kernel), of_ran (by decide +kernel)⟩

theorem witness_InterruptEnablesAreInert :
    (grid 0x20).env.cut = none ∧ ∃ t, exec .cp565 (grid 0x20) = .next t ∧ (t.byteAt 0x4000 == 0x05) = true :=
  ⟨rfl, of_ran (by decide +kernel)⟩

/-- The fault stays in a step of the sequencer, and goes with `CLRERR`, with `SRST`, with the reset input, and with a reset inside a
turn. -/
theorem witness_RecordedFaultStays :
    Inv faulted ∧ faulted.err ≠ 0 ∧ (∃ t, step faulted = .next t ∧ (t.err == 0x10) = true) ∧
    (∃ t, step (faulted.withTurns [.regWrite 0 4 0x04]) = .next t ∧ (t.err == 0) = true) ∧
    (∃ t, step (faulted.withTurns [.regWrite 0 4 0x02]) = .next t ∧ (t.err == 0) = true) ∧
    (∃ t, step (faulted.withTurns [.reset]) = .next t ∧ (t.err == 0) = true) ∧
    ∃ t, step (faulted.withTurns [.sequencer [] (some 0)]) = .next t ∧ (t.err == 0) = true :=
  ⟨inv_faulted, by decide, of_after (by decide +kernel), of_after (by decide +kernel), of_after (by decide +kernel),
    of_after (by decide +kernel), of_after (by decide +kernel)⟩

theorem witness_FaultsArePrecise :
    (∃ t, exec .sw565 { grid 0x21 with p := { (grid 0x21).p with src := 0x2001 } } = .next t ∧ (!t.run && t.err == 0x11) = true) ∧
    (wire 0x30 0x409 0 4).env.cut = none ∧ (wire 0x30 0x409 0 4).run = true ∧
    ∃ t, exec (.wrreg false false) (hears [.ok [], .fail] (wire 0x30 0x409 0 4)) = .next t ∧ (!t.run && t.err == 0x01) = true :=
  ⟨of_ran (by decide +kernel), rfl, rfl, of_ran (by decide +kernel)⟩

theorem witness_FaultEntryAndReturn : (State.raiseFault { atHalt with irqEn := 0x2 } .bus 0).ieErr = true := by decide

theorem witness_HaltEndsList :
    State.ieDone { atHalt with irqEn := 0x1 } = true ∧ ∃ t, exec .halt atHalt = .next t ∧ (t.err == 0) = true :=
  ⟨rfl, of_ran (by decide +kernel)⟩

theorem witness_SetWritesParameter :
    PReg.fbw.fits 0xFFFF = true ∧ PReg.fbw.fits 0x10000 = false ∧ PReg.fbfmt.fits 3 = true ∧ PReg.fbfmt.fits 4 = false ∧
    PReg.src.fits 0xFFFFFFFF = true := by decide

theorem witness_DelayEmitsOneEvent : (start 0x03 120).undisturbed = true := rfl

theorem witness_ClampKeepsInsideBuffer : (1 : Half) ≠ 0 ∧ (0xFFFF : Half) ≠ 0 := by decide

theorem witness_MergeOrderIsIrrelevant :
    let r1 : Rect := { x1 := 10, y1 := 20, x2 := 50, y2 := 60 }
    let r2 : Rect := { x1 := 30, y1 := 10, x2 := 100, y2 := 40 }
    let s := mergeStart 0x10 2 []
    s.first = false ∧ s.forceFull = false ∧ s.acc = Rect.empty ∧ ([[r2], [r1]] : List (List Rect)) ≠ [] ∧
      (∀ g ∈ [[r2], [r1]], g ≠ []) ∧ [[r2], [r1]].flatten.Perm [r1, r2] :=
  ⟨rfl, rfl, rfl, by decide, by decide, List.Perm.swap _ _ _⟩

/-- One rectangle, one pair, and the empty list at an address that is odd. -/
theorem witness_MergeUnitesList :
    (mergeStart 0x10 1 []).undisturbed = true ∧ (mergeChecks false (mergeStart 0x10 1 [])).pass ∧
    (mergeChecks true (mergeStart 0x110 1 [])).pass ∧ (mergeChecks false (start 0x10 0)).pass :=
  ⟨rfl, of_all (by decide +kernel), of_all (by decide +kernel), of_all (by decide +kernel)⟩

theorem witness_EmptyClipIsRefused :
    (∃ t, exec .take (grid 0x11) = .next t ∧ (t.p.fbfmt == 1 && (grid 0x11).acc == Rect.empty) = true) ∧
    ∃ t, exec .take { grid 0x11 with p := { (grid 0x11).p with fbfmt := 2 } } = .next t ∧ (t.p.fbfmt == 2) = true :=
  ⟨of_ran (by decide +kernel), of_ran (by decide +kernel)⟩

theorem witness_CopyPreservesPixels :
    (grid 0x20).undisturbed = true ∧ (conversionChecks 1 2 2 true false (grid 0x20)).pass ∧ (grid 0x20).p.apart 2 2 :=
  ⟨rfl, of_all (by decide +kernel), by unfold Params.apart; decide +kernel⟩

theorem witness_SwapExchangesBytes :
    (grid 0x21).undisturbed = true ∧ (conversionChecks 1 2 2 true false (grid 0x21)).pass ∧ (grid 0x21).p.apart 2 2 :=
  ⟨rfl, of_all (by decide +kernel), by unfold Params.apart; decide +kernel⟩

/-- A 2 by 1 framebuffer of 32-bit pixels. -/
def wide : State := shaped 2 1 2 0 0 2 1 (start 0x22 0)

theorem witness_TruncationKeepsTopBits :
    wide.undisturbed = true ∧ (conversionChecks 2 4 2 true false wide).pass ∧ wide.p.apart 4 2 :=
  ⟨rfl, of_all (by decide +kernel), by unfold Params.apart; decide +kernel⟩

/-- The framebuffer with a table at `0x5000`. -/
def gammaGrid : State := { grid 0x123 with p := { (grid 0x123).p with lutb := 0x5000 } }

theorem witness_GrayIsLumaOfPixels :
    gammaGrid.undisturbed = true ∧ (conversionChecks 1 2 1 false true gammaGrid).pass ∧
    (conversionChecks 1 2 1 false false gammaGrid).pass ∧ gammaGrid.p.apart 2 1 ∧
    (gammaGrid.p.lutb.toNat + 256 ≤ gammaGrid.p.dst.toNat ∨
      gammaGrid.p.dst.toNat + gammaGrid.p.cw * gammaGrid.p.ch ≤ gammaGrid.p.lutb.toNat) :=
  ⟨rfl, of_all (by decide +kernel), of_all (by decide +kernel), by unfold Params.apart; decide +kernel, by decide +kernel⟩

/-- The last two lines: `SRC` and `DST` both misaligned with `DST` the lower, and `DST` alone as in vector VX19. -/
theorem witness_OperandChecksFaultInOrder :
    (mergeChecks false { mergeStart 0x10 1 [] with p := { (mergeStart 0x10 1 []).p with src := 0x2001 } }).firstFault =
      some (.align, 0x2001) ∧
    (mergeChecks true (mergeStart 0x110 0x80000000 [])).firstFault = some (.access, 0x2000) ∧
    (conversionChecks 1 2 2 true false { grid 0x20 with p := { (grid 0x20).p with fbfmt := 2, cx2 := 5 } }).firstFault =
      some (.format, 0) ∧
    (conversionChecks 2 4 2 true false { wide with p := { wide.p with src := 0x2002 } }).firstFault = some (.align, 0x2002) ∧
    (conversionChecks 1 2 1 false true { gammaGrid with p := { gammaGrid.p with lutb := 0xFFF80 } }).firstFault =
      some (.access, 0xFFF80) ∧
    (ditherChecks (shaped 0 0 0 5 0 2 1 atHalt)).firstFault = some (.config, 0) ∧
    (pack1Checks (shaped 0 0 0 0 0 4 2 atHalt)).firstFault = some (.format, 0) ∧
    (let p := (grid 0x20).p;
      p.fbfmt = 1 ∧ (p.cx1.toNat < p.cx2.toNat ∧ p.cx2.toNat ≤ p.fbw.toNat ∧ p.cy1.toNat < p.cy2.toNat ∧ p.cy2.toNat ≤ p.fbh.toNat) ∧
      (grid 0x20).fullRow = false) ∧
    ({ (grid 0x20).p with src := 0x4003, dst := 0x4001 } : Params).src.toNat % 2 ≠ 0 ∧
    (grid 0x20).p.src.toNat % 2 = 0 ∧ ({ (grid 0x20).p with dst := 0x4001 } : Params).dst.toNat % 2 ≠ 0 := by decide +kernel

/-- A 2 by 2 buffer at `0x4000` of two levels. -/
def flat : State := shaped 2 2 0 0 0 2 2 (put 0x4000 [0xFF, 0x00, 0x00, 0xFF] (start 0x24 0))

theorem witness_DitherLeavesTwoLevels : flat.undisturbed = true ∧ (ditherChecks flat).pass := ⟨rfl, of_all (by decide +kernel)⟩

theorem witness_DitherKeepsFlatBuffers :
    flat.undisturbed = true ∧ (ditherChecks flat).pass ∧
    ∀ k < flat.p.cw * flat.p.ch, flat.byteAt (flat.p.dst.toNat + k) = 0x00 ∨ flat.byteAt (flat.p.dst.toNat + k) = 0xFF :=
  ⟨rfl, of_all (by decide +kernel), by decide +kernel⟩

theorem witness_PackingTakesTopBits :
    let s := shaped 0 0 0 0 0 8 1 (start 0x25 0)
    s.undisturbed = true ∧ (pack1Checks s).pass ∧
    (s.p.src.toNat + s.p.cw * s.p.ch ≤ s.p.dst.toNat ∨ s.p.dst.toNat + s.p.cw * s.p.ch / 8 ≤ s.p.src.toNat) :=
  ⟨rfl, of_all (by decide +kernel), by decide +kernel⟩

theorem witness_PackingIsNineBitStream : (List.replicate 16 (0x1FF : BitVec 9)).length % 8 = 0 := by decide

/-- The smallest page with bytes, and the usual one with 16-bit words and an odd `MAXCHUNK`, off a page boundary and on one. -/
theorem witness_ChunksTileBuffer :
    (2 % 2 = 0 ∧ 2 ≤ 2 ∧ 7 % 1 = 0 ∧ 3 % 1 = 0 ∧ 0 < 1 - 1 % 1) ∧
    (4096 % 2 = 0 ∧ 2 ≤ 4096 ∧ 1000 % 2 = 0 ∧ 0x1FFE % 2 = 0 ∧ 0 < 5 - 5 % 2 ∧ 0x1FFE % 4096 ≠ 0 ∧ 0x2000 % 4096 = 0 ∧
      0x2000 % 2 = 0) := by decide

/-- 4-wire SPI, 3-wire SPI, start byte, parallel bus and I2C. -/
theorem witness_WriteTransferEmitsEvents :
    ∀ cfg ∈ [(0x429 : Word), 0x052, 0x04B, 0x424, 0x005],
      (wire 0x130 cfg 0 2).undisturbed = true ∧ (wrregChecks true true (wire 0x130 cfg 0 2)).pass ∧
      (wire 0x130 cfg 0 2).nextOk (askCount ((wire 0x130 cfg 0 2).wrregEvents true)) := by
  intro cfg h
  simp only [List.mem_cons, List.mem_nil_iff, or_false] at h
  rcases h with rfl | rfl | rfl | rfl | rfl <;>
    exact ⟨rfl, of_all (by decide +kernel), of_oks (by decide +kernel)⟩

theorem witness_TransferChecksFaultInOrder :
    (wrregChecks false true { wire 0x230 0 0 4 with pipe := 0 }).firstFault = some (.state, 0) ∧
    (wrregChecks false false { wire 0x30 0x401 0 4 with maxChunk := 0 }).firstFault = some (.unsup, 0) ∧
    (rdregChecks false (wire 0x31 0 0 1)).firstFault = some (.config, 0) ∧
    (rdregChecks true { wire 0x131 0x489 0 1 with p := { (wire 0x131 0x489 0 1).p with dst := 0x3001 } }).firstFault =
      some (.align, 0x3001) := by decide +kernel

theorem witness_FlushNeedsPrepared :
    State.prepared { wire 0x330 0x429 0 2 with pipe := 0x6 } = false ∧ (wire 0x130 0x052 0 2).env.cut = none ∧
    (∀ w, Instr.wrreg true false ≠ .wrreg w true) ∧
    ∃ t, exec (.wrreg true false) (wire 0x130 0x052 0 2) = .next t ∧ (t.trace.length == 2) = true :=
  ⟨by decide +kernel, rfl, by decide, of_ran (by decide +kernel)⟩

/-- 4-wire SPI, start byte, parallel bus (strobe by strobe) and I2C. -/
theorem witness_ReadTransferStoresAnswers :
    ∀ cfg ∈ [(0x4C9 : Word), 0x0CB, 0x4CC, 0x085],
      (wire 0x131 cfg 0 1).undisturbed = true ∧ (rdregChecks true (wire 0x131 cfg 0 1)).pass ∧
      (wire 0x131 cfg 0 1).nextOk (askCount ((wire 0x131 cfg 0 1).rdregEvents true)) := by
  intro cfg h
  simp only [List.mem_cons, List.mem_nil_iff, or_false] at h
  rcases h with rfl | rfl | rfl | rfl <;>
    exact ⟨rfl, of_all (by decide +kernel), of_oks (by decide +kernel)⟩

/-- The first and the last event of a transfer: a failure of each, and silence at the first. -/
theorem witness_FailedEventsStopTransfer :
    (let s := hears [.fail] (wire 0x130 0x052 0 2);
      s.undisturbed = true ∧ s.nextOk (askCount []) ∧ s.env.answer (s.env.asked + askCount []) = .fail ∧
      (wrregChecks true false s).pass ∧
      s.wrregEvents true = [] ++ .spiTx .w9 [0x02C] :: [.spiTx .w9 [0x1F8, 0x100, 0x100, 0x11F]]) ∧
    (let s := hears [.ok [], .fail] (wire 0x131 0x489 0 1);
      let pre : List Event := [.gpioDC false, .spiTx .w8 [0x2C], .gpioDC true];
      s.undisturbed = true ∧ s.nextOk (askCount pre) ∧ s.env.answer (s.env.asked + askCount pre) = .fail ∧
      (rdregChecks true s).pass ∧ s.rdregEvents true = pre ++ .spiTxRx .w8 [] 2 :: []) ∧
    (let s := hears [.silent] (wire 0x130 0x052 0 2);
      s.nextOk (askCount []) ∧ s.env.answer (s.env.asked + askCount []) = .silent ∧ (wrregChecks true false s).pass) :=
  ⟨⟨rfl, of_oks (by decide +kernel), by decide +kernel, of_all (by decide +kernel), by decide +kernel⟩,
    ⟨rfl, of_oks (by decide +kernel), by decide +kernel, of_all (by decide +kernel), by decide +kernel⟩,
    ⟨of_oks (by decide +kernel), by decide +kernel, of_all (by decide +kernel)⟩⟩

theorem witness_ResetPulseEmitsFourEvents :
    (start 0x32 0).undisturbed = true ∧ State.rstP { start 0x32 0 with busCfg := 0x100 } = true := by decide +kernel

theorem witness_ByteOrderPairingsAgree :
    let s := put 0x2000 [0x00, 0xF8, 0x1F, 0x00] State.reset
    let t := put 0x4000 [0xF8, 0x00, 0x00, 0x1F] State.reset
    s.plat.memBE = false ∧
      ∀ k < 2, t.byteAt (0x4000 + 2 * k) = s.byteAt (0x2000 + 2 * k + 1) ∧ t.byteAt (0x4000 + 2 * k + 1) = s.byteAt (0x2000 + 2 * k) := by
  decide +kernel

theorem witness_ControlStrobesInOrder : (0x03 : Word).getLsbD 1 = true ∧ (0x3D : Word).getLsbD 1 = false := by decide

theorem witness_InterruptLineFollowsState :
    (State.reset.err = 0 ∧ State.reset.run = false ∧ State.reset.done = false) ∧ (atHalt.halted.run = false ∧ atHalt.halted.err = 0) := by
  decide +kernel

theorem witness_WindowReachesParameters :
    State.reset.run = false ∧ (0xFFFF : Word).toNat < 2 ^ PReg.fbw.width ∧ 2 ^ PReg.fbw.width ≤ (0x10000 : Word).toNat ∧
    atHalt.run = true := by decide

/-- A turn of the host during a run, and one while none is on. -/
theorem witness_RunFreezesConfiguration :
    atHalt.run = true ∧ accessShaped 0x38 4 = true ∧ accessShaped 0x10 4 = true ∧
    (atHalt.withTurns [.regWrite 0x38 4 0]).env.turns = .regWrite 0x38 4 0 :: [] ∧
    State.reset.run = false ∧ (State.reset.withTurns [.regWrite 0x10 4 0x429]).env.turns = .regWrite 0x10 4 0x429 :: [] :=
  ⟨rfl, rfl, rfl, rfl, rfl, rfl⟩

theorem witness_ConfigurationReadsBack : State.reset.run = false := rfl

/-- The first and the last reserved offsets of each range, a read in a turn, and a misaligned, a narrow and an outside access. -/
theorem witness_ReservedOffsetsAndReads :
    (0x70 ≤ 0x70 ∧ 0x70 < 0x100) ∧ (0x70 ≤ 0xFF ∧ 0xFF < 0x100) ∧
    (accessShaped 0xFC 4 = true ∧ (State.reset.withTurns [.regRead 0xFC 4]).env.turns = .regRead 0xFC 4 :: []) ∧
    accessShaped 0x02 4 = false ∧ accessShaped 0x04 2 = false ∧ accessShaped 0x100 4 = false := by decide

theorem witness_ResetRestoresTableValues :
    (0x02 : Word).getLsbD 1 = true ∧ (atHalt.withTurns [.reset]).env.turns = .reset :: [] := by decide

/-- A pulse that ends, a transfer whose first answer is silence, and a decoded command. -/
theorem witness_ResetAbandonsCommand :
    let s := { start 0x32 0 with busCfg := 0x100 }
    let q := hears [.silent] (wire 0x130 0x052 0 2)
    (s.undisturbed = true ∧ s.run = true ∧ accessible s.plat s.cpValue.toNat 8 .rd = true ∧
      decode (s.word (s.cpValue.toNat + 4) ++ s.word s.cpValue.toNat : BitVec 64) = .ok .breset ∧
      ∃ u, step (s.withTurns (.sequencer [] none :: [])) = .next u ∧ u.run = true) ∧
    q.undisturbed = true ∧ step (q.withTurns (.sequencer [] none :: [])) = .fault .transportSilent :=
  ⟨⟨rfl, rfl, by decide +kernel, by decide +kernel, of_after (P := State.run) (by decide +kernel)⟩, rfl, of_hangs (by decide +kernel)⟩

theorem witness_WordsReadBackAsWritten :
    0xFFFFFFFE + 2 ≤ memLimit ∧ 0xFFFFFFFC + 4 ≤ memLimit ∧ 0 < 0xFFFFFFFE ∧ 0xFFFFFFFC + 4 ≤ 0x100000000 := by decide

/-- The conversion of vector VX1 with a host store that falls inside it, every access drawn to see it; and a store while no run is on. -/
def racing : State :=
  let s := (grid 0x20).withTurns [.sequencer [[(0x2000, 0xAA)]] none]
  s.withEnv { s.env with raceBits := List.replicate 18 true }

theorem witness_RacingStoreIsOldOrNew :
    let w : HostStore := [(0x2000, 0xAA)]
    (State.reset.withTurns [.store w]).env.turns = .store w :: [] ∧
    (State.reset.disturbed [w] none).env.inFlight = [w] ∧ (State.reset.disturbed [w] none).env.cut = none ∧
    0x2000 + ([0x55, 0x66] : List Byte).length ≤ memLimit ∧
    (racing.undisturbed = true ∧ racing.env.turns = .sequencer [w] none :: [] ∧
      ∃ t, step racing = .next t ∧ (memByte t.mem 0x2000 == 0xAA) = true) ∧
    (∃ t, step { racing with run := false } = .next t ∧ (memByte t.mem 0x2000 == 0xAA) = true) ∧
    (0x2000 < racing.p.dst.toNat ∧ racing.p.dst.toNat + 2 * (racing.p.cw * racing.p.ch) ≤ 0x4008 ∧
      racing.p.dst.toNat + 2 * racing.p.cnt.toNat ≤ 0x4008) :=
  ⟨rfl, rfl, rfl, by decide, ⟨rfl, rfl, of_after (P := fun t => memByte t.mem 0x2000 == 0xAA) (by decide +kernel)⟩,
    of_after (P := fun t => memByte t.mem 0x2000 == 0xAA) (by decide +kernel), by decide +kernel⟩

end Sys2Proof.Tests
end

section
/-! PROOFS. The host's register port: `CTRL` and the register window (10_state.md R32, R42). -/

namespace Sys2Proof.Machine

/-! ### The strobes of `CTRL`, each as one update of the state -/

section
variable (s : State) (v : Word)

theorem strobeClrErr_eq : s.strobeClrErr v = { s with
    err := if v.getLsbD 2 && !s.run then 0 else s.err
    errInfo := if v.getLsbD 2 && !s.run then 0 else s.errInfo } := by
  unfold State.strobeClrErr
  split <;> rfl

theorem strobeClrDone_eq : s.strobeClrDone v = { s with done := s.done && !v.getLsbD 3 } := by
  unfold State.strobeClrDone
  cases v.getLsbD 3 <;> simp

theorem strobeClrDrop_eq : s.strobeClrDrop v = { s with drop := s.drop && !v.getLsbD 4 } := by
  unfold State.strobeClrDrop
  cases v.getLsbD 4 <;> simp

theorem strobeSetFirst_eq : s.strobeSetFirst v = { s with first := s.first || v.getLsbD 5 } := by
  unfold State.strobeSetFirst
  cases v.getLsbD 5 <;> simp

theorem strobeGo_eq : s.strobeGo v = { s with
    done := s.done && !(v.getLsbD 0 && s.goAccepted)
    run := s.run || (v.getLsbD 0 && s.goAccepted) } := by
  unfold State.strobeGo
  cases v.getLsbD 0 && s.goAccepted <;> simp [State.go]

theorem markDrop_if_eq (b : Bool) : (if b then s.markDrop else s) = { s with drop := s.drop || b } := by
  cases b <;> simp [State.markDrop]

@[simp] theorem hostWrite_ctrl : hostWrite s 0x00 v = s.control v := rfl

@[simp] theorem hostRead_ctrl : hostRead s 0x00 = 0 := rfl

end

/-! ### A write to `CTRL` -/

theorem control_of_srst {s : State} {v : Word} (h : v.getLsbD 1 = true) : s.control v = s.resetInput := if_pos h

/-- `GO` sees the fault as `CLRERR` of the same write has left it, and is refused exactly where it does not start the run. -/
theorem control_of_not_srst {s : State} {v : Word} (h : v.getLsbD 1 = false) :
    let err' : Byte := if v.getLsbD 2 && !s.run then 0 else s.err
    let go := v.getLsbD 0 && !s.run && err' == 0
    s.control v = { s with
      err := err'
      errInfo := if v.getLsbD 2 && !s.run then 0 else s.errInfo
      done := s.done && !v.getLsbD 3 && !go
      run := s.run || go
      first := s.first || v.getLsbD 5
      drop := (s.drop && !v.getLsbD 4) || (v.getLsbD 2 && s.run) || (v.getLsbD 0 && !go) } := by
  have refused : ∀ a b : Bool, (a && !b) = (a && !(a && b)) := by decide
  simp only [State.control, h, Bool.false_eq_true, if_false, markDrop_if_eq, strobeGo_eq, strobeSetFirst_eq, strobeClrDrop_eq,
    strobeClrDone_eq, strobeClrErr_eq, State.goAccepted, Bool.and_assoc, Bool.or_assoc]
  rw [refused (v.getLsbD 0)]

/-- `CTRL` has six strobes, in its low bits. -/
theorem getLsbD_ctrlMask (v : Word) {k : Nat} (h : k < 6) : (v &&& 0x3F).getLsbD k = v.getLsbD k := by
  have low : ∀ k < 6, (0x3F : Word).getLsbD k = true := by decide
  rw [BitVec.getLsbD_and, low k h, Bool.and_true]

theorem control_ctrlMask (s : State) (v : Word) : s.control (v &&& 0x3F) = s.control v := by
  cases h : v.getLsbD 1 with
  | true => rw [control_of_srst h, control_of_srst ((getLsbD_ctrlMask v (by decide)).trans h)]
  | false =>
    rw [control_of_not_srst h, control_of_not_srst ((getLsbD_ctrlMask v (by decide)).trans h)]
    simp only [getLsbD_ctrlMask v (show 0 < 6 by decide), getLsbD_ctrlMask v (show 2 < 6 by decide),
      getLsbD_ctrlMask v (show 3 < 6 by decide), getLsbD_ctrlMask v (show 4 < 6 by decide),
      getLsbD_ctrlMask v (show 5 < 6 by decide)]

/-! ### A parameter register after a write to the same and to another one -/

theorem fits_iff {rd : PReg} {v : Word} : rd.fits v = true ↔ v.toNat < 2 ^ rd.width := decide_eq_true_iff

theorem setWidth_setWidth_of_lt {n : Nat} {v : Word} (h : v.toNat < 2 ^ n) : (v.setWidth n).setWidth 32 = v := by
  apply BitVec.eq_of_toNat_eq
  rw [BitVec.toNat_setWidth, BitVec.toNat_setWidth, Nat.mod_eq_of_lt h, Nat.mod_eq_of_lt v.isLt]

theorem get_put_same {rd : PReg} {v : Word} (p : Params) (h : rd.fits v = true) : (p.put v rd).get rd = v := by
  have hv := fits_iff.1 h
  cases rd with
  | src | dst | lutb | cnt => rfl
  | reg | fbw | fbh | fbfmt | cx1 | cy1 | cx2 | cy2 => exact setWidth_setWidth_of_lt hv

/-- Each register is a field of its own. -/
theorem get_put_of_ne {r rd : PReg} (p : Params) (v : Word) (h : r ≠ rd) : (p.put v rd).get r = p.get r := by
  cases rd <;> cases r <;> first | exact absurd rfl h | rfl

/-! ### The register window -/

@[simp] theorem hostRead_window (s : State) (rd : PReg) : hostRead s (0x40 + 4 * rd.num.toNat) = s.param rd := by
  cases rd <;> rfl

theorem hostWrite_window (s : State) (rd : PReg) (v : Word) : hostWrite s (0x40 + 4 * rd.num.toNat) v =
    if rd.fits v then s.whenIdle (s.setParam rd v) else s.markDrop := by
  cases rd <;> rfl

theorem whenIdle_of_idle {s : State} (t : State) (h : s.run = false) : s.whenIdle t = t := by simp [State.whenIdle, h]

theorem whenIdle_of_run {s : State} (t : State) (h : s.run = true) : s.whenIdle t = s.markDrop := if_pos h

theorem hostWrite_window_stores {s : State} {rd : PReg} {v : Word} (hr : s.run = false) (hf : rd.fits v = true) :
    hostWrite s (0x40 + 4 * rd.num.toNat) v = s.setParam rd v := by
  rw [hostWrite_window, if_pos hf, whenIdle_of_idle _ hr]

theorem hostWrite_window_drops {s : State} {rd : PReg} {v : Word} (h : s.run = true ∨ rd.fits v = false) :
    hostWrite s (0x40 + 4 * rd.num.toNat) v = s.markDrop := by
  rw [hostWrite_window]
  cases hf : rd.fits v with
  | false => rfl
  | true => exact whenIdle_of_run _ (h.resolve_right (by simp [hf]))

/-! ### The statements -/

/-- Settles O50: the strobes composed in their order, each as one update of the state. -/
theorem controlStrobesInOrder : Obligations.ControlStrobesInOrder := fun s v =>
  ⟨hostRead_ctrl s, control_of_srst, control_of_not_srst, (control_ctrlMask s v).symm⟩

/-- Settles O53: the window decodes to its register, and a write there either goes to that register alone or is dropped. -/
theorem windowReachesParameters : Obligations.WindowReachesParameters := fun s rd v => by
  refine ⟨hostRead_window s rd, fun hr hv => ?_, fun h => ?_⟩
  · exact ⟨s.setParam rd v, (hostWrite_window_stores hr (fits_iff.2 hv)).symm, get_put_same s.p (fits_iff.2 hv),
      fun r hne => get_put_of_ne s.p v hne, rfl⟩
  · refine hostWrite_window_drops (h.imp_right fun hv => ?_)
    rw [Bool.eq_false_iff, ne_eq, fits_iff]
    omega

end Sys2Proof.Machine
end

section
/-! PROOFS. The encoding: the byte layer of the decoder and the worked encodings (30_encoding.md R110, R120). -/

namespace Sys2Proof.Machine

/-- The byte layer of the decoder (30_encoding.md R110): 8 bytes that join to the words `w0` and `w1` decode as `W1 ‖ W0` does, and
the bytes after them are left. -/
theorem decodeBytes_of_words {be : Bool} {b0 b1 b2 b3 b4 b5 b6 b7 : Byte} {rest : List Byte} {i : Instr} (w0 w1 : Word)
    (h0 : join4 be b0 b1 b2 b3 = w0) (h1 : join4 be b4 b5 b6 b7 = w1) (hd : decode (w1 ++ w0) = .ok i) :
    decodeBytes be (b0 :: b1 :: b2 :: b3 :: b4 :: b5 :: b6 :: b7 :: rest) = .ok (i, rest) := by
  subst h0 h1
  simp only [decodeBytes, hd]

/-- Settles O4: the bytes of each example join to the words `W0` and `W1` of 30_encoding.md R120, and those decode to its command. -/
theorem workedEncodingsDecode : Obligations.WorkedEncodingsDecode :=
  ⟨decodeBytes_of_words 0x00000302 0x00012C00 (by decide) (by decide) (by decide),
    decodeBytes_of_words 0x00000330 0 (by decide) (by decide) (by decide),
    decodeBytes_of_words 0x00000001 0 (by decide) (by decide) (by decide),
    decodeBytes_of_words 0x00000003 120 (by decide) (by decide) (by decide),
    decodeBytes_of_words 0x00000110 0 (by decide) (by decide) (by decide)⟩

end Sys2Proof.Machine
end

section
/-! PROOFS. The sequencer's commands: `HALT` and its repetition after `GO` (40_sequencer.md R141). -/

namespace Sys2Proof.Machine

theorem exec_halt (s : State) : exec .halt s = .next s.halted := rfl

/-- A `GO` alone, where it is accepted, only starts the run (10_state.md R32). -/
theorem control_go {s : State} (hr : s.run = false) (he : s.err = 0) : s.control 1 = s.go := by
  rw [control_of_not_srst (by decide)]
  simp [State.go, hr, he]

/-- What `GO` does to a halted state, the next `HALT` undoes. -/
@[simp] theorem halted_go_halted (s : State) : s.halted.go.halted = s.halted := rfl

theorem sameConfig_halted (s : State) : SameConfig s s.halted := by constructor <;> rfl

theorem sameBytes_halted (s : State) : SameBytes s s.halted := fun _ => rfl

theorem irq_halted {s : State} (h : s.ieDone = true) : s.halted.irq = true := by
  have kept : s.halted.ieDone = true := h
  simp [State.irq, kept]

theorem exec_halt_after_go {s : State} (he : s.err = 0) : exec .halt (hostWrite s.halted 0x00 0x01) = .next s.halted := by
  rw [hostWrite_ctrl, control_go s.halted_run he, exec_halt, halted_go_halted]

/-- Settles O21: `HALT` only ends the run and sets `DONE`, which is what `GO` undoes before the same `HALT` runs again. -/
theorem haltEndsList : Obligations.HaltEndsList := fun s =>
  ⟨s.halted, exec_halt s, rfl, rfl, s.halted_p, s.halted_acc, s.halted_first, s.halted_err, s.halted_errInfo, sameConfig_halted s,
    sameBytes_halted s, s.halted_trace, irq_halted, exec_halt_after_go⟩

end Sys2Proof.Machine
end

section
/-! PROOFS. Register transfer: the units of a 16-bit word and the bit stream of 9-over-8 (41_register_transfer.md R222, R228). -/

namespace Sys2Proof.Machine

/-! ## Splitting and joining -/

@[simp] theorem split16_true (v : Half) : split16 true v = [v.extractLsb' 8 8, v.extractLsb' 0 8] := rfl

@[simp] theorem split16_false (v : Half) : split16 false v = [v.extractLsb' 0 8, v.extractLsb' 8 8] := rfl

@[simp] theorem join16_true (b0 b1 : Byte) : join16 true b0 b1 = b0 ++ b1 := rfl

@[simp] theorem join16_false (b0 b1 : Byte) : join16 false b0 b1 = b1 ++ b0 := rfl

/-- The two halves of a 16-bit value, put together again. -/
theorem hi_append_lo (v : Half) : v.extractLsb' 8 8 ++ v.extractLsb' 0 8 = v :=
  (BitVec.extractLsb'_append_extractLsb'_eq_extractLsb' rfl).trans BitVec.extractLsb'_eq_self

theorem join16_of_split16 (be : Bool) (v : Half) : ∃ b0 b1, split16 be v = [b0, b1] ∧ join16 be b0 b1 = v := by
  cases be with
  | true => exact ⟨_, _, rfl, hi_append_lo v⟩
  | false => exact ⟨_, _, rfl, hi_append_lo v⟩

@[simp] theorem split16_join16 (be : Bool) (b0 b1 : Byte) : split16 be (join16 be b0 b1) = [b0, b1] := by
  cases be with
  | true => rw [join16_true, split16_true, BitVec.extractLsb'_append_eq_left, BitVec.extractLsb'_append_eq_right]
  | false => rw [join16_false, split16_false, BitVec.extractLsb'_append_eq_left, BitVec.extractLsb'_append_eq_right]

@[simp] theorem units_bytes (be : Bool) (ws : List Half) : units be false ws = ws.map (fun v => v.setWidth 8) := rfl

@[simp] theorem units_halves (be : Bool) (ws : List Half) : units be true ws = ws.flatMap (split16 be) := rfl

/-- Settles O40: in either byte order the two units are the two halves of the word, and appending them again gives it back. -/
theorem splitAndJoinInvert : Obligations.SplitAndJoinInvert :=
  ⟨fun v => ⟨split16_true v, split16_false v⟩, fun b0 b1 => ⟨join16_true b0 b1, join16_false b0 b1⟩, join16_of_split16,
    split16_join16, fun be ws => ⟨units_bytes be ws, units_halves be ws⟩⟩

/-! ## The bit stream of words -/

/-- The bits of a word in the order they go out, the most significant first (41_register_transfer.md R228). -/
def wireOrder {w : Nat} (x : BitVec w) : List Bool := (List.range w).map fun k => x.getLsbD (w - 1 - k)

@[simp] theorem length_wireOrder {w : Nat} (x : BitVec w) : (wireOrder x).length = w := by simp [wireOrder]

theorem length_flatMap_wireOrder {w : Nat} (xs : List (BitVec w)) : (xs.flatMap wireOrder).length = xs.length * w := by
  simp [List.length_flatMap]

/-- Appending two words appends their streams. -/
theorem wireOrder_append {m n : Nat} (x : BitVec m) (y : BitVec n) : wireOrder (x ++ y) = wireOrder x ++ wireOrder y := by
  have high : ∀ k < m, (x ++ y).getLsbD (m + n - 1 - k) = x.getLsbD (m - 1 - k) := fun k hk => by
    rw [BitVec.getLsbD_append, if_neg (by omega)]
    congr 1
    omega
  have low : ∀ k < n, (x ++ y).getLsbD (m + n - 1 - (m + k)) = y.getLsbD (n - 1 - k) := fun k hk => by
    rw [BitVec.getLsbD_append, if_pos (by omega)]
    congr 1
    omega
  simp only [wireOrder, List.range_add, List.map_append, List.map_map]
  congr 1
  · exact List.map_congr_left fun k hk => high k (List.mem_range.mp hk)
  · exact List.map_congr_left fun k hk => low k (List.mem_range.mp hk)

/-- Two parts of a word that meet have the stream of the part they make up. -/
theorem wireOrder_extractLsb'_append {w high low m n : Nat} (x : BitVec w) (h : high = low + m) :
    wireOrder (x.extractLsb' high n) ++ wireOrder (x.extractLsb' low m) = wireOrder (x.extractLsb' low (n + m)) := by
  rw [← wireOrder_append, BitVec.extractLsb'_append_extractLsb'_eq_extractLsb' h]

/-! ## 9-over-8 -/

/-- The stream of a group's eight words is the stream of the 72 bits they make up. -/
theorem wireOrder_group9 (g0 g1 g2 g3 g4 g5 g6 g7 : BitVec 9) :
    wireOrder (g0 ++ g1 ++ g2 ++ g3 ++ g4 ++ g5 ++ g6 ++ g7) = [g0, g1, g2, g3, g4, g5, g6, g7].flatMap wireOrder := by
  simp only [wireOrder_append, List.flatMap_cons, List.flatMap_nil, List.append_nil, List.append_assoc]

/-- The stream of a group's nine bytes is the stream of the 72 bits they are cut from. -/
theorem flatMap_wireOrder_packGroup9 (g0 g1 g2 g3 g4 g5 g6 g7 : BitVec 9) :
    (packGroup9 g0 g1 g2 g3 g4 g5 g6 g7).flatMap wireOrder = wireOrder (g0 ++ g1 ++ g2 ++ g3 ++ g4 ++ g5 ++ g6 ++ g7) := by
  simp only [packGroup9, List.flatMap_cons, List.flatMap_nil, List.append_nil, wireOrder_extractLsb'_append]
  rw [BitVec.extractLsb'_eq_self]

/-- The packed bytes carry the stream of the words, group by group. -/
theorem flatMap_wireOrder_pack9 (ws : List (BitVec 9)) (h : ws.length % 8 = 0) :
    (pack9 ws).flatMap wireOrder = ws.flatMap wireOrder := by
  induction ws using pack9.induct with
  | case1 g0 g1 g2 g3 g4 g5 g6 g7 rest ih =>
    have hrest : rest.length % 8 = 0 := by simpa [Nat.add_assoc] using h
    rw [pack9, List.flatMap_append, flatMap_wireOrder_packGroup9, wireOrder_group9, ih hrest, ← List.flatMap_append]
    rfl
  | case2 ws hshort =>
    match ws with
    | [] => rfl
    | [_] | [_, _] | [_, _, _] | [_, _, _, _] | [_, _, _, _, _] | [_, _, _, _, _, _] | [_, _, _, _, _, _, _] => cases h
    | _ :: _ :: _ :: _ :: _ :: _ :: _ :: _ :: _ => exact (hshort _ _ _ _ _ _ _ _ _ rfl).elim

/-- Settles O41: the streams agree group by group (`flatMap_wireOrder_pack9`), so they are equally long. -/
theorem packingIsNineBitStream : Obligations.PackingIsNineBitStream := by
  refine ⟨fun ws h => ⟨?_, flatMap_wireOrder_pack9 ws h⟩, rfl⟩
  rw [← length_flatMap_wireOrder, flatMap_wireOrder_pack9 ws h, length_flatMap_wireOrder]

end Sys2Proof.Machine
end

section
/-! PROOFS. Pixel conversion: the range of the luma (42_pixel_conversion.md R188). -/

namespace Sys2Proof.Machine

/-- The sum is greatest where each of the 5, 6 and 5 bit channels is full. -/
theorem lumaSum_le (x : Half) : lumaSum x ≤ 49784 := by
  have red : (x.extractLsb' 11 5).toNat < 32 := BitVec.isLt _
  have green : (x.extractLsb' 5 6).toNat < 64 := BitVec.isLt _
  have blue : (x.extractLsb' 0 5).toNat < 32 := BitVec.isLt _
  unfold lumaSum
  omega

/-- Rounding is monotone, so the greatest sum gives the greatest luma. -/
theorem luma_le (x : Half) : luma x ≤ 249 :=
  calc luma x = (lumaSum x + 100) / 200 := rfl
    _ ≤ (49784 + 100) / 200 := Nat.div_le_div_right (Nat.add_le_add_right (lumaSum_le x) 100)
    _ = 249 := rfl

/-- Settles O35: the bounds hold by the widths of the channels and are reached by white; `0x0184` has the tie `7500 = 37 * 200 + 100`. -/
theorem lumaRoundsHalfUp : Obligations.LumaRoundsHalfUp :=
  ⟨fun x => ⟨rfl, lumaSum_le x, luma_le x⟩, by decide, by decide, by decide, by decide⟩

end Sys2Proof.Machine
end

section
/-! PROOFS. The command pointer: `CP` moves on by exactly 8 (10_state.md R24, R25). -/

namespace Sys2Proof.Machine

/-- Clearing the low three bits is shifting them out. -/
theorem alignCP_eq_shift (v : Word) : alignCP v = v >>> 3 <<< 3 := by
  have mask : (0xFFFFFFF8 : Word) = BitVec.allOnes 32 <<< 3 := by decide
  rw [BitVec.shiftLeft_ushiftRight, ← mask, alignCP]

theorem alignCP_toNat (v : Word) : (alignCP v).toNat = v.toNat / 8 * 8 := by
  have bound := v.isLt
  rw [alignCP_eq_shift, BitVec.toNat_shiftLeft, BitVec.toNat_ushiftRight, Nat.shiftRight_eq_div_pow, Nat.shiftLeft_eq]
  omega

/-- The address of the next command is a multiple of 8 already, where it wraps around too. -/
theorem advanced_advance (s : State) : Advanced s s.advance := by
  have eight : (8 : Word).toNat = 8 := rfl
  apply BitVec.eq_of_toNat_eq
  simp only [State.cpValue, State.advance_cp, alignCP_toNat, BitVec.toNat_add, eight]
  omega

end Sys2Proof.Machine
end

section
/-! PROOFS. Damage: `EMPTY` under union and clamp, and the hand-over of `TAKE` (43_damage_merge.md R162, R163, R166). -/

namespace Sys2Proof.Machine

/-! ## The ends of the coordinate order -/

/-- `0xFFFF` is the largest coordinate (43_damage_merge.md R162). -/
theorem top_minHalf (a : Half) : minHalf 0xFFFF a = a := by
  apply BitVec.eq_of_toNat_eq
  rw [minHalf_toNat]
  exact Nat.min_eq_right (Nat.le_of_lt_succ a.isLt)

/-- `0` is the smallest coordinate (43_damage_merge.md R162). -/
theorem zero_le_half (a : Half) : 0 ≤ a := BitVec.le_def.2 (Nat.zero_le _)

theorem zero_minHalf (a : Half) : minHalf 0 a = 0 := if_pos (zero_le_half a)

theorem zero_maxHalf (a : Half) : maxHalf 0 a = a := if_pos (zero_le_half a)

theorem Rect.empty_union (r : Rect) : Rect.empty.union r = r := by
  simp only [Rect.union, Rect.empty, top_minHalf, zero_maxHalf]

/-! ## The clamp -/

theorem lastIndex_of_ne_zero {size : Half} (h : size ≠ 0) : lastIndex size = size - 1 := if_neg h

theorem minHalf_lastIndex_toNat (a size : Half) :
    (minHalf a (lastIndex size)).toNat = min a.toNat (if 0 < size.toNat then size.toNat - 1 else 0) := by
  rw [minHalf_toNat, lastIndex_toNat]

theorem Rect.empty_clamp {w h : Half} (hw : w ≠ 0) (hh : h ≠ 0) :
    Rect.empty.clamp w h = { x1 := w - 1, y1 := h - 1, x2 := 0, y2 := 0 } := by
  simp only [Rect.clamp, Rect.empty, top_minHalf, zero_minHalf, lastIndex_of_ne_zero hw, lastIndex_of_ne_zero hh]

/-! ## `TAKE` -/

theorem exec_take (s : State) : exec .take s = .next s.taken.advance := run_body_ok (run_modify State.taken s)

theorem sameConfig_taken_advance (s : State) : SameConfig s s.taken.advance := by constructor <;> rfl

theorem sameBytes_taken_advance (s : State) : SameBytes s s.taken.advance := fun _ => rfl

@[simp] theorem hostRead_acc1 (s : State) : hostRead s 0x28 = packPair s.acc.x1 s.acc.y1 := rfl

@[simp] theorem hostRead_acc2 (s : State) : hostRead s 0x2C = packPair s.acc.x2 s.acc.y2 := rfl

theorem hostRead_acc_of_empty {s : State} (h : s.acc = Rect.empty) : hostRead s 0x28 = 0xFFFFFFFF ∧ hostRead s 0x2C = 0 := by
  rw [hostRead_acc1, hostRead_acc2, h]
  decide

/-! ## The statements -/

/-- Settles O24: `toNat` turns each coordinate into a `min` or `max` of numbers, which carry the algebra; `EMPTY` holds the ends of
their order. -/
theorem unionIsBoundingBox : Obligations.UnionIsBoundingBox :=
  ⟨fun _ _ => ⟨minHalf_toNat _ _, minHalf_toNat _ _, maxHalf_toNat _ _, maxHalf_toNat _ _⟩,
    Rect.empty_union, Rect.union_comm, Rect.union_self, Rect.union_assoc⟩

/-- Settles O25: each coordinate is a minimum with a bound of the buffer, which is idempotent and distributes over `min` and `max`. -/
theorem clampKeepsInsideBuffer : Obligations.ClampKeepsInsideBuffer :=
  ⟨fun _ _ _ => ⟨minHalf_lastIndex_toNat _ _, minHalf_lastIndex_toNat _ _, minHalf_toNat _ _, minHalf_toNat _ _⟩,
    Rect.clamp_clamp, Rect.clamp_union, by decide, fun _ _ => Rect.empty_clamp⟩

/-- Settles O29: `TAKE` completes from every state with `State.taken`, and then only `CP` moves on. -/
theorem takeHandsOverDamage : Obligations.TakeHandsOverDamage := fun s =>
  have ⟨acc1, acc2⟩ := hostRead_acc_of_empty s.taken_acc
  ⟨s.taken.advance, exec_take s, s.taken_p, s.taken_acc, s.taken_first, acc1, acc2, advanced_advance s.taken,
    sameConfig_taken_advance s, s.taken_run, s.taken_done, s.taken_err, s.taken_errInfo, sameBytes_taken_advance s, s.taken_trace⟩

end Sys2Proof.Machine
end

section
/-! PROOFS. Exceptions: only a flush looks at `PIPE.PREPARED` (60_exceptions.md R282). -/

namespace Sys2Proof.Machine

/-- `PIPE.PREPARED` turned over, and nothing else. -/
def State.flipPrepared (s : State) : State := { s with pipe := s.pipe ^^^ 1 }

@[simp] theorem prepared_flipPrepared (s : State) : s.flipPrepared.prepared = !s.prepared := by
  simp [State.prepared, State.flipPrepared]

@[simp] theorem fullRow_flipPrepared (s : State) : s.flipPrepared.fullRow = s.fullRow := by
  simp [State.fullRow, State.flipPrepared]

@[simp] theorem forceFull_flipPrepared (s : State) : s.flipPrepared.forceFull = s.forceFull := by
  simp [State.forceFull, State.flipPrepared]

theorem alike_flipPrepared (s : State) : Alike s s.flipPrepared :=
  { Alike.refl s with fullRow := fullRow_flipPrepared s, forceFull := forceFull_flipPrepared s }

/-- Alike states are equal but for what `Alike` leaves out. -/
theorem Alike.right_eq {s t : State} (h : Alike s t) :
    t = { s with irqEn := t.irqEn, pipe := t.pipe, env := { s.env with cut := t.env.cut } } := by
  have env : t.env = { s.env with cut := t.env.cut } := by
    simp only [← h.turns, ← h.answers, ← h.asked, ← h.raceBits, ← h.draws, ← h.inFlight, ← h.hostSaw]
  simp only [← env, ← h.p, ← h.cp, ← h.run, ← h.done, ← h.drop, ← h.first, ← h.err, ← h.errInfo, ← h.busCfg, ← h.busCfg2,
    ← h.maxChunk, ← h.rstCfg, ← h.acc, ← h.dp, ← h.trace, ← h.mem, ← h.plat]

/-- A body that runs from both sides of a turned `PREPARED` ends on both sides of one. -/
theorem Follows.eq_flipPrepared {s u v : State} (h : Follows s s.flipPrepared u v) : v = u.flipPrepared := by
  obtain ⟨irqEn_left, irqEn_right⟩ := h.irqEn
  obtain ⟨pipe_left, pipe_right⟩ := h.pipe
  obtain ⟨cut_left, cut_right⟩ := h.cut
  rw [h.alike.right_eq, irqEn_right, pipe_right, cut_right]
  simp only [State.flipPrepared, pipe_left, ← irqEn_left, ← cut_left]

/-- Where no reset is on its way, a body built from the operations does the same with `PREPARED` turned over, and leaves it so. -/
theorem Good.runBody_flipPrepared {body : Cmd Unit} (g : Good body) {s t : State} (hc : s.env.cut = none)
    (h : runBody body s = .next t) : runBody body s.flipPrepared = .next t.flipPrepared := by
  obtain ⟨u, v, hf, ⟨_, hs, hs'⟩ | ⟨e, he, hs, hs'⟩⟩ := g.blind s s.flipPrepared (alike_flipPrepared s) hc hc
  all_goals obtain rfl := hf.eq_flipPrepared
  · rw [run_body_ok hs] at h
    cases h
    exact run_body_ok hs'
  · cases e with
    | raised c info =>
      rw [run_body_raised hs] at h
      cases h
      exact run_body_raised hs'
    | cut => exact absurd rfl he
    | silent => simp [runBody, hs, finish, hf.cut.1, hc] at h

theorem exec_flipPrepared {i : Instr} {s t : State} (hc : s.env.cut = none) (hi : ∀ w, i ≠ .wrreg w true) (h : exec i s = .next t) :
    exec i s.flipPrepared = .next t.flipPrepared := by
  by_cases hh : i = .halt
  · subst hh
    rw [exec_halt] at h
    cases h
    rfl
  · obtain ⟨body, g, hrun, -⟩ := good_exec i hh hi
    rw [hrun] at h ⊢
    exact g.runBody_flipPrepared hc h

/-- The check of `PREPARED` is the first of a flush. -/
theorem exec_flush_of_not_prepared {s : State} (h : s.prepared = false) (w16 : Bool) :
    exec (.wrreg w16 true) s = .next (s.raiseFault .state 0) :=
  run_body_raised (by rw [wrreg_flush, h]; rfl)

/-- Settles O45: a flush fails at its first check, and every other command is a body that runs alike from states that differ in
`PREPARED` (`Good.blind`). -/
theorem flushNeedsPrepared : Obligations.FlushNeedsPrepared :=
  ⟨fun w16 _ h => exec_flush_of_not_prepared h w16, fun _ _ _ hc hi h => exec_flipPrepared hc hi h⟩

end Sys2Proof.Machine
end

section
/-! PROOFS. The encoding: the decoder and the encoder invert each other, and which command values are illegal (30_encoding.md R111,
R113 to R117). -/

namespace Sys2Proof.Machine

/-! ### The fields of a command value -/

/-- Two neighbouring fields are one field. -/
theorem extractLsb'_append_adjacent {w high low m n : Nat} (x : BitVec w) (h : high = low + m) :
    x.extractLsb' high n ++ x.extractLsb' low m = x.extractLsb' low (n + m) :=
  BitVec.extractLsb'_append_extractLsb'_eq_extractLsb' h

/-- A command value is its high and its low word, `C = W1 ‖ W0` (30_encoding.md R110). -/
theorem command_eq_words (c : Command) : c = c.extractLsb' 32 32 ++ c.extractLsb' 0 32 := by
  rw [extractLsb'_append_adjacent c (show 32 = 0 + 32 from rfl)]
  exact BitVec.extractLsb'_eq_self.symm

/-- The low word is the reserved bits, the selector `W0[11:8]` and the opcode (30_encoding.md R111). -/
theorem low_word_eq_fields (c : Command) :
    c.extractLsb' 0 32 = c.extractLsb' 12 20 ++ c.extractLsb' 8 4 ++ c.extractLsb' 0 8 := by
  rw [extractLsb'_append_adjacent c (show 12 = 8 + 4 from rfl), extractLsb'_append_adjacent c (show 8 = 0 + 8 from rfl)]

/-- A command value without reserved bits, from its opcode, selector and high word. -/
theorem command_eq_fields {c : Command} {n : Nat} (hres : c.extractLsb' 12 20 = 0) (hop : (c.extractLsb' 0 8).toNat = n) :
    c = c.extractLsb' 32 32 ++ ((0 : BitVec 20) ++ c.extractLsb' 8 4 ++ BitVec.ofNat 8 n) := by
  have op : c.extractLsb' 0 8 = BitVec.ofNat 8 n := by rw [← hop, BitVec.ofNat_toNat, BitVec.setWidth_eq]
  conv_lhs => rw [command_eq_words c, low_word_eq_fields c, hres, op]

theorem low_field_append {w1 w0 : Word} {start len : Nat} (h : start + len ≤ 32) :
    (w1 ++ w0 : Command).extractLsb' start len = w0.extractLsb' start len := BitVec.extractLsb'_append_eq_of_add_le h

theorem high_word_append (w1 w0 : Word) : (w1 ++ w0 : Command).extractLsb' 32 32 = w1 := BitVec.extractLsb'_append_eq_left

theorem low_word_append (w1 w0 : Word) : (w1 ++ w0 : Command).extractLsb' 0 32 = w0 := BitVec.extractLsb'_append_eq_right

/-! ### Decoding an encoding -/

theorem ofNum_num (rd : PReg) : PReg.ofNum rd.num = some rd := by cases rd <;> rfl

theorem num_le (rd : PReg) : rd.num.toNat ≤ 11 := by cases rd <;> decide

theorem num_injective {r rd : PReg} (h : r.num = rd.num) : r = rd :=
  Option.some.inj ((ofNum_num r).symm.trans (h ▸ ofNum_num rd))

theorem num_of_ofNum {n : BitVec 4} {rd : PReg} (h : PReg.ofNum n = some rd) : rd.num = n := by
  have all : ∀ n : BitVec 4, ∀ rd ∈ PReg.ofNum n, rd.num = n := by decide
  exact all n rd h

theorem ofNum_isSome {n : BitVec 4} (h : n.toNat ≤ 11) : ∃ rd, PReg.ofNum n = some rd := by
  have all : ∀ n : BitVec 4, n.toNat ≤ 11 → (PReg.ofNum n).isSome = true := by decide
  exact Option.isSome_iff_exists.1 (all n h)

/-- A command value decodes by its opcode where no reserved bit is set. -/
theorem decode_of_opcode_set {c : Command} (hres : c.extractLsb' 12 20 = 0) (hop : c.extractLsb' 0 8 = 0x02) :
    decode c = decodeS (c.extractLsb' 8 4) (c.extractLsb' 32 32) := by
  simp only [decode, hres, hop, ne_eq, not_true, if_false]
  rfl

theorem decode_of_opcode_delay {c : Command} (hres : c.extractLsb' 12 20 = 0) (hop : c.extractLsb' 0 8 = 0x03) :
    decode c = decodeI .delay (c.extractLsb' 8 4) (c.extractLsb' 32 32) := by
  simp only [decode, hres, hop, ne_eq, not_true, if_false]
  rfl

theorem low_field_encode_set (rd : PReg) (imm : Word) {start len : Nat} (h : start + len ≤ 32) :
    (encode (.set rd imm)).extractLsb' start len = ((0 : BitVec 20) ++ rd.num ++ (0x02 : Byte)).extractLsb' start len :=
  low_field_append h

theorem selector_encode_set (rd : PReg) (imm : Word) : (encode (.set rd imm)).extractLsb' 8 4 = rd.num := by
  rw [low_field_encode_set rd imm (by decide)]; cases rd <;> decide

theorem high_word_encode_set (rd : PReg) (imm : Word) : (encode (.set rd imm)).extractLsb' 32 32 = imm := high_word_append _ _

theorem decode_set {rd : PReg} {imm : Word} (h : rd.fits imm = true) : decode (encode (.set rd imm)) = .ok (.set rd imm) := by
  rw [decode_of_opcode_set (by rw [low_field_encode_set rd imm (by decide)]; cases rd <;> decide)
    (by rw [low_field_encode_set rd imm (by decide)]; cases rd <;> decide), selector_encode_set, high_word_encode_set]
  simp only [decodeS, ofNum_num, h, if_true]

theorem decode_delay (ms : Word) : decode (encode (.delay ms)) = .ok (.delay ms) := by
  have low : ∀ {start len : Nat}, start + len ≤ 32 →
      (encode (.delay ms)).extractLsb' start len = (0x03 : Word).extractLsb' start len := low_field_append
  have sel : (encode (.delay ms)).extractLsb' 8 4 = 0 := low (by decide)
  have high : (encode (.delay ms)).extractLsb' 32 32 = ms := high_word_append _ _
  rw [decode_of_opcode_delay (low (by decide)) (low (by decide)), sel, high, decodeI, if_pos rfl]

theorem decode_encode {i : Instr} (h : i.wf = true) : decode (encode i) = .ok i := by
  cases i with
  | set rd imm => exact decode_set h
  | delay ms => exact decode_delay ms
  | merge f | r2gray f | rdreg f => cases f <;> decide
  | wrreg w16 fl => cases w16 <;> cases fl <;> decide
  | halt | take | cp565 | sw565 | x2r565 | dither | pack1 | breset => decide

/-! ### Encoding a decoded command -/

theorem decodeN_ok {i j : Instr} {sel : BitVec 4} {w1 : Word} (h : decodeN i sel w1 = .ok j) : sel = 0 ∧ w1 = 0 ∧ j = i := by
  unfold decodeN at h
  split at h
  · injection h with h; exact ⟨‹_ ∧ _›.1, ‹_ ∧ _›.2, h.symm⟩
  · cases h

theorem decodeI_ok {mk : Word → Instr} {j : Instr} {sel : BitVec 4} {w1 : Word} (h : decodeI mk sel w1 = .ok j) :
    sel = 0 ∧ j = mk w1 := by
  unfold decodeI at h
  split at h
  · injection h with h; exact ⟨‹_›, h.symm⟩
  · cases h

theorem decodeF1_ok {mk : Bool → Instr} {j : Instr} {sel : BitVec 4} {w1 : Word} (h : decodeF1 mk sel w1 = .ok j) :
    ∃ f, sel = (0 : BitVec 3) ++ BitVec.ofBool f ∧ w1 = 0 ∧ j = mk f := by
  have one_flag : ∀ sel : BitVec 4, sel.extractLsb' 1 3 = 0 → sel = (0 : BitVec 3) ++ BitVec.ofBool (sel.getLsbD 0) := by decide
  unfold decodeF1 at h
  split at h
  · rename_i hs
    injection h with h; exact ⟨_, one_flag sel hs.1, hs.2, h.symm⟩
  · cases h

theorem decodeF2_ok {mk : Bool → Bool → Instr} {j : Instr} {sel : BitVec 4} {w1 : Word} (h : decodeF2 mk sel w1 = .ok j) :
    ∃ f g, sel = (0 : BitVec 2) ++ BitVec.ofBool g ++ BitVec.ofBool f ∧ w1 = 0 ∧ j = mk f g := by
  have two_flags : ∀ sel : BitVec 4, sel.extractLsb' 2 2 = 0 →
      sel = (0 : BitVec 2) ++ BitVec.ofBool (sel.getLsbD 1) ++ BitVec.ofBool (sel.getLsbD 0) := by decide
  unfold decodeF2 at h
  split at h
  · rename_i hs
    injection h with h; exact ⟨_, _, two_flags sel hs.1, hs.2, h.symm⟩
  · cases h

theorem decodeS_ok {j : Instr} {sel : BitVec 4} {w1 : Word} (h : decodeS sel w1 = .ok j) :
    ∃ rd : PReg, sel = rd.num ∧ rd.fits w1 = true ∧ j = .set rd w1 := by
  unfold decodeS at h
  cases hn : PReg.ofNum sel with
  | none => rw [hn] at h; cases h
  | some rd =>
    rw [hn] at h
    simp only at h
    split at h
    · injection h with h; exact ⟨rd, (num_of_ofNum hn).symm, ‹_›, h.symm⟩
    · cases h

theorem encode_of_decode {c : Command} {i : Instr} (h : decode c = .ok i) : i.wf = true ∧ encode i = c := by
  unfold decode at h
  split at h
  · cases h
  rename_i hres
  have fields := fun n hop => command_eq_fields (c := c) (n := n) (not_not.1 hres) hop
  generalize c.extractLsb' 8 4 = sel at h fields
  generalize c.extractLsb' 32 32 = w1 at h fields
  split at h
  case h_2 hop => obtain ⟨rd, rfl, fits, rfl⟩ := decodeS_ok h; exact ⟨fits, (fields _ hop).symm⟩
  case h_3 hop => obtain ⟨rfl, rfl⟩ := decodeI_ok h; exact ⟨rfl, (fields _ hop).symm⟩
  case h_4 hop => obtain ⟨f, rfl, rfl, rfl⟩ := decodeF1_ok h; exact ⟨rfl, by rw [fields _ hop]; cases f <;> rfl⟩
  case h_9 hop => obtain ⟨f, rfl, rfl, rfl⟩ := decodeF1_ok h; exact ⟨rfl, by rw [fields _ hop]; cases f <;> rfl⟩
  case h_13 hop => obtain ⟨f, rfl, rfl, rfl⟩ := decodeF1_ok h; exact ⟨rfl, by rw [fields _ hop]; cases f <;> rfl⟩
  case h_12 hop =>
    obtain ⟨f, g, rfl, rfl, rfl⟩ := decodeF2_ok h
    exact ⟨rfl, by rw [fields _ hop]; cases f <;> cases g <;> rfl⟩
  case h_15 => cases h
  all_goals
    rename_i hop
    obtain ⟨rfl, rfl, rfl⟩ := decodeN_ok h
    exact ⟨rfl, (fields _ hop).symm⟩

/-! ### The bytes of a command -/

/-- The bytes of a word join to the word in either byte order (20_memory.md R72). -/
theorem join4_of_bytes4 (be : Bool) (v : Word) : ∃ b0 b1 b2 b3, bytes4 be v = [b0, b1, b2, b3] ∧ join4 be b0 b1 b2 b3 = v := by
  have whole : v.extractLsb' 24 8 ++ v.extractLsb' 16 8 ++ v.extractLsb' 8 8 ++ v.extractLsb' 0 8 = v := by
    rw [extractLsb'_append_adjacent v (show 24 = 16 + 8 from rfl), extractLsb'_append_adjacent v (show 16 = 8 + 8 from rfl),
      extractLsb'_append_adjacent v (show 8 = 0 + 8 from rfl)]
    exact BitVec.extractLsb'_eq_self
  cases be <;> exact ⟨_, _, _, _, rfl, whole⟩

theorem decodeBytes_commandBytes {c : Command} {i : Instr} (h : decode c = .ok i) (be : Bool) (rest : List Byte) :
    decodeBytes be (commandBytes be c ++ rest) = .ok (i, rest) := by
  obtain ⟨b0, b1, b2, b3, low, hlow⟩ := join4_of_bytes4 be (c.extractLsb' 0 32)
  obtain ⟨b4, b5, b6, b7, high, hhigh⟩ := join4_of_bytes4 be (c.extractLsb' 32 32)
  rw [commandBytes, low, high]
  exact decodeBytes_of_words _ _ hlow hhigh (by rw [← command_eq_words c]; exact h)

/-- Settles O1: the value decodes field by field (`decode_encode`), and its bytes join to its two words. -/
theorem decodingUndoesEncoding : Obligations.DecodingUndoesEncoding := fun _ hwf =>
  ⟨decode_encode hwf, decodeBytes_commandBytes (decode_encode hwf)⟩

/-- Settles O2: a value that decodes has no reserved bits, and its opcode, selector and high word are those of its command. -/
theorem encodingUndoesDecoding : Obligations.EncodingUndoesDecoding := fun _ _ h => encode_of_decode h

end Sys2Proof.Machine
end

section
/-! PROOFS. The encoding: which command values are illegal, and the fault that fetching one raises (30_encoding.md R113, R115). -/

namespace Sys2Proof.Machine

/-! ### A value and its row of the opcode map -/

theorem rowMatch_mem_tableRows (i : Instr) : (i.rowMatch, i.rowMask) ∈ tableRows := by
  cases i <;> simp [tableRows, Instr.rowMatch, Instr.rowMask]

/-- Every command's encoding lies in its row of the opcode map. -/
theorem encode_matches_row {i : Instr} (h : i.wf = true) : encode i &&& i.rowMask = i.rowMatch := by
  cases i with
  | set rd imm => exact Laws.MatchesRow.set rd imm h
  | delay ms => exact Laws.MatchesRow.delay ms h
  | merge f | r2gray f | rdreg f => cases f <;> decide
  | wrreg w16 fl => cases w16 <;> cases fl <;> decide
  | halt | take | cp565 | sw565 | x2r565 | dither | pack1 | breset => decide

/-- The row of `SET` holds the encodings of `SET` only. -/
theorem eq_set_of_set_row {i : Instr} (h : encode i &&& 0x00000000FFFFF0FF = 0x02) : ∃ rd imm, i = .set rd imm := by
  cases i with
  | set rd imm => exact ⟨rd, imm, rfl⟩
  | delay ms =>
    have low := (Laws.MatchesRow.low_mask ms 0x03 0xFFFFF0FF).symm.trans h
    exact absurd low (by decide)
  | merge f | r2gray f | rdreg f => cases f <;> exact absurd h (by decide)
  | wrreg w16 fl => cases w16 <;> cases fl <;> exact absurd h (by decide)
  | halt | take | cp565 | sw565 | x2r565 | dither | pack1 | breset => exact absurd h (by decide)

/-- A value known but for one bit has that bit clear or set. -/
theorem eq_or_eq_of_and_not_bit {w : Nat} {c v : BitVec w} (k : Nat) (h : c &&& ~~~BitVec.twoPow w k = v) :
    c = v ∨ c = v ||| BitVec.twoPow w k := by
  have parts : c = (c &&& ~~~BitVec.twoPow w k) ||| (c &&& BitVec.twoPow w k) := by
    rw [← BitVec.and_or_distrib_left]
    simp
  rw [h, BitVec.and_twoPow] at parts
  split at parts
  · exact Or.inr parts
  · exact Or.inl (parts.trans BitVec.or_zero)

/-- What a mask fixes of a value it fixes of each field. -/
theorem masked_field {w : Nat} {c m v : BitVec w} (h : c &&& m = v) (start len : Nat) :
    c.extractLsb' start len &&& m.extractLsb' start len = v.extractLsb' start len := by rw [← BitVec.extractLsb'_and, h]

/-- A field that the mask holds as a whole has its value. -/
theorem field_of_masked {w : Nat} {c m v : BitVec w} (h : c &&& m = v) {start len : Nat}
    (hm : m.extractLsb' start len = BitVec.allOnes len) : c.extractLsb' start len = v.extractLsb' start len := by
  rw [← masked_field h, hm, BitVec.and_allOnes]

theorem decodes_of_delay_row {c : Command} (h : c &&& 0x00000000FFFFFFFF = 0x03) : ∃ i, decode c = .ok i := by
  have low : c.extractLsb' 0 32 = 0x03 := field_of_masked h (by decide)
  refine ⟨.delay (c.extractLsb' 32 32), Eq.trans (congrArg decode ?_) (decode_delay _)⟩
  conv_lhs => rw [command_eq_words c, low]
  rfl

/-- The fields that the mask of `SET` fixes. -/
theorem low_word_of_set_row {c : Command} (h : c &&& 0x00000000FFFFF0FF = 0x02) :
    c.extractLsb' 0 32 = (0 : BitVec 20) ++ c.extractLsb' 8 4 ++ (0x02 : Byte) := by
  have reserved : c.extractLsb' 12 20 = 0 := field_of_masked h (by decide)
  have opcode : c.extractLsb' 0 8 = 0x02 := field_of_masked h (by decide)
  rw [low_word_eq_fields c, reserved, opcode]

theorem decode_of_set_row {c : Command} {rd : PReg} (h : c &&& 0x00000000FFFFF0FF = 0x02) (hn : rd.num = c.extractLsb' 8 4)
    (hf : rd.fits (c.extractLsb' 32 32) = true) : decode c = .ok (.set rd (c.extractLsb' 32 32)) := by
  refine Eq.trans (congrArg decode ?_) (decode_set hf)
  conv_lhs => rw [command_eq_words c, low_word_of_set_row h, ← hn]
  rfl

/-- Every value of a row decodes, but in the row of `SET` only where the register exists and the immediate fits. -/
theorem decodes_of_row {c : Command} {r : Command × Command} (hr : r ∈ tableRows) (h : c &&& r.2 = r.1)
    (hset : c &&& 0x00000000FFFFF0FF = 0x02 → ∃ i, decode c = .ok i) : ∃ i, decode c = .ok i := by
  have plain : ∀ {v : Command} {i : Instr}, c &&& 0xFFFFFFFFFFFFFFFF = v → decode v = .ok i → ∃ i, decode c = .ok i :=
    fun hv hd => ⟨_, (hv.symm.trans BitVec.and_allOnes) ▸ hd⟩
  have flag : ∀ {v : Command} {i j : Instr}, c &&& 0xFFFFFFFFFFFFFEFF = v → decode v = .ok i → decode (v ||| 0x100) = .ok j →
      ∃ i, decode c = .ok i := fun hv hi hj =>
    (eq_or_eq_of_and_not_bit 8 hv).elim (fun e => ⟨_, e ▸ hi⟩) fun e => ⟨_, e ▸ hj⟩
  simp only [tableRows, List.mem_cons, List.not_mem_nil, or_false] at hr
  rcases hr with rfl | rfl | rfl | rfl | rfl | rfl | rfl | rfl | rfl | rfl | rfl | rfl | rfl | rfl
  · exact plain (i := .halt) h (by decide)
  · exact hset h
  · exact decodes_of_delay_row h
  · exact flag (i := .merge false) (j := .merge true) h (by decide) (by decide)
  · exact plain (i := .take) h (by decide)
  · exact plain (i := .cp565) h (by decide)
  · exact plain (i := .sw565) h (by decide)
  · exact plain (i := .x2r565) h (by decide)
  · exact flag (i := .r2gray false) (j := .r2gray true) h (by decide) (by decide)
  · exact plain (i := .dither) h (by decide)
  · exact plain (i := .pack1) h (by decide)
  · have masks : (0xFFFFFFFFFFFFFCFF : Command) = 0xFFFFFFFFFFFFFDFF &&& 0xFFFFFFFFFFFFFEFF := by decide
    rw [masks, ← BitVec.and_assoc] at h
    rcases eq_or_eq_of_and_not_bit 8 h with h | h
    · rcases eq_or_eq_of_and_not_bit 9 h with rfl | rfl
      · exact ⟨.wrreg false false, by decide⟩
      · exact ⟨.wrreg false true, by decide⟩
    · rcases eq_or_eq_of_and_not_bit 9 h with rfl | rfl
      · exact ⟨.wrreg true false, by decide⟩
      · exact ⟨.wrreg true true, by decide⟩
  · exact flag (i := .rdreg false) (j := .rdreg true) h (by decide) (by decide)
  · exact plain (i := .breset) h (by decide)

/-! ### The illegal values -/

theorem isError_iff {ε α : Type} (x : Except ε α) : (∃ e, x = .error e) ↔ ¬ ∃ v, x = .ok v := by
  cases x <;> simp

/-- The reasons of 30_encoding.md R115: no row matches, or the row of `SET` does with a register that does not exist or an immediate
that does not fit. -/
theorem decode_error_iff (c : Command) : (∃ e, decode c = .error e) ↔
    (∀ r ∈ tableRows, c &&& r.2 ≠ r.1) ∨
    (c &&& 0x00000000FFFFF0FF = 0x02 ∧ 11 < (c.extractLsb' 8 4).toNat) ∨
    (c &&& 0x00000000FFFFF0FF = 0x02 ∧
      ∃ rd : PReg, rd.num = c.extractLsb' 8 4 ∧ 2 ^ rd.width ≤ (c.extractLsb' 32 32).toNat) := by
  rw [isError_iff]
  constructor
  · intro hno
    by_contra legal
    push Not at legal
    obtain ⟨⟨r, hr, hrow⟩, hnum, hfits⟩ := legal
    refine hno (decodes_of_row hr hrow fun hset => ?_)
    obtain ⟨rd, hrd⟩ := ofNum_isSome (hnum hset)
    exact ⟨_, decode_of_set_row hset (num_of_ofNum hrd) (fits_iff.2 (hfits hset rd (num_of_ofNum hrd)))⟩
  · rintro illegal ⟨i, hi⟩
    obtain ⟨hwf, rfl⟩ := encode_of_decode hi
    rcases illegal with hrow | ⟨hrow, hnum⟩ | ⟨hrow, r, hr, hwide⟩
    · exact hrow _ (rowMatch_mem_tableRows i) (encode_matches_row hwf)
    · obtain ⟨rd, imm, rfl⟩ := eq_set_of_set_row hrow
      rw [selector_encode_set] at hnum
      exact absurd (num_le rd) (by omega)
    · obtain ⟨rd, imm, rfl⟩ := eq_set_of_set_row hrow
      rw [selector_encode_set] at hr
      obtain rfl := num_injective hr
      rw [high_word_encode_set] at hwide
      exact absurd (fits_iff.1 hwf) (by omega)

/-! ### Fetching a command -/

/-- An undisturbed sequencer's turn runs the words at `CP`. -/
theorem step_of_fetching {s t : State} (h : Fetching s)
    (hrun : runFetched (s.word s.cpValue.toNat) (s.word (s.cpValue.toNat + 4)) s = .next t) : step s = .next t := by
  refine step_of_seqStep h.turns h.quiet ?_
  unfold seqStep
  rw [h.run, if_pos rfl, run_fetch h.quiet h.access]
  exact hrun

theorem step_illegal {s : State} {e : Illegal} (h : Fetching s)
    (hd : decode (s.word (s.cpValue.toNat + 4) ++ s.word s.cpValue.toNat : Command) = .error e) :
    step s = .next (s.raiseFault .illegal (s.word s.cpValue.toNat)) :=
  step_of_fetching h (by simp only [runFetched, hd])

/-- Settles O3: a value decodes exactly where it lies in a row of the map, and in that of `SET` only with a register and an immediate
that fits (`decode_error_iff`); the sequencer answers one that does not with the fault alone. -/
theorem illegalCommandsFault : Obligations.IllegalCommandsFault :=
  ⟨decode_error_iff, fun _ hf ⟨_, hd⟩ => step_illegal hf hd, ⟨.unknownOpcode, by decide⟩, ⟨.reservedBits, by decide⟩⟩

end Sys2Proof.Machine
end

section
/-! PROOFS. The step of every agent: what it keeps, how a run starts and ends, and that only a silent transport stops it (10_state.md
section 5, 60_exceptions.md section 2, 70_reset_and_hazards.md section 4). -/

namespace Sys2Proof.Machine

/-! ### Every step, with the sequencer's two kinds of turn as one -/

/-- The outside world in which the sequencer's turn runs: as it stands, or with the disturbances the schedule gives the turn. -/
def SeqEnv (s : State) (e : Env) : Prop :=
  (s.env.turns = [] ∧ e = s.env) ∨
  ∃ ws k ts, s.env.turns = .sequencer ws k :: ts ∧ e = { s.env with turns := ts, inFlight := ws, cut := k }

/-- Every way a step gives a next state, agent by agent. -/
inductive Stepped (s : State) : State → Prop
  | sequencer {e : Env} {u : State} (he : SeqEnv s e) (h : SeqRuns (s.withEnv e) u) : Stepped s u.settle
  | regWrite {off : Nat} {v : Word} {ts : List Turn} (ht : s.env.turns = .regWrite off 4 v :: ts) :
      Stepped s (hostWrite (s.withTurns ts) off v)
  | host {e : Env} {m : Memory} (he : e.inFlight = s.env.inFlight ∧ e.cut = s.env.cut)
      (hm : m = s.mem ∨ ∃ cells, m = memStoreAll s.mem cells) : Stepped s ((s.withEnv e).withMem m)
  | reset {ts : List Turn} (ht : s.env.turns = .reset :: ts) : Stepped s (s.withTurns ts).resetInput

theorem size_of_accessShaped {off size : Nat} (h : accessShaped off size = true) : size = 4 := by
  simp only [accessShaped, Bool.and_eq_true, decide_eq_true_eq] at h
  exact h.1.1

theorem stepped_of_step {s t : State} (h : step s = .next t) : Stepped s t := by
  rcases step_cases h with ⟨ht, u, hr, -, rfl⟩ | ⟨ws, k, ts, u, ht, hr, -, rfl⟩ | ⟨off, size, v, ts, ht, ha, rfl⟩ |
    ⟨off, size, ts, ht, -, rfl⟩ | ⟨cells, ts, ht, rfl⟩ | ⟨ts, ht, rfl⟩
  · exact .sequencer (Or.inl ⟨ht, rfl⟩) hr
  · exact .sequencer (Or.inr ⟨ws, k, ts, ht, rfl⟩) hr
  · obtain rfl := size_of_accessShaped ha
    exact .regWrite ht
  · exact .host (e := { s.env with turns := ts, hostSaw := s.env.hostSaw ++ [(off, hostRead (s.withTurns ts) off)] }) (m := s.mem)
      ⟨rfl, rfl⟩ (Or.inl rfl)
  · exact .host (e := { s.env with turns := ts }) ⟨rfl, rfl⟩ (Or.inr ⟨cells, rfl⟩)
  · exact .reset ht

/-! ### The end of the sequencer's turn -/

theorem settle_of_cut {s : State} (h : s.env.cut ≠ none) : s.settle = s.land.resetInput :=
  if_pos (Option.isSome_iff_ne_none.2 h)

theorem settle_of_uncut {s : State} (h : s.env.cut = none) : s.settle = s.land := by simp [State.settle, h]

/-- Whatever the turn carried, nothing is in flight after it. -/
theorem settle_quiet (s : State) : s.settle.undisturbed = true := by
  by_cases h : s.env.cut = none
  · rw [settle_of_uncut h]; simp [State.undisturbed, h]
  · rw [settle_of_cut h]; simp [State.undisturbed]

theorem settle_grows (s : State) : s.trace <+: s.settle.trace ∧ s.settle.plat = s.plat := by
  by_cases h : s.env.cut = none
  · rw [settle_of_uncut h]; exact ⟨List.prefix_refl _, rfl⟩
  · rw [settle_of_cut h]; exact ⟨List.prefix_append _ _, rfl⟩

/-! ### The trace and the platform -/

theorem Writes.keeps {i : Instr} {f : State → State} (h : Writes i f) (u : State) :
    (f u).trace = u.trace ∧ (f u).plat = u.plat := by cases h <;> exact ⟨rfl, rfl⟩

theorem Runs.grows {i : Instr} {s t : State} (h : Runs i s t) : s.trace <+: t.trace ∧ t.plat = s.plat := by
  cases h with
  | halted => exact ⟨List.prefix_refl _, rfl⟩
  | completed h hf =>
    obtain ⟨htrace, hplat⟩ := hf.keeps _
    exact ⟨by rw [State.advance_trace, htrace]; exact h.trace, by rw [State.advance_plat, hplat]; exact h.plat⟩
  | refused => exact ⟨List.prefix_refl _, rfl⟩
  | failed _ h => exact ⟨h.trace, h.plat⟩
  | cut _ h => exact ⟨h.trace.trans (List.prefix_append _ _), h.plat⟩

theorem SeqRuns.grows {s t : State} (h : SeqRuns s t) : s.trace <+: t.trace ∧ t.plat = s.plat := by
  cases h with
  | idle => exact ⟨List.prefix_refl _, rfl⟩
  | noFetch => exact ⟨List.prefix_refl _, rfl⟩
  | illegal _ hr => exact ⟨hr.trace, hr.plat⟩
  | runs _ hr _ _ _ ht => exact ⟨hr.trace.trans ht.grows.1, ht.grows.2.trans hr.plat⟩

theorem control_grows (s : State) (v : Word) : s.trace <+: (s.control v).trace ∧ (s.control v).plat = s.plat := by
  cases h : v.getLsbD 1 with
  | true => rw [control_of_srst h]; exact ⟨List.prefix_append _ _, rfl⟩
  | false => rw [control_of_not_srst h]; exact ⟨List.prefix_refl _, rfl⟩

theorem hostWrite_grows (s : State) (off : Nat) (v : Word) :
    s.trace <+: (hostWrite s off v).trace ∧ (hostWrite s off v).plat = s.plat := by
  by_cases h : off = 0
  · subst h; exact control_grows s v
  · have keeps := hostKeeps_hostWrite s off v h
    exact ⟨by rw [keeps.trace], keeps.plat⟩

/-- Settles O12: every agent's turn only appends events, and none writes the platform (`Stepped`, case by case). -/
theorem traceGrowsPlatformStays : Obligations.TraceGrowsPlatformStays := fun s t h => by
  cases stepped_of_step h with
  | @sequencer e u he hr =>
    obtain ⟨htrace, hplat⟩ := settle_grows u
    exact ⟨hr.grows.1.trans htrace, hplat.trans hr.grows.2⟩
  | @regWrite off v ts => exact hostWrite_grows (s.withTurns ts) off v
  | host => exact ⟨List.prefix_refl _, rfl⟩
  | reset => exact ⟨List.prefix_append _ _, rfl⟩

/-! ### How a run starts -/

/-- Where no run is on, a `CTRL` write that starts one has an accepted `GO`. -/
theorem control_starts {s : State} {v : Word} (hs : s.run = false) (ht : (s.control v).run = true) :
    v.getLsbD 0 = true ∧ v.getLsbD 1 = false ∧ (s.err = 0 ∨ v.getLsbD 2 = true) ∧ (s.control v).err = 0 ∧
      (s.control v).done = false ∧ (s.control v).cpValue = s.cpValue := by
  cases h1 : v.getLsbD 1 with
  | true => rw [control_of_srst h1] at ht; cases ht
  | false =>
    rw [control_of_not_srst h1] at ht ⊢
    simp only [hs, Bool.not_false, Bool.and_true, Bool.false_or, Bool.and_eq_true, beq_iff_eq] at ht ⊢
    obtain ⟨hgo, herr⟩ := ht
    refine ⟨hgo, trivial, ?_, herr, by rw [hgo, herr]; simp, rfl⟩
    cases h2 : v.getLsbD 2 with
    | true => exact Or.inr rfl
    | false => rw [h2] at herr; exact Or.inl herr

/-- Settles O7: of all agents' turns only a register write changes `RUN` to 1, and only one to `CTRL` (`control_starts`). -/
theorem onlyGoStartsRun : Obligations.OnlyGoStartsRun := fun s t h hs ht => by
  cases stepped_of_step h with
  | @sequencer e u he hr =>
    cases hr with
    | idle =>
      by_cases hc : (s.withEnv e).env.cut = none
      · rw [settle_of_uncut hc] at ht; exact absurd (hs.symm.trans ht) (by decide)
      · rw [settle_of_cut hc] at ht; cases ht
    | noFetch hrun | illegal hrun | runs hrun => exact absurd (hs.symm.trans hrun) (by decide)
  | @regWrite off v ts hturn =>
    by_cases hoff : off = 0
    · subst hoff
      obtain ⟨h0, h1, h2, herr, hdone, hcp⟩ := control_starts (s := s.withTurns ts) hs ht
      exact ⟨v, ts, hturn, h0, h1, h2, herr, hdone, hcp⟩
    · rw [(hostKeeps_hostWrite _ off v hoff).run] at ht
      exact absurd (hs.symm.trans ht) (by decide)
  | host => exact absurd (hs.symm.trans ht) (by decide)
  | reset => cases ht

/-! ### How a run ends -/

theorem code_ne_zero (c : FaultCode) : c.code ≠ 0 := by cases c <;> decide

theorem raiseFault_err_ne_zero (s : State) (c : FaultCode) (info : Word) : (s.raiseFault c info).err ≠ 0 := code_ne_zero c

theorem Ran.cpValue {w em : Bool} {s t : State} (h : Ran w em s t) : t.cpValue = s.cpValue := by rw [State.cpValue, h.cp]; rfl

theorem Writes.running {i : Instr} {f : State → State} (h : Writes i f) (u : State) :
    (f u).run = u.run ∧ (f u).done = u.done ∧ (f u).err = u.err ∧ (f u).cpValue = u.cpValue := by
  cases h <;> exact ⟨rfl, rfl, rfl, rfl⟩

/-- The ways a command of a run leaves it: still running at the next command, completed, faulted, or reset. -/
theorem Runs.ends {i : Instr} {s t : State} (h : Runs i s t) :
    (t.run = s.run ∧ t.done = s.done ∧ t.err = s.err ∧ t.cpValue = s.cpValue + 8 ∧ i ≠ .halt) ∨
    (t.run = false ∧ t.done = true ∧ t.err = s.err ∧ t.cpValue = s.cpValue ∧ i = .halt) ∨
    (t.run = false ∧ t.done = s.done ∧ t.err ≠ 0 ∧ t.cpValue = s.cpValue) ∨
    (s.env.cut ≠ none ∧ ∃ u : State, s.trace <+: u.trace ∧ t = u.resetInput) := by
  cases h with
  | halted h => exact Or.inr (Or.inl ⟨rfl, rfl, rfl, rfl, h⟩)
  | @completed u f h hf hn =>
    obtain ⟨hrun, hdone, herr, hcp⟩ := hf.running u
    refine Or.inl ⟨hrun.trans h.run, hdone.trans h.done, herr.trans h.err, ?_, hn⟩
    rw [(advanced_advance (f u) : (f u).advance.cpValue = _), hcp, h.cpValue]
  | refused => exact Or.inr (Or.inr (Or.inl ⟨rfl, rfl, raiseFault_err_ne_zero _ _ _, rfl⟩))
  | failed _ h => exact Or.inr (Or.inr (Or.inl ⟨rfl, h.done, raiseFault_err_ne_zero _ _ _, h.cpValue⟩))
  | @cut u hc h => exact Or.inr (Or.inr (Or.inr ⟨hc, u, h.trace, rfl⟩))

/-- The ways the sequencer's turn leaves a run, before what was in flight lands. -/
theorem SeqRuns.ends {s t : State} (h : SeqRuns s t) (hrun : s.run = true) :
    t.run = true ∨
    (t.run = false ∧ t.done = true ∧ t.err = s.err ∧ t.cpValue = s.cpValue) ∨
    (t.run = false ∧ t.done = s.done ∧ t.err ≠ 0 ∧ t.cpValue = s.cpValue) ∨
    (∃ u : State, s.trace <+: u.trace ∧ t = u.resetInput) := by
  cases h with
  | idle h => exact absurd (h.symm.trans hrun) (by decide)
  | noFetch => exact Or.inr (Or.inr (Or.inl ⟨rfl, rfl, raiseFault_err_ne_zero _ _ _, rfl⟩))
  | illegal _ hr => exact Or.inr (Or.inr (Or.inl ⟨rfl, hr.done, raiseFault_err_ne_zero _ _ _, hr.cpValue⟩))
  | runs _ hr _ _ _ ht =>
    rcases ht.ends with ⟨hrun', -⟩ | ⟨hrun', hdone, herr, hcp, -⟩ | ⟨hrun', hdone, herr, hcp⟩ | ⟨-, v, htrace, rfl⟩
    · exact Or.inl (hrun'.trans (hr.run.trans hrun))
    · exact Or.inr (Or.inl ⟨hrun', hdone, herr.trans hr.err, hcp.trans hr.cpValue⟩)
    · exact Or.inr (Or.inr (Or.inl ⟨hrun', hdone.trans hr.done, herr, hcp.trans hr.cpValue⟩))
    · exact Or.inr (Or.inr (Or.inr ⟨v, hr.trace.trans htrace, rfl⟩))

/-- What a reset leaves says that it was one. -/
theorem reset_ending {s u : State} (h : s.trace <+: u.trace) :
    u.resetInput.done = false ∧ u.resetInput.err = 0 ∧ ∃ es, u.resetInput.trace = s.trace ++ es ++ [.resetMark] := by
  obtain ⟨es, hes⟩ := h
  exact ⟨rfl, rfl, es, by rw [State.resetInput_trace, hes]⟩

/-- While a run is on, a `CTRL` write ends it only by the soft reset. -/
theorem control_ends {s : State} {v : Word} (hs : s.run = true) (ht : (s.control v).run = false) : s.control v = s.resetInput := by
  cases h1 : v.getLsbD 1 with
  | true => exact control_of_srst h1
  | false => rw [control_of_not_srst h1] at ht; simp [hs] at ht

/-- Settles O8: a command leaves a run by `HALT`, a fault or a reset (`SeqRuns.ends`), the host only by the soft reset. -/
theorem runEndsOneWay : Obligations.RunEndsOneWay := fun s t hinv hrun h hend => by
  obtain ⟨herr, hdone⟩ := hinv.running hrun
  cases stepped_of_step h with
  | @sequencer e u he hr =>
    by_cases hc : u.env.cut = none
    · rw [settle_of_uncut hc] at hend ⊢
      rcases hr.ends hrun with hon | ⟨-, hdone', herr', hcp⟩ | ⟨-, hdone', herr', hcp⟩ | ⟨v, htrace, rfl⟩
      · exact absurd (hend.symm.trans hon) (by decide)
      · exact Or.inl ⟨hdone', herr'.trans herr, hcp⟩
      · exact Or.inr (Or.inl ⟨herr', hdone'.trans hdone, hcp⟩)
      · exact Or.inr (Or.inr (reset_ending htrace))
    · rw [settle_of_cut hc]
      exact Or.inr (Or.inr (reset_ending (s := s) (u := u.land) hr.grows.1))
  | @regWrite off v ts hturn =>
    by_cases hoff : off = 0
    · subst hoff
      rw [hostWrite_ctrl] at hend ⊢
      rw [control_ends (s := s.withTurns ts) hrun hend]
      exact Or.inr (Or.inr (reset_ending (List.prefix_refl _)))
    · rw [(hostKeeps_hostWrite _ off v hoff).run] at hend
      exact absurd (hend.symm.trans hrun) (by decide)
  | host => exact absurd (hend.symm.trans hrun) (by decide)
  | reset => exact Or.inr (Or.inr (reset_ending (List.prefix_refl _)))

/-! ### The command pointer -/

/-- An undisturbed step of a fetching state is its sequencer's turn. -/
theorem seqRuns_of_fetching {s t : State} (hf : Fetching s) (h : step s = .next t) : SeqRuns s t := by
  rcases step_cases h with ⟨-, u, hr, -, rfl⟩ | ⟨_, _, _, _, ht, -⟩ | ⟨_, _, _, _, ht, -⟩ | ⟨_, _, _, ht, -⟩ | ⟨_, _, ht, -⟩ | ⟨_, ht, -⟩
  · rwa [settle_undisturbed (hr.undisturbed hf.quiet)]
  all_goals rw [hf.turns] at ht; cases ht

/-- A fetching state's step is still in the run at the next command, completes at a `HALT`, or faults. -/
theorem fetching_ends {s t : State} (hf : Fetching s) (h : step s = .next t) :
    (t.run = true ∧ t.cpValue = s.cpValue + 8) ∨
    (t.run = false ∧ t.cpValue = s.cpValue ∧ t.done = true ∧
      decode (s.word (s.cpValue.toNat + 4) ++ s.word s.cpValue.toNat : Command) = .ok .halt) ∨
    (t.run = false ∧ t.cpValue = s.cpValue ∧ t.err ≠ 0 ∧ t.done = s.done) := by
  cases seqRuns_of_fetching hf h with
  | idle hoff => exact absurd (hoff.symm.trans hf.run) (by decide)
  | noFetch _ ha => exact absurd (ha.symm.trans hf.access) (by decide)
  | illegal _ hr _ hw =>
    obtain ⟨rfl, -⟩ := hw hf.quiet
    exact Or.inr (Or.inr ⟨rfl, rfl, raiseFault_err_ne_zero _ _ _, rfl⟩)
  | runs _ hr hd hw _ ht =>
    obtain ⟨rfl, rfl, rfl⟩ := hw hf.quiet
    rcases ht.ends with ⟨hrun, -, -, hcp, -⟩ | ⟨hrun, hdone, -, hcp, rfl⟩ | ⟨hrun, hdone, herr, hcp⟩ | ⟨hc, -⟩
    · exact Or.inl ⟨hrun.trans hf.run, hcp⟩
    · exact Or.inr (Or.inl ⟨hrun, hcp, hdone, hd⟩)
    · exact Or.inr (Or.inr ⟨hrun, hcp, herr, hdone⟩)
    · exact absurd (undisturbed_iff.1 hf.quiet).2 hc

/-- Settles O13: the three endings of a fetching state's step (`fetching_ends`). -/
theorem commandPointerMoves : Obligations.CommandPointerMoves := by
  refine ⟨fun s t hf h => ?_, fun s t hf h hend => ?_, by decide⟩
  · rcases fetching_ends hf h with ⟨hrun, hcp⟩ | ⟨hrun, hcp, -⟩ | ⟨hrun, hcp, -⟩
    · exact Or.inl ⟨hrun, hcp⟩
    · exact Or.inr ⟨hrun, hcp⟩
    · exact Or.inr ⟨hrun, hcp⟩
  · rcases fetching_ends hf h with ⟨hrun, -⟩ | ⟨-, -, hdone, hd⟩ | ⟨-, -, herr, hdone⟩
    · exact absurd (hend.symm.trans hrun) (by decide)
    · exact Or.inl ⟨hdone, hd⟩
    · exact Or.inr ⟨herr, hdone⟩

/-! ### Steps without a next state -/

/-- The sequencer's turn gives a next state, or waits for a transport that is silent while no reset is on its way. -/
theorem settled_cases (u : State) : (∃ t, settled (seqStep u) = .next t) ∨
    (settled (seqStep u) = .fault .transportSilent ∧ u.run = true ∧ u.env.cut = none ∧
      ∃ n, u.env.asked ≤ n ∧ u.env.answer n = .silent) := by
  rcases seqStep_cases u with ⟨v, hv, -⟩ | ⟨hv, hrun, hcut, n, hn⟩
  · rw [hv]; exact Or.inl ⟨_, rfl⟩
  · rw [hv]; exact Or.inr ⟨rfl, hrun, hcut, n, hn⟩

/-- Settles O9: a host's turn of the defined shape always ends, the sequencer's but for silence (`settled_cases`). -/
theorem answeredStepsEnd : Obligations.AnsweredStepsEnd := fun s hwrite hread => by
  unfold step
  cases ht : s.env.turns with
  | nil =>
    rcases settled_cases s with hnext | ⟨hsilent, hrun, -, n, hn⟩
    · exact Or.inl hnext
    · exact Or.inr ⟨hsilent, hrun, Or.inl rfl, n, hn⟩
  | cons turn ts =>
    cases turn with
    | sequencer ws k =>
      rcases settled_cases ((s.withTurns ts).disturbed ws k) with hnext | ⟨hsilent, hrun, hcut, n, hn⟩
      · exact Or.inl hnext
      · obtain rfl : k = none := hcut
        exact Or.inr ⟨hsilent, hrun, Or.inr ⟨ws, ts, rfl⟩, n, hn⟩
    | regWrite off size v => exact Or.inl ⟨_, if_pos (hwrite off size v ts ht)⟩
    | regRead off size => exact Or.inl ⟨_, if_pos (hread off size ts ht)⟩
    | store cells => exact Or.inl ⟨_, rfl⟩
    | reset => exact Or.inl ⟨_, rfl⟩

end Sys2Proof.Machine
end

section
/-! PROOFS. The invariant: every agent's step keeps it, and a recorded fault stays (10_state.md sections 3 to 5, 60_exceptions.md
sections 1, 2 and 5). -/

namespace Sys2Proof.Machine

/-- The invariant but for what is in flight: inside a sequencer's turn this part holds throughout. -/
structure Lawful (s : State) : Prop where
  mem : s.mem.wf = true
  cp : s.cp &&& 0x7 = 0
  irqEn : s.irqEn &&& ~~~irqEnMask = 0
  busCfg : s.busCfg &&& ~~~busCfgMask = 0
  busCfg2 : s.busCfg2 &&& ~~~busCfg2Mask = 0
  pipe : s.pipe &&& ~~~pipeMask = 0
  err : s.err = 0 ∨ ∃ c : FaultCode, c.isRaised = true ∧ s.err = c.code
  errInfo : s.err.toNat < 0x10 → s.errInfo = 0
  running : s.run = true → s.err = 0 ∧ s.done = false
  faulted : s.err ≠ 0 → s.done = false

theorem inv_iff {s : State} : Inv s ↔ Lawful s ∧ s.undisturbed = true :=
  ⟨fun h => ⟨{ h with }, h.quiet⟩, fun ⟨h, hq⟩ => { h with quiet := hq }⟩

variable {s t u : State}

/-! ### What keeps it -/

theorem Lawful.ran {w em : Bool} (h : Lawful s) (hr : Ran w em s t) : Lawful t where
  mem := hr.mem h.mem
  cp := by rw [hr.cp]; exact h.cp
  irqEn := by rw [hr.irqEn]; exact h.irqEn
  busCfg := by rw [hr.busCfg]; exact h.busCfg
  busCfg2 := by rw [hr.busCfg2]; exact h.busCfg2
  pipe := by rw [hr.pipe]; exact h.pipe
  err := by rw [hr.err]; exact h.err
  errInfo := by rw [hr.err, hr.errInfo]; exact h.errInfo
  running := by rw [hr.run, hr.err, hr.done]; exact h.running
  faulted := by rw [hr.err, hr.done]; exact h.faulted

theorem Lawful.withEnv (h : Lawful s) (e : Env) : Lawful (s.withEnv e) := { h with }

theorem Lawful.withMem (h : Lawful s) {m : Memory} (hm : m.wf = true) : Lawful (s.withMem m) := { h with mem := hm }

theorem Lawful.markDrop (h : Lawful s) : Lawful s.markDrop := { h with }

theorem Lawful.setParam (h : Lawful s) (rd : PReg) (v : Word) : Lawful (s.setParam rd v) := { h with }

theorem Lawful.mergeCore (h : Lawful s) (rects : List Rect) : Lawful (s.mergeCore rects) := { h with }

theorem Lawful.taken (h : Lawful s) : Lawful s.taken := { h with }

theorem alignCP_low (v : Word) : alignCP v &&& 0x7 = 0 := by
  rw [alignCP, BitVec.and_assoc, show (0xFFFFFFF8 : Word) &&& 0x7 = 0 by decide]
  exact BitVec.and_zero

theorem Lawful.setCP (h : Lawful s) (v : Word) : Lawful (s.setCP v) := { h with cp := alignCP_low v }

theorem Lawful.advance (h : Lawful s) : Lawful s.advance := h.setCP _

theorem Lawful.resetInput (h : s.mem.wf = true) : Lawful s.resetInput where
  mem := h
  cp := BitVec.zero_and
  irqEn := BitVec.zero_and
  busCfg := BitVec.zero_and
  busCfg2 := BitVec.zero_and
  pipe := BitVec.zero_and
  err := Or.inl rfl
  errInfo := fun _ => rfl
  running := fun h => by cases h
  faulted := fun h => absurd rfl h

/-- A fault taken during a run: there was none before, and no `DONE`. -/
theorem Lawful.raiseFault (h : Lawful s) (hrun : s.run = true) {c : FaultCode} {info : Word} (hc : c.isRaised = true)
    (hi : c.code.toNat < 0x10 → info = 0) : Lawful (s.raiseFault c info) :=
  { h with
    err := Or.inr ⟨c, hc, rfl⟩
    errInfo := hi
    running := fun hon => by cases hon
    faulted := fun _ => (h.running hrun).2 }

theorem Lawful.halted (h : Lawful s) (hrun : s.run = true) : Lawful s.halted :=
  { h with
    running := fun hon => by cases hon
    faulted := fun herr => absurd (h.running hrun).1 herr }

theorem Lawful.writes {i : Instr} {f : State → State} (h : Lawful u) (hf : Writes i f) : Lawful (f u) := by
  cases hf with
  | none => exact h
  | set => exact h.setParam _ _
  | merge => exact h.mergeCore _
  | take => exact h.taken

/-! ### The sequencer -/

theorem Lawful.runs {i : Instr} (h : Lawful s) (hrun : s.run = true) (hr : Runs i s t) : Lawful t := by
  cases hr with
  | halted => exact h.halted hrun
  | completed hr hf => exact ((h.ran hr).writes hf).advance
  | refused _ hc hi => exact h.raiseFault hrun hc hi
  | failed _ hr => exact (h.ran hr).raiseFault (hr.run.trans hrun) rfl fun _ => rfl
  | cut _ hr => exact Lawful.resetInput (h.ran hr).mem

theorem Lawful.seqRuns (h : Lawful s) (hr : SeqRuns s t) : Lawful t := by
  cases hr with
  | idle => exact h
  | noFetch hrun => exact h.raiseFault hrun rfl fun hlow => absurd hlow access_code
  | illegal hrun hr => exact (h.ran hr).raiseFault (hr.run.trans hrun) rfl fun hlow => absurd hlow illegal_code
  | runs hrun hr _ _ _ ht => exact (h.ran hr).runs (hr.run.trans hrun) ht

theorem Lawful.land (h : Lawful s) : Lawful s.land := (h.withMem (wf_foldl_memStoreAll _ _ h.mem)).withEnv _

theorem Lawful.settle (h : Lawful s) : Lawful s.settle := by
  unfold State.settle
  split
  · exact Lawful.resetInput h.land.mem
  · exact h.land

/-! ### The host -/

/-- A masked value has no bit outside the mask. -/
theorem masked_low (v m : Word) : v &&& m &&& ~~~m = 0 := by
  rw [BitVec.and_assoc, BitVec.and_not_self]
  exact BitVec.and_zero

theorem Lawful.whenIdle (h : Lawful s) (ht : Lawful t) : Lawful (s.whenIdle t) := by
  unfold State.whenIdle
  split
  · exact h.markDrop
  · exact ht

theorem Lawful.push (h : Lawful s) (v : Word) : Lawful (s.push v) := by
  unfold State.push
  split <;> exact h.mergeCore _

/-- The strobes of `CTRL` clear a fault with its value, and start a run only where there is none. -/
theorem Lawful.control (h : Lawful s) (v : Word) : Lawful (s.control v) := by
  cases h1 : v.getLsbD 1 with
  | true => rw [control_of_srst h1]; exact Lawful.resetInput h.mem
  | false =>
    rw [control_of_not_srst h1]
    generalize hclr : (v.getLsbD 2 && !s.run) = clr
    refine { h with err := ?_, errInfo := ?_, running := ?_, faulted := ?_ }
    · cases clr with
      | true => exact Or.inl rfl
      | false => exact h.err
    · cases clr with
      | true => exact fun _ => rfl
      | false => exact h.errInfo
    · cases hrun : s.run with
      | true =>
        obtain ⟨herr, hdone⟩ := h.running hrun
        simp [herr, hdone]
      | false => simp +contextual
    · cases clr with
      | true => exact fun herr => absurd rfl herr
      | false => exact fun herr => by simp [h.faulted herr]

theorem Lawful.hostWrite (h : Lawful s) (off : Nat) (v : Word) : Lawful (hostWrite s off v) := by
  unfold Machine.hostWrite
  split
  · exact h.control v
  · exact h.whenIdle (h.setCP v)
  · exact { h with irqEn := masked_low v _ }
  · exact h.whenIdle { h with busCfg := masked_low v _ }
  · exact h.whenIdle { h with busCfg2 := masked_low v _ }
  · exact h.whenIdle { h with }
  · exact h.whenIdle { h with }
  · exact h.whenIdle { h with pipe := masked_low v _ }
  · exact { h with }
  · exact { h with }
  · exact h.push v
  · split
    · split
      · exact h.whenIdle (h.setParam _ v)
      · exact h.markDrop
    · exact h.markDrop

theorem control_quiet (h : s.undisturbed = true) (v : Word) : (s.control v).undisturbed = true := by
  cases h1 : v.getLsbD 1 with
  | true => rw [control_of_srst h1]; exact undisturbed_iff.2 ⟨(undisturbed_iff.1 h).1, rfl⟩
  | false => rw [control_of_not_srst h1]; exact h

theorem hostWrite_quiet (h : s.undisturbed = true) (off : Nat) (v : Word) : (hostWrite s off v).undisturbed = true := by
  by_cases hoff : off = 0
  · subst hoff; exact control_quiet h v
  · rw [State.undisturbed, (hostKeeps_hostWrite s off v hoff).env]; exact h

/-! ### The statements -/

theorem inv_step (hinv : Inv s) (h : step s = .next t) : Inv t := by
  obtain ⟨hs, hquiet⟩ := inv_iff.1 hinv
  rw [inv_iff]
  cases stepped_of_step h with
  | @sequencer e u he hr => exact ⟨((hs.withEnv e).seqRuns hr).settle, settle_quiet u⟩
  | @regWrite off v ts => exact ⟨Lawful.hostWrite (s := s.withTurns ts) (hs.withEnv _) off v, hostWrite_quiet (s := s.withTurns ts) hquiet off v⟩
  | @host e m he hm =>
    have hwf : m.wf = true := by
      rcases hm with rfl | ⟨cells, rfl⟩
      · exact hs.mem
      · exact wf_memStoreAll cells _ hs.mem
    refine ⟨(hs.withEnv e).withMem hwf, ?_⟩
    rw [undisturbed_iff] at hquiet ⊢
    exact ⟨he.1.trans hquiet.1, he.2.trans hquiet.2⟩
  | reset => exact ⟨Lawful.resetInput hs.mem, undisturbed_iff.2 ⟨(undisturbed_iff.1 hquiet).1, rfl⟩⟩

/-- Settles O10: the registers' part holds throughout every turn (`Lawful`), and nothing is in flight at its end (`settle_quiet`). -/
theorem stepsKeepInvariant : Obligations.StepsKeepInvariant := fun _ _ hinv h => inv_step hinv h

/-- Settles O11: the state after reset is a reset state, with nothing in flight. -/
theorem resetHasInvariant : Obligations.ResetHasInvariant :=
  inv_iff.2 ⟨{ Lawful.resetInput (s := State.reset) wf_reset with mem := wf_reset }, rfl⟩

/-! ### A recorded fault -/

/-- Where a fault is recorded and no run is on, a `CTRL` write keeps it, or clears it by `CLRERR` or the soft reset. -/
theorem control_fault (v : Word) (hrun : s.run = false) (herr : s.err ≠ 0) :
    ((s.control v).err = s.err ∧ (s.control v).errInfo = s.errInfo ∧ (s.control v).run = false) ∨
    ((s.control v).err = 0 ∧ (s.control v).errInfo = 0 ∧ (v.getLsbD 2 = true ∨ v.getLsbD 1 = true)) := by
  cases h1 : v.getLsbD 1 with
  | true => rw [control_of_srst h1]; exact Or.inr ⟨rfl, rfl, Or.inr rfl⟩
  | false =>
    rw [control_of_not_srst h1]
    cases h2 : v.getLsbD 2 with
    | true => exact Or.inr ⟨by simp [hrun], by simp [hrun], Or.inl rfl⟩
    | false =>
      have refused : (v.getLsbD 0 && !s.run && s.err == 0) = false := by rw [beq_eq_false_iff_ne.2 herr, Bool.and_false]
      exact Or.inl ⟨rfl, rfl, Bool.or_eq_false_iff.2 ⟨hrun, refused⟩⟩

/-- Settles O18: with a fault recorded no run is on, so the sequencer only lands stores or meets a reset, and of the host's writes only
one to `CTRL` can touch the fault (`control_fault`). -/
theorem recordedFaultStays : Obligations.RecordedFaultStays := fun s t hinv herr h => by
  have hrun : s.run = false := Bool.eq_false_iff.2 fun hon => herr (hinv.running hon).1
  cases stepped_of_step h with
  | @sequencer e u he hr =>
    cases hr with
    | idle =>
      by_cases hc : e.cut = none
      · rw [settle_of_uncut (s := s.withEnv e) hc]; exact Or.inl ⟨rfl, rfl, hrun⟩
      · rw [settle_of_cut (s := s.withEnv e) hc]
        refine Or.inr ⟨rfl, rfl, Or.inr (Or.inr ?_)⟩
        rcases he with ⟨-, rfl⟩ | ⟨ws, k, ts, hturn, rfl⟩
        · exact absurd (undisturbed_iff.1 hinv.quiet).2 hc
        · obtain ⟨k, rfl⟩ := Option.ne_none_iff_exists'.1 hc
          exact ⟨ws, k, ts, hturn⟩
    | noFetch hon | illegal hon | runs hon => exact absurd (hrun.symm.trans hon) (by decide)
  | @regWrite off v ts hturn =>
    by_cases hoff : off = 0
    · subst hoff
      rcases control_fault (s := s.withTurns ts) v hrun herr with hkept | ⟨herr', hinfo, hv⟩
      · exact Or.inl hkept
      · exact Or.inr ⟨herr', hinfo, Or.inl ⟨v, ts, hturn, hv⟩⟩
    · have keeps := hostKeeps_hostWrite (s.withTurns ts) off v hoff
      exact Or.inl ⟨keeps.err, keeps.errInfo, keeps.run.trans hrun⟩
  | host => exact Or.inl ⟨rfl, rfl, hrun⟩
  | @reset ts hturn => exact Or.inr ⟨rfl, rfl, Or.inr (Or.inl ⟨ts, hturn⟩)⟩

end Sys2Proof.Machine
end

section
/-! PROOFS. The commands' frames: what each may write, that `IRQEN` is inert, and that faults are precise (10_state.md section 2,
20_memory.md section 1, 60_exceptions.md section 2); and which command a step runs (40_sequencer.md section 1). -/

namespace Sys2Proof.Machine

variable {s t u : State} {i : Instr}

/-! ### Frames of the parts of a command -/

theorem SameConfig.trans (h : SameConfig s t) (g : SameConfig t u) : SameConfig s u :=
  ⟨g.irqEn.trans h.irqEn, g.busCfg.trans h.busCfg, g.busCfg2.trans h.busCfg2, g.maxChunk.trans h.maxChunk, g.rstCfg.trans h.rstCfg,
    g.pipe.trans h.pipe, g.dp.trans h.dp, g.drop.trans h.drop⟩

theorem Ran.sameConfig {w em : Bool} (h : Ran w em s t) : SameConfig s t := { h with }

theorem sameConfig_raiseFault (s : State) (c : FaultCode) (info : Word) : SameConfig s (s.raiseFault c info) := by constructor <;> rfl

theorem sameConfig_advance (s : State) : SameConfig s s.advance := by constructor <;> rfl

theorem Writes.sameConfig {f : State → State} (hf : Writes i f) (u : State) : SameConfig u (f u) := by
  cases hf <;> constructor <;> rfl

/-- A completed command writes the register of its `SET`, or the clip of its `TAKE`. -/
theorem Writes.param {f : State → State} (hf : Writes i f) (u : State) (r : PReg) :
    (f u).param r = u.param r ∨ (∃ imm, i = .set r imm) ∨ (i = .take ∧ r ∈ [PReg.cx1, .cy1, .cx2, .cy2]) := by
  cases hf with
  | none => exact Or.inl rfl
  | merge => exact Or.inl rfl
  | @set rd imm =>
    by_cases hr : r = rd
    · subst hr; exact Or.inr (Or.inl ⟨imm, rfl⟩)
    · exact Or.inl (get_put_of_ne u.p imm hr)
  | take =>
    cases r with
    | cx1 | cy1 | cx2 | cy2 => exact Or.inr (Or.inr ⟨rfl, by decide⟩)
    | src | dst | lutb | cnt | reg | fbw | fbh | fbfmt => exact Or.inl rfl

theorem Writes.acc {f : State → State} (hf : Writes i f) (u : State) : (f u).acc = u.acc ∨ (∃ c, i = .merge c) ∨ i = .take := by
  cases hf with
  | none | set => exact Or.inl rfl
  | @merge copy => exact Or.inr (Or.inl ⟨copy, rfl⟩)
  | take => exact Or.inr (Or.inr rfl)

theorem Writes.first {f : State → State} (hf : Writes i f) (u : State) : (f u).first = u.first ∨ i = .take := by
  cases hf with
  | none | set | merge => exact Or.inl rfl
  | take => exact Or.inr rfl

theorem Writes.mem {f : State → State} (hf : Writes i f) (u : State) : (f u).mem = u.mem := by cases hf <;> rfl

/-! ### Frames of the commands -/

/-- Settles O14: of the ways a command ends only completion writes a register, and then as `Writes` says. -/
theorem onlySetAndTakeWriteParams : Obligations.OnlySetAndTakeWriteParams := fun i s t hcut h r => by
  cases runs_exec h with
  | halted | refused => exact Or.inl rfl
  | @completed u f hr hf =>
    have kept : u.param r = s.param r := by rw [State.param, hr.p]; rfl
    exact (hf.param u r).imp_left fun hp => hp.trans kept
  | failed _ hr => exact Or.inl (congrArg (fun p => Params.get p r) hr.p)
  | cut hc => exact absurd hcut hc

theorem Runs.sameConfig (h : Runs i s t) (hcut : s.env.cut = none) : SameConfig s t := by
  cases h with
  | halted => exact sameConfig_halted s
  | @completed u f hr hf => exact (hr.sameConfig.trans (hf.sameConfig u)).trans (sameConfig_advance _)
  | refused => exact sameConfig_raiseFault _ _ _
  | failed _ hr => exact hr.sameConfig.trans (sameConfig_raiseFault _ _ _)
  | cut hc => exact absurd hcut hc

/-- Settles O15: completion writes the accumulator and `FIRST` as `Writes` says, and `HALT` alone writes `DONE`. -/
theorem commandsWriteOnlyTheirState : Obligations.CommandsWriteOnlyTheirState := fun i s t hcut h => by
  have hr := runs_exec h
  refine ⟨hr.sameConfig hcut, ?_⟩
  cases hr with
  | halted hi => exact ⟨Or.inl rfl, Or.inl rfl, Or.inr hi⟩
  | @completed u f hr hf =>
    obtain ⟨-, hdone, -⟩ := hf.running u
    exact ⟨(hf.acc u).imp_left fun ha => ha.trans hr.acc, (hf.first u).imp_left fun hfi => hfi.trans hr.first,
      Or.inl (hdone.trans hr.done)⟩
  | refused => exact ⟨Or.inl rfl, Or.inl rfl, Or.inl rfl⟩
  | failed _ hr => exact ⟨Or.inl hr.acc, Or.inl hr.first, Or.inl hr.done⟩
  | cut hc => exact absurd hcut hc

theorem writes_cases (i : Instr) : Instr.writes i = false ∨
    i ∈ [Instr.cp565, .sw565, .x2r565, .dither, .pack1] ∨ (∃ g, i = .r2gray g) ∨ ∃ w, i = .rdreg w := by
  cases i with
  | r2gray g => exact Or.inr (Or.inr (Or.inl ⟨g, rfl⟩))
  | rdreg w => exact Or.inr (Or.inr (Or.inr ⟨w, rfl⟩))
  | cp565 | sw565 | x2r565 | dither | pack1 => exact Or.inr (Or.inl (by decide))
  | _ => exact Or.inl rfl

theorem emits_cases (i : Instr) : Instr.emits i = false ∨
    (∃ ms, i = .delay ms) ∨ (∃ w fl, i = .wrreg w fl) ∨ (∃ w, i = .rdreg w) ∨ i = .breset := by
  cases i with
  | delay ms => exact Or.inr (Or.inl ⟨ms, rfl⟩)
  | wrreg w fl => exact Or.inr (Or.inr (Or.inl ⟨w, fl, rfl⟩))
  | rdreg w => exact Or.inr (Or.inr (Or.inr (Or.inl ⟨w, rfl⟩)))
  | breset => exact Or.inr (Or.inr (Or.inr (Or.inr rfl)))
  | _ => exact Or.inl rfl

theorem sameBytes_of_mem (h : t.mem = s.mem) : SameBytes s t := fun a => by rw [State.byteAt, h]; rfl

/-- Settles O16: a command that can write memory or emit events is one of the lists (`writes_cases`, `emits_cases`); the others leave
memory and the trace alone. -/
theorem commandsReachOnlyTheirSpaces : Obligations.CommandsReachOnlyTheirSpaces := fun i s t hcut h => by
  have spaces : (Instr.writes i = false → t.mem = s.mem) ∧
      (t.trace = s.trace ∨ (∃ ms, i = .delay ms) ∨ (∃ w fl, i = .wrreg w fl) ∨ (∃ w, i = .rdreg w) ∨ i = .breset) := by
    cases runs_exec h with
    | halted | refused => exact ⟨fun _ => rfl, Or.inl rfl⟩
    | @completed u f hr hf =>
      refine ⟨fun hw => (hf.mem u).trans (hr.memSame hw), (emits_cases i).imp_left fun he => ?_⟩
      exact (hf.keeps u).1.trans (hr.traceSame he)
    | failed hi hr =>
      refine ⟨fun _ => hr.memSame rfl, Or.inr (Or.inr ?_)⟩
      exact hi.imp_right Or.inl
    | cut hc => exact absurd hcut hc
  exact ⟨(writes_cases i).imp_left fun hw => sameBytes_of_mem (spaces.1 hw), spaces.2⟩

/-! ### `IRQEN` -/

/-- Another value in `IRQEN`, and nothing else. -/
def State.withIrqEn (s : State) (v : Word) : State := { s with irqEn := v }

theorem alike_withIrqEn (s : State) (v : Word) : Alike s (s.withIrqEn v) := { Alike.refl s with }

/-- A body that runs from both sides of another `IRQEN` ends on both sides of one. -/
theorem Follows.eq_withIrqEn {w : State} {v : Word} (h : Follows s (s.withIrqEn v) u w) : w = u.withIrqEn v := by
  obtain ⟨-, irqEn_right⟩ := h.irqEn
  obtain ⟨pipe_left, pipe_right⟩ := h.pipe
  obtain ⟨cut_left, cut_right⟩ := h.cut
  rw [h.alike.right_eq, irqEn_right, pipe_right, cut_right]
  simp only [State.withIrqEn, ← pipe_left, ← cut_left]

theorem Good.runBody_withIrqEn {body : Cmd Unit} (g : Good body) (hc : s.env.cut = none) (v : Word)
    (h : runBody body s = .next t) : runBody body (s.withIrqEn v) = .next (t.withIrqEn v) := by
  obtain ⟨u, w, hf, ⟨_, hs, hs'⟩ | ⟨e, he, hs, hs'⟩⟩ := g.blind s (s.withIrqEn v) (alike_withIrqEn s v) hc hc
  all_goals obtain rfl := hf.eq_withIrqEn
  · rw [run_body_ok hs] at h
    cases h
    exact run_body_ok hs'
  · cases e with
    | raised c info =>
      rw [run_body_raised hs] at h
      cases h
      exact run_body_raised hs'
    | cut => exact absurd rfl he
    | silent => simp [runBody, hs, finish, hf.cut.1, hc] at h

/-- A flush is refused, or does what a plain write transfer does. -/
theorem exec_flush (w16 : Bool) (s : State) : exec (.wrreg w16 true) s =
    if s.prepared then exec (.wrreg w16 false) s else .next (s.raiseFault .state 0) := by
  cases hp : s.prepared with
  | false => exact exec_flush_of_not_prepared hp w16
  | true =>
    show finish _ = finish _
    rw [wrreg_flush, hp]
    rfl

theorem exec_withIrqEn_of_not_flush (hc : s.env.cut = none) (hi : ∀ w, i ≠ .wrreg w true) (v : Word) (h : exec i s = .next t) :
    exec i (s.withIrqEn v) = .next (t.withIrqEn v) := by
  by_cases hh : i = .halt
  · subst hh
    rw [exec_halt] at h
    cases h
    rfl
  · obtain ⟨body, g, hrun, -⟩ := good_exec i hh hi
    rw [hrun] at h ⊢
    exact g.runBody_withIrqEn hc v h

/-- Settles O17: a body runs alike from states that differ in `IRQEN` (`Good.blind`), and a flush is one behind its first check. -/
theorem interruptEnablesAreInert : Obligations.InterruptEnablesAreInert := fun i s t v hc h => by
  show exec i (s.withIrqEn v) = .next (t.withIrqEn v)
  by_cases hflush : ∃ w, i = .wrreg w true
  · obtain ⟨w, rfl⟩ := hflush
    rw [exec_flush] at h ⊢
    have hp : (s.withIrqEn v).prepared = s.prepared := rfl
    rw [hp]
    cases hprep : s.prepared with
    | true => rw [hprep] at h; exact exec_withIrqEn_of_not_flush (i := .wrreg w false) hc (by simp) v h
    | false => rw [hprep] at h; cases h; rfl
  · exact exec_withIrqEn_of_not_flush hc (fun w hw => hflush ⟨w, hw⟩) v h

/-! ### Faults -/

/-- Settles O19: of the ways a command ends in no run, `HALT` apart, one is a check that fails before anything has changed, the other
a transfer's event that fails after others (`Runs`). -/
theorem faultsArePrecise : Obligations.FaultsArePrecise := fun i s t hcut hrun h hend hhalt => by
  cases runs_exec h with
  | halted hi => exact absurd hi hhalt
  | @completed u f hr hf =>
    have hon : (f u).advance.run = true := (hf.running u).1.trans (hr.run.trans hrun)
    exact absurd (hend.symm.trans hon) (by decide)
  | @refused c info hc hraised => exact Or.inl ⟨c, info, hc, hraised, rfl⟩
  | failed hi hr htrace =>
    exact Or.inr ⟨hi, rfl, rfl, hr.cpValue, hr.memSame rfl, hr.p, hr.acc, hr.done, hr.first,
      hr.sameConfig.trans (sameConfig_raiseFault _ _ _), htrace⟩
  | cut hc => exact absurd hcut hc

/-! ### The command a step runs -/

theorem decode_of_decodeBytes {be : Bool} {b0 b1 b2 b3 b4 b5 b6 b7 : Byte} {rest rest' : List Byte}
    (h : decodeBytes be (b0 :: b1 :: b2 :: b3 :: b4 :: b5 :: b6 :: b7 :: rest) = .ok (i, rest')) :
    decode (join4 be b4 b5 b6 b7 ++ join4 be b0 b1 b2 b3) = .ok i := by
  rw [decodeBytes] at h
  split at h
  · injection h with h; injection h with h1 h2; rw [← h1]; assumption
  · cases h

/-- The 8 bytes at an address are the bytes of the two words there. -/
theorem decode_words_of_bytes {a : Nat} (h : decodeBytes s.plat.memBE (memBytes s.mem a 8) = .ok (i, [])) :
    decode (s.word (a + 4) ++ s.word a : Command) = .ok i := decode_of_decodeBytes h

/-- What a command does on an undisturbed state leaves nothing for the end of the turn. -/
theorem settled_exec (hq : s.undisturbed = true) (i : Instr) : settled (exec i s) = exec i s := by
  by_cases h : ∃ t, exec i s = .next t
  · obtain ⟨t, ht⟩ := h
    rw [ht, settled, settle_undisturbed ((runs_exec ht).undisturbed hq)]
  · rw [(exec_stop fun t ht => h ⟨t, ht⟩).1]
    rfl

theorem seqStep_of_decode (hrun : s.run = true) (hq : s.undisturbed = true)
    (ha : accessible s.plat s.cpValue.toNat 8 .rd = true)
    (hd : decode (s.word (s.cpValue.toNat + 4) ++ s.word s.cpValue.toNat : Command) = .ok i) : seqStep s = exec i s := by
  simp only [seqStep, hrun, if_true, run_fetch hq ha, runFetched, hd]

/-- Settles O5: an undisturbed fetch gives the words at `CP`, and neither kind of turn adds anything to what the command does. -/
theorem stepRunsDecodedCommand : Obligations.StepRunsDecodedCommand := fun s i hf hd => by
  have hword := decode_words_of_bytes hd
  refine ⟨?_, fun ts => ?_⟩
  · have hseq := seqStep_of_decode hf.run hf.quiet hf.access hword
    rw [← settled_exec hf.quiet i, ← hseq, step, hf.turns]
  · have hseq : seqStep (s.withTurns ts) = exec i (s.withTurns ts) :=
      seqStep_of_decode (s := s.withTurns ts) hf.run hf.quiet hf.access hword
    rw [← settled_exec (s := s.withTurns ts) hf.quiet i, ← hseq]
    conv_rhs => rw [← disturbed_nothing (s := s.withTurns ts) hf.quiet]
    rfl

/-- Settles O6: while `RUN = 0` the sequencer's turn ends where it begins, and a fetch begins with the access check. -/
theorem fetchNeedsRunAndAccess : Obligations.FetchNeedsRunAndAccess := fun s ht hq =>
  ⟨fun hrun => step_of_seqStep ht hq (by simp [seqStep, hrun]),
    fun hrun ha => step_of_seqStep ht hq (by
      rcases fetch_cases s with ⟨-, hf⟩ | ⟨hok, -⟩
      · simp only [seqStep, hrun, if_true, hf]; rfl
      · exact absurd (ha.symm.trans hok) (by decide))⟩

end Sys2Proof.Machine
end

section
/-! PROOFS. The host's side: `STATUS`, the interrupt line, what a run freezes, read-back, reserved offsets, and the entry of a fault with
the return from it (10_state.md section 5, 60_exceptions.md section 2). -/

namespace Sys2Proof.Machine

variable {s : State} {v : Word} {off : Nat}

/-! ### `STATUS` -/

theorem getLsbD_bitAt (b : Bool) {k : Nat} (hk : k < 32) (j : Nat) : (bitAt b k).getLsbD j = (b && decide (j = k)) := by
  cases b with
  | false => simp [bitAt]
  | true =>
    simp only [bitAt, if_true, BitVec.getLsbD_shiftLeft]
    by_cases hj : j = k
    · subst hj; simp [hk]
    · by_cases hlt : j < k
      · simp [hlt, hj]
      · have : j - k ≠ 0 := by omega
        simp [BitVec.getLsbD_one, this, hj]

theorem getLsbD_status (s : State) (j : Nat) : s.status.getLsbD j =
    ((s.run && decide (j = 0)) || (s.done && decide (j = 1)) || (s.first && decide (j = 2)) || (s.drop && decide (j = 3)) ||
      (decide (8 ≤ j ∧ j < 16) && s.err.getLsbD (j - 8))) := by
  have code : ((s.err.setWidth 32 <<< 8 : Word)).getLsbD j = (decide (8 ≤ j ∧ j < 16) && s.err.getLsbD (j - 8)) := by
    rw [BitVec.getLsbD_shiftLeft, BitVec.getLsbD_setWidth]
    by_cases hj : 8 ≤ j ∧ j < 16
    · have h1 : j < 32 := by omega
      have h2 : ¬ j < 8 := by omega
      have h3 : j - 8 < 32 := by omega
      simp [hj, h1, h2, h3]
    · by_cases hlow : j < 8
      · have h3 : ¬ 8 ≤ j := by omega
        simp [hlow, h3]
      · rw [BitVec.getLsbD_of_ge s.err (j - 8) (by omega)]
        simp
  simp only [State.status, BitVec.getLsbD_or, getLsbD_bitAt _ (show 0 < 32 by decide), getLsbD_bitAt _ (show 1 < 32 by decide),
    getLsbD_bitAt _ (show 2 < 32 by decide), getLsbD_bitAt _ (show 3 < 32 by decide), code]

@[simp] theorem hostRead_status (s : State) : hostRead s 0x04 = s.status := rfl

theorem status_run (s : State) : s.status.getLsbD 0 = s.run := by rw [getLsbD_status]; simp

theorem status_err (s : State) : s.status.extractLsb' 8 8 = s.err := by
  apply BitVec.eq_of_getLsbD_eq
  intro j hj
  have high : 8 + j ≠ 0 ∧ 8 + j ≠ 1 ∧ 8 + j ≠ 2 ∧ 8 + j ≠ 3 ∧ 8 ≤ 8 + j ∧ 8 + j < 16 := by omega
  rw [BitVec.getLsbD_extractLsb', getLsbD_status]
  simp only [high, hj, decide_true, decide_false, Bool.true_and, Bool.and_false, Bool.false_or, and_self, Nat.add_sub_cancel_left]

/-- Neither a flag nor a bit of the code stands in these bits. -/
theorem status_reserved (s : State) {start len : Nat} (h : (4 ≤ start ∧ start + len ≤ 8) ∨ 16 ≤ start) :
    s.status.extractLsb' start len = 0 := by
  apply BitVec.eq_of_getLsbD_eq
  intro j hj
  have outside : start + j ≠ 0 ∧ start + j ≠ 1 ∧ start + j ≠ 2 ∧ start + j ≠ 3 ∧ ¬ (8 ≤ start + j ∧ start + j < 16) := by omega
  rw [BitVec.getLsbD_extractLsb', getLsbD_status]
  simp only [outside, decide_false, Bool.and_false, Bool.false_and, Bool.or_false]
  exact BitVec.getLsbD_zero.symm

/-- Settles O51: each bit of `STATUS` by `getLsbD_status`. -/
theorem statusShowsFlags : Obligations.StatusShowsFlags := fun s =>
  ⟨status_run s, (getLsbD_status s 1).trans (by simp), (getLsbD_status s 2).trans (by simp), (getLsbD_status s 3).trans (by simp),
    status_reserved s (Or.inl (by decide)), status_err s, status_reserved s (Or.inr (by decide))⟩

/-! ### Single strobes of `CTRL` -/

theorem control_clrErr (hrun : s.run = false) : s.control 4 = s.clearFault := by
  rw [control_of_not_srst (by decide)]
  simp [State.clearFault, hrun]

theorem control_clrDone (s : State) : s.control 8 = { s with done := false } := by
  rw [control_of_not_srst (by decide)]
  simp

theorem control_clrDrop (s : State) : s.control 16 = { s with drop := false } := by
  rw [control_of_not_srst (by decide)]
  simp

theorem control_setFirst (s : State) : s.control 32 = { s with first := true } := by
  rw [control_of_not_srst (by decide)]
  simp

/-- A `GO` alone that is refused is flagged. -/
theorem control_go_refused (h : s.run = true ∨ s.err ≠ 0) : s.control 1 = s.markDrop := by
  rw [control_of_not_srst (by decide)]
  rcases h with hrun | herr
  · simp [State.markDrop, hrun]
  · have recorded : ¬ s.err = 0#8 := herr
    simp [State.markDrop, recorded]

/-- A `CLRERR` alone during a run is flagged. -/
theorem control_clrErr_refused (hrun : s.run = true) : s.control 4 = s.markDrop := by
  rw [control_of_not_srst (by decide)]
  simp [State.markDrop, hrun]

/-- `CLRERR` and `GO` in one write: the fault is cleared and the run starts (60_exceptions.md R296). -/
theorem control_clrErr_go (hrun : s.run = false) : s.control 5 = s.clearFault.go := by
  rw [control_of_not_srst (by decide)]
  simp [State.clearFault, State.go, hrun]

/-! ### The interrupt line -/

theorem irq_iff (s : State) : s.irq = true ↔ (s.done = true ∧ s.irqEn.getLsbD 0 = true) ∨ (s.err ≠ 0 ∧ s.irqEn.getLsbD 1 = true) := by
  simp only [State.irq, State.ieDone, State.ieErr, Bool.or_eq_true, Bool.and_eq_true, bne_iff_ne]

/-- Without `DONE` and without a fault the line is low. -/
theorem irq_of_clear (hdone : s.done = false) (herr : s.err = 0) : s.irq = false := by simp [State.irq, hdone, herr]

/-- Settles O52: the line by `irq_iff`; each write that lowers it clears the enables, or leaves neither `DONE` nor a fault. -/
theorem interruptLineFollowsState : Obligations.InterruptLineFollowsState := fun s => by
  refine ⟨irq_iff s, ?_, fun herr => ?_, fun hrun hdone => ?_, fun hrun herr => ?_⟩
  · show State.irq { s with irqEn := 0 &&& irqEnMask } = false
    simp [State.irq, State.ieDone, State.ieErr]
  · rw [hostWrite_ctrl, control_clrDone]
    exact irq_of_clear rfl herr
  · rw [hostWrite_ctrl, control_clrErr hrun]
    exact irq_of_clear hdone rfl
  · rw [hostWrite_ctrl, control_go hrun herr]
    exact irq_of_clear rfl herr

/-! ### The entry of a fault and the return from it -/

/-- Settles O20: `State.raiseFault` writes the fault's two registers and `RUN`; `CLRERR` and `GO` write the same three and `DONE`. -/
theorem faultEntryAndReturn : Obligations.FaultEntryAndReturn := fun s c info => by
  have hoff : (s.raiseFault c info).run = false := rfl
  refine ⟨⟨rfl, rfl, rfl, rfl, rfl, rfl, rfl, rfl, sameConfig_raiseFault s c info, rfl, rfl, status_err _, status_run _, rfl, ?_⟩,
    control_clrErr_go hoff, control_go_refused (Or.inr (raiseFault_err_ne_zero s c info))⟩
  exact fun hie => (irq_iff _).2 (Or.inr ⟨raiseFault_err_ne_zero s c info, hie⟩)

/-! ### Host writes during a run -/

/-- The registers that a run freezes. -/
theorem hostWrite_frozen (hrun : s.run = true) (v : Word) (hoff : off ∈ [0x08, 0x10, 0x14, 0x18, 0x1C, 0x20]) :
    hostWrite s off v = s.markDrop := by
  simp only [List.mem_cons, List.not_mem_nil, or_false] at hoff
  rcases hoff with rfl | rfl | rfl | rfl | rfl | rfl <;> exact whenIdle_of_run _ hrun

theorem push_drop (s : State) (v : Word) : (s.push v).drop = s.drop := by
  unfold State.push
  split <;> rfl

/-- Settles O54: a frozen register's write is `whenIdle` of a running state; the others have their own equation. -/
theorem runFreezesConfiguration : Obligations.RunFreezesConfiguration := by
  refine ⟨fun s v hrun => ⟨fun off hoff => hostWrite_frozen hrun v hoff, fun rd => hostWrite_window_drops (Or.inl hrun),
    control_go_refused (Or.inl hrun), control_clrErr_refused hrun, control_of_srst (by decide), control_clrDone s,
    control_clrDrop s, control_setFirst s, rfl, rfl, rfl, push_drop s v⟩, fun s off v ts ha ht => ?_⟩
  rw [step, ht]
  exact if_pos ha

/-! ### Read-back -/

/-- A configuration register's write while idle is read back with its reserved bits cleared. -/
theorem hostRead_hostWrite_self (hrun : s.run = false) (v : Word) (x : Nat × Word)
    (hx : x ∈ [((0x08 : Nat), (0xFFFFFFF8 : Word)), (0x0C, 0x3), (0x10, 0x7FF), (0x14, 0xFFFF7FFF), (0x18, 0xFFFFFFFF),
      (0x1C, 0xFFFFFFFF), (0x20, 0x7), (0x30, 0xFFFFFFFF), (0x34, 0xFFFFFFFF)]) :
    hostRead (hostWrite s x.1 v) x.1 = v &&& x.2 := by
  have twice : ∀ m : Word, v &&& m &&& m = v &&& m := fun m => by rw [BitVec.and_assoc, BitVec.and_self]
  have whole : v &&& 0xFFFFFFFF = v := BitVec.and_allOnes
  have halves : packPair (v.extractLsb' 0 16) (v.extractLsb' 16 16) = v :=
    (extractLsb'_append_adjacent v (show 16 = 0 + 16 from rfl)).trans BitVec.extractLsb'_eq_self
  simp only [List.mem_cons, List.not_mem_nil, or_false] at hx
  rcases hx with rfl | rfl | rfl | rfl | rfl | rfl | rfl | rfl | rfl <;>
    simp only [hostWrite, whenIdle_of_idle _ hrun, hostRead, whole]
  · exact twice _
  · exact twice _
  · exact twice _
  · exact twice _
  · exact twice _
  · exact halves
  · exact halves

/-- What a host read depends on: at each offset the register that stands there, in the window the parameters. -/
theorem hostRead_congr {t : State} (status : off = 0x04 → t.status = s.status := by exact fun _ => rfl)
    (cp : off = 0x08 → t.cpValue = s.cpValue := by exact fun _ => rfl) (irqEn : off = 0x0C → t.irqEn = s.irqEn := by exact fun _ => rfl)
    (busCfg : off = 0x10 → t.busCfg = s.busCfg := by exact fun _ => rfl)
    (busCfg2 : off = 0x14 → t.busCfg2 = s.busCfg2 := by exact fun _ => rfl)
    (maxChunk : off = 0x18 → t.maxChunk = s.maxChunk := by exact fun _ => rfl)
    (rstCfg : off = 0x1C → t.rstCfg = s.rstCfg := by exact fun _ => rfl) (pipe : off = 0x20 → t.pipe = s.pipe := by exact fun _ => rfl)
    (errInfo : t.errInfo = s.errInfo := by rfl) (acc : t.acc = s.acc := by rfl)
    (dp1 : off = 0x30 → t.dp.x1 = s.dp.x1 ∧ t.dp.y1 = s.dp.y1 := by exact fun _ => ⟨rfl, rfl⟩)
    (dp2 : off = 0x34 → t.dp.x2 = s.dp.x2 ∧ t.dp.y2 = s.dp.y2 := by exact fun _ => ⟨rfl, rfl⟩)
    (p : t.p = s.p := by rfl) : hostRead t off = hostRead s off := by
  unfold hostRead
  split
  · exact status rfl
  · exact cp rfl
  · rw [irqEn rfl]
  · rw [busCfg rfl]
  · rw [busCfg2 rfl]
  · exact maxChunk rfl
  · exact rstCfg rfl
  · rw [pipe rfl]
  · exact errInfo
  · rw [acc]
  · rw [acc]
  · rw [(dp1 rfl).1, (dp1 rfl).2]
  · rw [(dp2 rfl).1, (dp2 rfl).2]
  · unfold State.param
    rw [p]

/-- A configuration register's write while idle is not seen at any other offset. -/
theorem hostRead_hostWrite_other (hrun : s.run = false) (v : Word) (x : Nat)
    (hx : x ∈ [0x08, 0x0C, 0x10, 0x14, 0x18, 0x1C, 0x20, 0x30, 0x34]) (hoff : off ≠ x) :
    hostRead (hostWrite s x v) off = hostRead s off := by
  have idle : ∀ t, s.whenIdle t = t := fun t => whenIdle_of_idle t hrun
  simp only [List.mem_cons, List.not_mem_nil, or_false] at hx
  rcases hx with rfl | rfl | rfl | rfl | rfl | rfl | rfl | rfl | rfl <;> simp only [hostWrite, idle]
  · exact hostRead_congr (cp := fun h => absurd h hoff)
  · exact hostRead_congr (irqEn := fun h => absurd h hoff)
  · exact hostRead_congr (busCfg := fun h => absurd h hoff)
  · exact hostRead_congr (busCfg2 := fun h => absurd h hoff)
  · exact hostRead_congr (maxChunk := fun h => absurd h hoff)
  · exact hostRead_congr (rstCfg := fun h => absurd h hoff)
  · exact hostRead_congr (pipe := fun h => absurd h hoff)
  · exact hostRead_congr (dp1 := fun h => absurd h hoff)
  · exact hostRead_congr (dp2 := fun h => absurd h hoff)

/-- Settles O55: each write while idle replaces one register, so that it is read back and nothing else differs. -/
theorem configurationReadsBack : Obligations.ConfigurationReadsBack := fun s v hrun => by
  refine ⟨fun x hx => ⟨hostRead_hostWrite_self hrun v x hx, fun off hoff => hostRead_hostWrite_other hrun v x.1 ?_ hoff⟩, ?_⟩
  · exact List.mem_map_of_mem (f := Prod.fst) hx
  · simp only [hostWrite, whenIdle_of_idle _ hrun, State.setCP, and_self]

/-! ### Reserved offsets and refused shapes -/

theorem windowReg_reserved (h : off = 0x3C ∨ (0x70 ≤ off ∧ off < 0x100)) : windowReg off = none := by
  rcases h with rfl | ⟨hlow, -⟩
  · rfl
  · have : ¬ off < 0x70 := by omega
    simp [windowReg, this]

theorem hostRead_reserved (s : State) (h : off = 0x3C ∨ (0x70 ≤ off ∧ off < 0x100)) : hostRead s off = 0 := by
  unfold hostRead
  split
  case h_14 => rw [windowReg_reserved h]
  all_goals omega

theorem hostWrite_reserved (s : State) (v : Word) (h : off = 0x3C ∨ (0x70 ≤ off ∧ off < 0x100)) : hostWrite s off v = s.markDrop := by
  unfold hostWrite
  split
  case h_12 => rw [windowReg_reserved h]
  all_goals omega

theorem hostWrite_readOnly (s : State) (v : Word) (h : off ∈ [0x04, 0x24, 0x28, 0x2C, 0x3C]) : hostWrite s off v = s.markDrop := by
  simp only [List.mem_cons, List.not_mem_nil, or_false] at h
  rcases h with rfl | rfl | rfl | rfl | rfl <;> rfl

theorem step_refused {size : Nat} {ts : List Turn} (ha : accessShaped off size = false)
    (ht : s.env.turns = .regWrite off size v :: ts ∨ s.env.turns = .regRead off size :: ts) :
    step s = .refused (.hostAccessShape off size) := by
  rcases ht with ht | ht <;> (rw [step, ht]; exact if_neg (Bool.eq_false_iff.1 ha))

theorem step_regRead {ts : List Turn} (ha : accessShaped off 4 = true) (ht : s.env.turns = .regRead off 4 :: ts) :
    step s = .next (s.withEnv { s.env with turns := ts, hostSaw := s.env.hostSaw ++ [(off, hostRead s off)] }) := by
  have seen : hostRead (s.withTurns ts) off = hostRead s off := hostRead_congr
  rw [step, ht, ← seen]
  exact if_pos ha

/-- Settles O56: a reserved offset is in no row of the register block and in no place of the window (`windowReg_reserved`). -/
theorem reservedOffsetsAndReads : Obligations.ReservedOffsetsAndReads := by
  refine ⟨fun s off h => hostRead_reserved s h, fun s => ⟨rfl, rfl⟩, fun s off v h => ?_, fun s off ts ha ht => ?_,
    fun s off size v ts ha ht => step_refused ha ht⟩
  · exact h.elim (hostWrite_readOnly s v) fun hr => hostWrite_reserved s v (Or.inr hr)
  · exact ⟨_, step_regRead ha ht, rfl, rfl⟩

/-! ### Reset -/

theorem resetValues_resetInput (s : State) : ResetValues s.resetInput where
  p := rfl
  cp := by show alignCP 0 = 0; decide
  run := rfl
  done := rfl
  drop := rfl
  first := rfl
  err := rfl
  errInfo := rfl
  irqEn := rfl
  busCfg := rfl
  busCfg2 := rfl
  maxChunk := rfl
  rstCfg := rfl
  pipe := rfl
  acc := rfl
  dp := rfl
  irq := rfl

theorem resetValues_reset : ResetValues State.reset := { resetValues_resetInput State.reset with }

/-- Settles O57: the reset input and the soft reset are `State.resetInput`, whose registers are those of `State.reset`. -/
theorem resetRestoresTableValues : Obligations.ResetRestoresTableValues :=
  ⟨resetValues_reset, fun s => ⟨⟨resetValues_resetInput s, rfl, rfl, rfl⟩, fun _ => control_of_srst, fun ts ht => by
    rw [step, ht]; rfl⟩⟩

end Sys2Proof.Machine
end

section
/-! PROOFS. The commands that need no transport: `SET`, `DELAY`, `BRESET`, `MERGE`, and the checks that fail (40_sequencer.md sections 3
and 4, 41_register_transfer.md section 7, 43_damage_merge.md, 42_pixel_conversion.md section 1). -/

namespace Sys2Proof.Machine

variable {s t : State}

/-! ### `SET` -/

theorem exec_set_fits {rd : PReg} {imm : Word} (h : rd.fits imm = true) (s : State) :
    exec (.set rd imm) s = .next (s.setParam rd imm).advance :=
  run_body_ok (((guards_set rd imm s).pass (by simp [Checks.pass, h])).trans rfl)

theorem exec_set_wide {rd : PReg} {imm : Word} (h : rd.fits imm = false) (s : State) :
    exec (.set rd imm) s = .next (s.raiseFault .illegal (encodeW0 (.set rd imm))) :=
  run_body_raised ((guards_set rd imm s).fault (by rw [h]; rfl))

/-- Settles O22: a fitting immediate completes with `State.setParam`, a wide one fails the command's only check. -/
theorem setWritesParameter : Obligations.SetWritesParameter := fun rd imm s =>
  ⟨fun h => ⟨_, exec_set_fits h s, get_put_same s.p h, fun _ hr => get_put_of_ne s.p imm hr, advanced_advance (s.setParam rd imm),
    by constructor <;> rfl, rfl, rfl, rfl, rfl, rfl, rfl, fun _ => rfl, rfl⟩, fun h => exec_set_wide h s⟩

/-! ### Events that ask for nothing -/

theorem sameRegisters_logged_advance (s : State) (es : List Event) : SameRegisters s (s.logged es).advance :=
  { sameConfig_advance s with p := rfl, run := rfl, done := rfl, first := rfl, err := rfl, errInfo := rfl, acc := rfl, plat := rfl }

theorem exec_delay (hq : s.undisturbed = true) (ms : Word) : exec (.delay ms) s = .next (s.logged [.delay ms]).advance :=
  run_body_ok (run_emitAll_plain [.delay ms] s (undisturbed_iff.1 hq).2 (by simp [Event.asks, Event.canFail, Event.returns]))

/-- Settles O23: the event asks for nothing, so it is appended and the command completes. -/
theorem delayEmitsOneEvent : Obligations.DelayEmitsOneEvent := fun ms s hq =>
  ⟨_, exec_delay hq ms, rfl, rfl, advanced_advance (s.logged _), sameRegisters_logged_advance s _, fun _ => rfl⟩

theorem resetPulse_plain (s : State) : ∀ e ∈ s.resetPulse, e.asks = false := by
  unfold State.resetPulse
  split <;> simp [Event.asks, Event.canFail, Event.returns]

theorem exec_breset (hq : s.undisturbed = true) : exec .breset s = .next (s.logged s.resetPulse).advance :=
  run_body_ok (run_emitAll_plain s.resetPulse s (undisturbed_iff.1 hq).2 (resetPulse_plain s))

/-- Settles O48: no event of the pulse asks for an answer, so all are appended and the command completes. -/
theorem resetPulseEmitsFourEvents : Obligations.ResetPulseEmitsFourEvents := fun s hq =>
  ⟨_, exec_breset hq, rfl, rfl, advanced_advance (s.logged _), sameRegisters_logged_advance s _, fun _ => rfl⟩

/-! ### The merge step -/

theorem merged_eq (s : State) (rects : List Rect) : s.merged rects =
    if rects = [] ∨ s.first = true ∨ s.forceFull = true then Rect.whole s.p.fbw s.p.fbh
    else (s.acc.unionAll rects).clamp s.p.fbw s.p.fbh := by
  simp only [State.merged, Bool.or_eq_true, List.isEmpty_iff, or_assoc]

/-- Without `FIRST` and `FORCEFULL` a list of rectangles is united and clamped. -/
theorem merged_of_plain {rects : List Rect} (hfirst : s.first = false) (hforce : s.forceFull = false) (hne : rects ≠ []) :
    s.merged rects = (s.acc.unionAll rects).clamp s.p.fbw s.p.fbh := by
  rw [merged_eq, if_neg (by simp [hne, hfirst, hforce])]

/-- Settles O26: the merge step is `State.merged` and writes the accumulator only; `DPUSH` is one merge step and reads 0. -/
theorem mergeStepAccumulates : Obligations.MergeStepAccumulates :=
  ⟨fun s rects => ⟨merged_eq s rects, rfl⟩, fun _ _ => ⟨rfl, rfl⟩⟩

/-! ### Merges one after the other -/

theorem unionAll_append (r : Rect) (xs ys : List Rect) : r.unionAll (xs ++ ys) = (r.unionAll xs).unionAll ys := List.foldl_append

theorem unionAll_union (r q : Rect) (xs : List Rect) : (r.union q).unionAll xs = (r.unionAll xs).union q := by
  induction xs generalizing r with
  | nil => rfl
  | cons x xs ih =>
    have swap : (r.union q).union x = (r.union x).union q := by
      rw [Rect.union_assoc, Rect.union_comm q x, ← Rect.union_assoc]
    show ((r.union q).union x).unionAll xs = ((r.union x).unionAll xs).union q
    rw [swap, ih]

/-- Clamping before more rectangles are united is clamping after. -/
theorem clamp_unionAll_clamp (r : Rect) (xs : List Rect) (w h : Half) :
    ((r.clamp w h).unionAll xs).clamp w h = (r.unionAll xs).clamp w h := by
  induction xs generalizing r with
  | nil => exact Rect.clamp_clamp r w h
  | cons x xs ih =>
    show (((r.clamp w h).union x).unionAll xs).clamp w h = ((r.union x).unionAll xs).clamp w h
    rw [← ih ((r.clamp w h).union x), Rect.clamp_union, Rect.clamp_clamp, ← Rect.clamp_union, ih]

theorem unionAll_perm {xs ys : List Rect} (h : xs.Perm ys) (r : Rect) : r.unionAll xs = r.unionAll ys :=
  h.foldl_eq' (fun x _ y _ z => by rw [Rect.union_assoc, Rect.union_comm x y, ← Rect.union_assoc]) r

/-- A rectangle united already changes nothing. -/
theorem unionAll_union_mem {xs : List Rect} {q : Rect} (hq : q ∈ xs) (r : Rect) : (r.unionAll xs).union q = r.unionAll xs := by
  obtain ⟨pre, post, rfl⟩ := List.append_of_mem hq
  have again : ∀ u : Rect, (u.unionAll (q :: post)).union q = u.unionAll (q :: post) := fun u => by
    show ((u.union q).unionAll post).union q = (u.union q).unionAll post
    rw [unionAll_union, Rect.union_assoc, Rect.union_self]
  rw [unionAll_append, again]

/-- The whole buffer holds every clamped rectangle. -/
theorem clamp_union_whole (r : Rect) (w h : Half) :
    ((r.clamp w h).union (Rect.whole w h)).clamp w h = Rect.whole w h := by
  apply Rect.eq_of_toNat <;> simp [Rect.clamp, Rect.union, Rect.whole]

/-- A sequence of merges is one merge of all the rectangles. -/
theorem foldl_mergeCore {groups : List (List Rect)} (hfirst : s.first = false) (hforce : s.forceFull = false)
    (hne : ∀ g ∈ groups, g ≠ []) (hg : groups ≠ []) :
    groups.foldl State.mergeCore s = { s with acc := (s.acc.unionAll groups.flatten).clamp s.p.fbw s.p.fbh } := by
  induction groups generalizing s with
  | nil => exact absurd rfl hg
  | cons g groups ih =>
    have one : s.mergeCore g = { s with acc := (s.acc.unionAll g).clamp s.p.fbw s.p.fbh } := by
      rw [State.mergeCore, merged_of_plain hfirst hforce (hne g (by simp))]
    by_cases hgs : groups = []
    · subst hgs
      simp [one]
    · rw [List.foldl_cons, ih (s := s.mergeCore g) hfirst hforce (fun x hx => hne x (by simp [hx])) hgs, one, List.flatten_cons,
        unionAll_append]
      simp only [clamp_unionAll_clamp]

/-- Settles O27: the merges are one merge of all rectangles (`foldl_mergeCore`), whose union depends neither on their order nor on how
often one occurs. -/
theorem mergeOrderIsIrrelevant : Obligations.MergeOrderIsIrrelevant := fun s groups rects hfirst hforce hacc hg hne hperm => by
  have all := foldl_mergeCore (s := s) hfirst hforce hne hg
  rw [hacc, unionAll_perm hperm] at all
  have merge_again : ∀ q : Rect, ((groups.foldl State.mergeCore s).mergeCore [q]).acc =
      (((Rect.empty.unionAll rects).clamp s.p.fbw s.p.fbh).union q).clamp s.p.fbw s.p.fbh := fun q => by
    rw [all]
    exact merged_of_plain (rects := [q]) hfirst hforce (by simp)
  refine ⟨by rw [all]; rfl, fun q hq => ?_, ?_⟩
  · rw [merge_again, all, Rect.clamp_union, Rect.clamp_clamp, ← Rect.clamp_union, unionAll_union_mem hq]
  · rw [merge_again]
    exact clamp_union_whole _ _ _

/-! ### `MERGE` -/

theorem exec_merge (hq : s.undisturbed = true) {copy : Bool} (hp : (mergeChecks copy s).pass) :
    exec (.merge copy) s = .next (s.mergeCore (s.rectsAt s.p.src.toNat (s.rectCount copy))).advance :=
  run_body_ok (((guards_merge copy s).pass hp).trans (run_mergeRest hq copy))

/-- Settles O28: behind its checks `MERGE` reads its list and then takes one merge step. -/
theorem mergeUnitesList : Obligations.MergeUnitesList := fun copy s hq hp =>
  ⟨_, exec_merge hq hp, rfl, advanced_advance (s.mergeCore _), by constructor <;> rfl, rfl, rfl, rfl, rfl, rfl, rfl, fun _ => rfl, rfl⟩

/-! ### The first check that fails -/

/-- A body behind checks takes the fault of the first that fails. -/
theorem runBody_fault {body rest : Cmd Unit} {cs : Checks} (g : Guards body cs rest s) {c : FaultCode} {info : Word}
    (hf : cs.firstFault = some (c, info)) : runBody body s = .next (s.raiseFault c info) := run_body_raised (g.fault hf)

/-- The checks of a framebuffer conversion whose format, clip and full-row checks pass, where the clip is not empty and an address is
misaligned. -/
theorem conversion_align {format : BitVec 2} {sb db : Nat} {rgbTarget gamma : Bool} (hformat : s.p.fbfmt = format)
    (hclip : s.p.cx1.toNat < s.p.cx2.toNat ∧ s.p.cx2.toNat ≤ s.p.fbw.toNat ∧ s.p.cy1.toNat < s.p.cy2.toNat ∧
      s.p.cy2.toNat ≤ s.p.fbh.toNat)
    (hrow : rgbTarget = true → s.fullRow = true → s.p.cw = s.p.fbw.toNat) :
    (s.p.src.toNat % sb ≠ 0 → (conversionChecks format sb db rgbTarget gamma s).firstFault = some (.align, s.p.src)) ∧
    (s.p.src.toNat % sb = 0 → s.p.dst.toNat % db ≠ 0 →
      (conversionChecks format sb db rgbTarget gamma s).firstFault = some (.align, s.p.dst)) := by
  obtain ⟨hx, hxw, hy, hyh⟩ := hclip
  have nonempty : ¬ (s.p.cw = 0 ∨ s.p.ch = 0) := by unfold Params.cw Params.ch; omega
  have clip : (!(s.p.cx1.toNat ≤ s.p.cx2.toNat && s.p.cx2.toNat ≤ s.p.fbw.toNat && s.p.cy1.toNat ≤ s.p.cy2.toNat &&
      s.p.cy2.toNat ≤ s.p.fbh.toNat : Bool)) = false := by simp [hx.le, hxw, hy.le, hyh]
  have row : (rgbTarget && s.fullRow && s.p.cw != s.p.fbw.toNat) = false := by
    cases rgbTarget <;> cases hf : s.fullRow <;> simp_all
  unfold conversionChecks
  rw [if_neg nonempty, clip, row, hformat, bne_self_eq_false]
  simp only [List.cons_append, List.nil_append, firstFault_cons, Bool.false_eq_true, if_false, bne_iff_ne]
  exact ⟨fun hsrc => if_pos hsrc, fun hsrc hdst => by rw [if_neg (not_not.2 hsrc), if_pos hdst]⟩

/-- Settles O36: each body makes its checks in the order of the statement's lists before it does anything (`Guards`). -/
theorem operandChecksFaultInOrder : Obligations.OperandChecksFaultInOrder := fun s _ _ =>
  ⟨fun copy => runBody_fault (guards_merge copy s),
    fun hf => ⟨runBody_fault (guards_convert _ _ s) hf, runBody_fault (guards_convert _ _ s) hf⟩,
    fun hf => runBody_fault (guards_convert _ _ s) hf, fun _ hf => runBody_fault (guards_convert _ _ s) hf, runBody_fault (guards_dither s),
    runBody_fault (guards_pack1 s), fun _ _ _ _ _ => conversion_align⟩

/-- Settles O44: as `operandChecksFaultInOrder`, for the nine checks of the two transfers. -/
theorem transferChecksFaultInOrder : Obligations.TransferChecksFaultInOrder := fun s _ _ =>
  ⟨fun w16 fl => runBody_fault (guards_wrreg w16 fl s), fun w16 => runBody_fault (guards_rdreg w16 s)⟩

/-! ### The clip of an empty accumulator -/

/-- A clip whose columns run backwards fails the clip check, which comes first but for the format. -/
theorem unordered_clip_fault (h : ¬ s.p.cx1.toNat ≤ s.p.cx2.toNat) :
    (∀ {format : BitVec 2} {sb db : Nat} {rgbTarget gamma : Bool}, s.p.fbfmt = format →
      (conversionChecks format sb db rgbTarget gamma s).firstFault = some (.config, 0)) ∧
    (ditherChecks s).firstFault = some (.config, 0) ∧ (pack1Checks s).firstFault = some (.config, 0) := by
  refine ⟨fun hformat => ?_, ?_, ?_⟩
  · simp [conversionChecks, firstFault_cons, hformat, h]
  · simp [ditherChecks, firstFault_cons, h]
  · simp [pack1Checks, firstFault_cons, h]

/-- Settles O30: `TAKE` of `EMPTY` hands over a clip from column `0xFFFF` to column 0, which fails the clip check of every conversion. -/
theorem emptyClipIsRefused : Obligations.EmptyClipIsRefused := fun s t hacc h => by
  rw [exec_take] at h
  injection h with h
  have unordered : ¬ t.p.cx1.toNat ≤ t.p.cx2.toNat := by
    rw [← h, State.advance_p, State.taken_p, hacc]
    exact (by decide : ¬ Rect.empty.x1.toNat ≤ Rect.empty.x2.toNat)
  obtain ⟨conversions, dither, pack1⟩ := unordered_clip_fault unordered
  refine ⟨fun hf i hi => ?_, fun hf => runBody_fault (guards_convert _ _ t) (conversions hf), runBody_fault (guards_dither t) dither,
    runBody_fault (guards_pack1 t) pack1⟩
  simp only [List.mem_cons, List.not_mem_nil, or_false] at hi
  rcases hi with rfl | rfl | rfl | rfl <;> exact runBody_fault (guards_convert _ _ t) (conversions hf)

end Sys2Proof.Machine
end

section
/-! PROOFS. Memory and register transfer: read-back of words, the chunks of a buffer, and what `WRREG` and `RDREG` emit, store and do
where the transport fails or is silent (20_memory.md section 2, 41_register_transfer.md sections 4 to 8). -/

namespace Sys2Proof.Machine

variable {s : State}

/-! ### Words in memory -/

/-- A byte of a run just stored. -/
theorem memByte_memStores_at (m : Memory) {a : Nat} {vs : List Byte} (h : a + vs.length ≤ memLimit) {k : Nat} (hk : k < vs.length) :
    memByte (memStores m a vs) (a + k) = vs[k] := by
  rw [memByte_memStores vs m a (a + k) h, dif_pos (by omega)]
  congr 1
  omega

/-- Where the byte order puts each byte of a 16-bit value (20_memory.md R72). -/
theorem bytes2_getElem (be : Bool) (v : Half) {k : Nat} (hk : k < (bytes2 be v).length) :
    (bytes2 be v)[k] = v.extractLsb' (8 * (if be then 1 - k else k)) 8 := by
  rw [length_bytes2] at hk
  cases be <;> interval_cases k <;> rfl

theorem bytes4_getElem (be : Bool) (v : Word) {k : Nat} (hk : k < (bytes4 be v).length) :
    (bytes4 be v)[k] = v.extractLsb' (8 * (if be then 3 - k else k)) 8 := by
  rw [length_bytes4] at hk
  cases be <;> interval_cases k <;> rfl

theorem memByte_half (be : Bool) (m : Memory) {a : Nat} (v : Half) (h : a + 2 ≤ memLimit) {k : Nat} (hk : k < 2) :
    memByte (memStores m a (bytes2 be v)) (a + k) = v.extractLsb' (8 * (if be then 1 - k else k)) 8 := by
  rw [memByte_memStores_at m (by rw [length_bytes2]; exact h) (by rw [length_bytes2]; exact hk), bytes2_getElem]

theorem memByte_word (be : Bool) (m : Memory) {a : Nat} (v : Word) (h : a + 4 ≤ memLimit) {k : Nat} (hk : k < 4) :
    memByte (memStores m a (bytes4 be v)) (a + k) = v.extractLsb' (8 * (if be then 3 - k else k)) 8 := by
  rw [memByte_memStores_at m (by rw [length_bytes4]; exact h) (by rw [length_bytes4]; exact hk), bytes4_getElem]

/-- The bytes of a 16-bit value, joined in the order they were split in. -/
theorem join2_bytes (be : Bool) (v : Half) :
    join2 be (v.extractLsb' (8 * (if be then 1 - 0 else 0)) 8) (v.extractLsb' (8 * (if be then 1 - 1 else 1)) 8) = v := by
  cases be <;> exact hi_append_lo v

theorem word_of_bytes (v : Word) :
    (v.extractLsb' 24 8 ++ v.extractLsb' 16 8 ++ v.extractLsb' 8 8 ++ v.extractLsb' 0 8 : BitVec 32) = v := by
  rw [extractLsb'_append_adjacent v (show 24 = 16 + 8 from rfl), extractLsb'_append_adjacent v (show 16 = 8 + 8 from rfl),
    extractLsb'_append_adjacent v (show 8 = 0 + 8 from rfl)]
  exact BitVec.extractLsb'_eq_self

theorem memHalf_memStores (be : Bool) (m : Memory) {a : Nat} (v : Half) (h : a + 2 ≤ memLimit) :
    memHalf be (memStores m a (bytes2 be v)) a = v := by
  have b0 := memByte_half be m v h (show 0 < 2 by decide)
  have b1 := memByte_half be m v h (show 1 < 2 by decide)
  rw [Nat.add_zero] at b0
  rw [memHalf, b0, b1, join2_bytes]

theorem memWord_memStores (be : Bool) (m : Memory) {a : Nat} (v : Word) (h : a + 4 ≤ memLimit) :
    memWord be (memStores m a (bytes4 be v)) a = v := by
  have b0 := memByte_word be m v h (show 0 < 4 by decide)
  have b1 := memByte_word be m v h (show 1 < 4 by decide)
  have b2 := memByte_word be m v h (show 2 < 4 by decide)
  have b3 := memByte_word be m v h (show 3 < 4 by decide)
  rw [Nat.add_zero] at b0
  rw [memWord, b0, b1, b2, b3]
  cases be <;> exact word_of_bytes v

/-- Settles O59: each byte of a word is the one its byte order puts there (`bytes2_getElem`, `bytes4_getElem`), and those join again. -/
theorem wordsReadBackAsWritten : Obligations.WordsReadBackAsWritten := fun be m a v w =>
  ⟨fun h => ⟨memHalf_memStores be m v h, fun _ hk => memByte_half be m v h hk⟩,
    fun h => ⟨memWord_memStores be m w h, fun _ hk => memByte_word be m w h hk⟩,
    fun b hb => memByte_memStores_outside _ m a b (by rw [length_bytes2]; exact hb),
    fun b hb => memByte_memStores_outside _ m a b (by rw [length_bytes4]; exact hb)⟩

/-! ### Split words and swapped bytes -/

theorem buffer_succ (s : State) (w16 : Bool) (a n : Nat) : s.buffer w16 a (n + 1) = s.buffer w16 a n ++ [s.bufferWord w16 a n] := by
  simp [State.buffer, List.range_succ]

theorem unit_of_byte (s : State) (a k : Nat) : ((s.bufferWord false a k).setWidth 8 : Byte) = s.byteAt (a + k) := by
  rw [State.bufferWord, if_neg Bool.false_ne_true, BitVec.setWidth_setWidth_of_le _ (by decide), BitVec.setWidth_eq]

/-- A 16-bit word of little-endian memory goes out high byte first. -/
theorem split16_bufferWord (hbe : s.plat.memBE = false) (a k : Nat) :
    split16 true (s.bufferWord true a k) = [s.byteAt (a + 2 * k + 1), s.byteAt (a + 2 * k)] := by
  rw [State.bufferWord, if_pos rfl, State.half, hbe]
  exact split16_join16 true (s.byteAt (a + 2 * k + 1)) (s.byteAt (a + 2 * k))

/-- Settles O49: word by word, the split word and the two swapped bytes are the same two units. -/
theorem byteOrderPairingsAgree : Obligations.ByteOrderPairingsAgree := fun s t a d n dev hbe hswap => by
  rw [units_halves, units_bytes]
  induction n with
  | zero => rfl
  | succ n ih =>
    obtain ⟨h0, h1⟩ := hswap n (Nat.lt_succ_self n)
    have even : 2 * (n + 1) = 2 * n + 1 + 1 := by omega
    rw [even, buffer_succ, buffer_succ, buffer_succ, List.flatMap_append, ih fun k hk => hswap k (by omega), List.map_append,
      List.map_append, List.flatMap_singleton, split16_bufferWord hbe, List.map_singleton, List.map_singleton, unit_of_byte,
      unit_of_byte, h0, ← Nat.add_assoc, h1, List.append_assoc]
    rfl

/-! ### The chunks of a buffer -/

section
variable {page m : Nat} {split : Bool}

theorem chunkRoom_pos (hm : 0 < m) (hpage : 0 < page) (a : Nat) : 0 < chunkRoom page m split a := by
  have := Nat.mod_lt a hpage
  unfold chunkRoom
  split <;> omega

theorem chunkRoom_le (a : Nat) : chunkRoom page m split a ≤ m := by
  unfold chunkRoom
  split
  · exact Nat.min_le_left _ _
  · exact Nat.le_refl _

/-- The room is whole words where the page, `M` and the address are. -/
theorem chunkRoom_words {wb : Nat} (hm : wb ∣ m) (hpage : wb ∣ page) {a : Nat} (ha : wb ∣ a) : wb ∣ chunkRoom page m split a := by
  have left : wb ∣ page - a % page := Nat.dvd_sub hpage ((Nat.dvd_mod_iff hpage).2 ha)
  unfold chunkRoom
  split
  · rcases Nat.le_total m (page - a % page) with h | h
    · rw [Nat.min_eq_left h]; exact hm
    · rw [Nat.min_eq_right h]; exact left
  · exact hm

/-- One round of the loop: nothing is left, or a chunk goes out. -/
theorem chunkLoop_succ (fuel a : Nat) {rem : Nat} (h : rem ≠ 0) : chunkLoop page m split (fuel + 1) a rem =
    (a, min rem (chunkRoom page m split a)) ::
      chunkLoop page m split fuel (a + min rem (chunkRoom page m split a)) (rem - min rem (chunkRoom page m split a)) := by
  rw [chunkLoop, if_neg h]

theorem chunkLoop_nothing (fuel a : Nat) : chunkLoop page m split fuel a 0 = [] := by
  cases fuel <;> rfl

/-- The chunks add up to what was left. -/
theorem chunkLoop_sum (hm : 0 < m) (hpage : 0 < page) : ∀ (fuel a rem : Nat), rem ≤ fuel →
    ((chunkLoop page m split fuel a rem).map Prod.snd).sum = rem
  | fuel, a, 0, _ => by rw [chunkLoop_nothing]; rfl
  | fuel + 1, a, rem + 1, h => by
    have room := chunkRoom_pos (split := split) hm hpage a
    rw [chunkLoop_succ fuel a (Nat.succ_ne_zero rem), List.map_cons, List.sum_cons, chunkLoop_sum hm hpage fuel _ _ (by omega)]
    omega

/-- Chunk number `k` begins where those before it end, and takes what is left or what the room allows. -/
theorem chunkLoop_getElem (hm : 0 < m) (hpage : 0 < page) : ∀ (fuel a rem : Nat), rem ≤ fuel →
    ∀ k < (chunkLoop page m split fuel a rem).length,
      let sent := (((chunkLoop page m split fuel a rem).take k).map Prod.snd).sum
      (chunkLoop page m split fuel a rem)[k]? = some (a + sent, min (rem - sent) (chunkRoom page m split (a + sent)))
  | fuel, a, 0, _ => by rw [chunkLoop_nothing]; exact fun k hk => absurd hk (Nat.not_lt_zero k)
  | fuel + 1, a, rem + 1, h => by
    have room := chunkRoom_pos (split := split) hm hpage a
    rw [chunkLoop_succ fuel a (Nat.succ_ne_zero rem)]
    generalize hc : min (rem + 1) (chunkRoom page m split a) = c
    intro k hk
    cases k with
    | zero => simp [hc]
    | succ k =>
      have rest := chunkLoop_getElem hm hpage fuel (a + c) (rem + 1 - c) (by omega) k (by simpa using hk)
      simp only [List.getElem?_cons_succ, List.take_succ_cons, List.map_cons, List.sum_cons]
      rw [rest, Nat.add_assoc, Nat.sub_sub]

/-- Every chunk is at least a word and whole words, no more than `M`, and stays in its page where pages split. -/
theorem chunkLoop_mem {wb : Nat} (hm : 0 < m) (hpage : 0 < page) (hmw : wb ∣ m) (hpw : wb ∣ page) : ∀ (fuel a rem : Nat),
    wb ∣ a → wb ∣ rem → ∀ c ∈ chunkLoop page m split fuel a rem,
      0 < c.2 ∧ wb ∣ c.2 ∧ c.2 ≤ m ∧ (split = true → c.1 % page + c.2 ≤ page)
  | 0, _, _, _, _ => fun c hc => by cases hc
  | fuel + 1, a, 0, _, _ => fun c hc => by rw [chunkLoop_nothing] at hc; cases hc
  | fuel + 1, a, rem + 1, ha, hr => by
    have room := chunkRoom_pos (split := split) hm hpage a
    have size : wb ∣ min (rem + 1) (chunkRoom page m split a) := by
      rcases Nat.le_total (rem + 1) (chunkRoom page m split a) with h | h
      · rw [Nat.min_eq_left h]; exact hr
      · rw [Nat.min_eq_right h]; exact chunkRoom_words hmw hpw ha
    rw [chunkLoop_succ fuel a (Nat.succ_ne_zero rem)]
    intro c hc
    rcases List.mem_cons.1 hc with rfl | hc
    · refine ⟨by simp only; omega, size, (Nat.min_le_right _ _).trans (chunkRoom_le a), fun hs => ?_⟩
      have inPage := Nat.mod_lt a hpage
      subst hs
      simp only [chunkRoom, if_true]
      omega
    · exact chunkLoop_mem hm hpage hmw hpw fuel _ _ (ha.add size) (Nat.dvd_sub hr size) c hc

end

/-- Settles O42: the loop's invariant chunk by chunk (`chunkLoop_sum`, `chunkLoop_getElem`, `chunkLoop_mem`); the vectors are computed. -/
theorem chunksTileBuffer : Obligations.ChunksTileBuffer := by
  refine ⟨fun page maxChunk buf nbytes wb hpage2 hpage hwb hn hb hm => ?_, by decide, by decide, by decide, by decide⟩
  have page_pos : 0 < page := by omega
  have words_page : wb ∣ page := by
    rcases hwb with rfl | rfl
    · exact one_dvd _
    · exact Nat.dvd_of_mod_eq_zero hpage2
  have words_m : wb ∣ maxChunk - maxChunk % wb := Nat.dvd_sub_mod maxChunk
  have room : ∀ a, chunkRoom page (maxChunk - maxChunk % wb) (buf % page ≠ 0) a =
      if buf % page = 0 then maxChunk - maxChunk % wb else min (maxChunk - maxChunk % wb) (page - a % page) := fun a => by
    by_cases h : buf % page = 0 <;> simp [chunkRoom, h]
  refine ⟨chunkLoop_sum hm page_pos _ _ _ (Nat.le_refl _), fun k hk => ?_, fun c hc => ?_⟩
  · intro sent
    rw [← room]
    exact chunkLoop_getElem hm page_pos nbytes buf nbytes (Nat.le_refl _) k hk
  · obtain ⟨pos, words, le, inPage⟩ := chunkLoop_mem hm page_pos words_m words_page nbytes buf nbytes
      (Nat.dvd_of_mod_eq_zero hb) (Nat.dvd_of_mod_eq_zero hn) c hc
    exact ⟨pos, Nat.mod_eq_zero_of_dvd words, le, fun h => inPage (decide_eq_true h)⟩

/-! ### The transfers -/

theorem sameRegisters_emitted (s : State) (es : List Event) (m : Memory) :
    SameRegisters s ((s.emitted es).withMem m).advance :=
  { sameConfig_advance s with p := rfl, run := rfl, done := rfl, first := rfl, err := rfl, errInfo := rfl, acc := rfl, plat := rfl }

/-- Settles O43: behind its checks `WRREG` emits exactly its events (`emits_wrreg`), and all are answered. -/
theorem writeTransferEmitsEvents : Obligations.WriteTransferEmitsEvents := fun w16 fl s hq hp ho =>
  ⟨_, run_body_ok (((guards_wrreg w16 fl s).pass hp).trans ((emits_wrreg hq (configured_of_wrreg hp)).ok ho)), rfl, rfl,
    advanced_advance (s.emitted _), sameRegisters_emitted s _ s.mem, fun _ => rfl⟩

/-- The bytes `RDREG` stores are those of the words it has read. -/
theorem readBytes_eq (s : State) (w16 : Bool) :
    s.readBytes w16 = ((List.range s.p.cnt.toNat).map (s.readValue w16)).flatMap (wordInMemory s.plat.memBE w16) :=
  (List.flatMap_map ..).symm

theorem length_readBytes (s : State) (w16 : Bool) : (s.readBytes w16).length = s.p.cnt.toNat * wordBytes w16 := by
  rw [readBytes_eq, length_flatMap_words, List.length_map, List.length_range]

theorem exec_rdreg (hq : s.undisturbed = true) {w16 : Bool} (hp : (rdregChecks w16 s).pass)
    (ho : s.nextOk (askCount (s.rdregEvents w16))) : exec (.rdreg w16) s =
      .next ((s.emitted (s.rdregEvents w16)).withMem (memStores s.mem s.p.dst.toNat (s.readBytes w16))).advance := by
  obtain ⟨hconf, hmode⟩ := configured_of_rdreg hp
  refine run_body_ok (((guards_rdreg w16 s).pass hp).trans ?_)
  rw [rdregPhases, run_bind_ok ((emits_rdregRead (undisturbed_iff.1 hq).2 hconf hmode).ok ho), readBytes_eq]
  exact run_storeWords w16 _ _ (s.emitted (s.rdregEvents w16)) hq

/-- The destination lies below `2^32` where the access check has passed. -/
theorem dst_bound_of_rdreg {w16 : Bool} (hp : (rdregChecks w16 s).pass) :
    s.p.cnt = 0 ∨ s.p.dst.toNat + s.p.cnt.toNat * wordBytes w16 ≤ memLimit := by
  have last := hp (s.p.cnt != 0 && !rangeOk s.plat { base := s.p.dst.toNat, size := s.p.cnt.toNat * wordBytes w16, kind := .wr },
    .access, s.p.dst) (by simp [rdregChecks])
  by_cases h : s.p.cnt = 0
  · exact Or.inl h
  · right
    simp only [bne_iff_ne.2 h, Bool.true_and, Bool.not_eq_false', rangeOk, Bool.and_eq_true, decide_eq_true_eq] at last
    exact last.1

/-- Settles O46: behind its checks `RDREG` emits exactly its events (`emits_rdregRead`) and then stores its words one after the other. -/
theorem readTransferStoresAnswers : Obligations.ReadTransferStoresAnswers := fun w16 s hq hp ho => by
  have len := length_readBytes s w16
  refine ⟨_, exec_rdreg hq hp ho, rfl, rfl, advanced_advance ((s.emitted _).withMem _), sameRegisters_emitted s _ _, len,
    fun b hb => ?_, fun k hk => ?_⟩
  · exact memByte_memStores_outside _ s.mem _ b (by rw [len]; exact hb)
  · have bound : s.p.dst.toNat + (s.readBytes w16).length ≤ memLimit := by
      rw [len]
      rcases dst_bound_of_rdreg hp with h | h
      · rw [h] at hk; exact absurd hk (by simp)
      · exact h
    rw [← len] at hk
    rw [List.getElem?_eq_getElem hk]
    exact congrArg some (memByte_memStores_at s.mem bound hk)

/-- Silence where no reset is on its way leaves no next state. -/
theorem runBody_silent {body : Cmd Unit} {t : State} (h : body s = .error .silent t) (hc : t.env.cut = none) :
    runBody body s = .fault .transportSilent := by
  rw [runBody, h]
  simp [finish, hc]

/-- Settles O47: a transfer's body stops where the event that fails or is not answered stops it (`Emits`), before any word is stored. -/
theorem failedEventsStopTransfer : Obligations.FailedEventsStopTransfer := fun s pre post e hq ho => by
  have write : ∀ {w16 fl}, (wrregChecks w16 fl s).pass → ∃ body : Cmd Unit, wrregBody w16 fl s = body s ∧
      Emits body (s.wrregEvents w16) () s := fun {w16 fl} hp =>
    ⟨_, (guards_wrreg w16 fl s).pass hp, emits_wrreg hq (configured_of_wrreg hp)⟩
  have read : ∀ {w16}, (rdregChecks w16 s).pass → Emits (rdregRead w16 s) (s.rdregEvents w16) _ s := fun {w16} hp =>
    emits_rdregRead (undisturbed_iff.1 hq).2 (configured_of_rdreg hp).1 (configured_of_rdreg hp).2
  have cut : (s.emitted (pre ++ [e])).env.cut = none := (undisturbed_iff.1 hq).2
  refine ⟨fun hcan ha => ⟨fun w16 fl hp hes => ?_, fun w16 hp hes => ?_⟩, fun hasks ha => ⟨fun w16 fl hp hes => ?_, fun w16 hp hes => ?_⟩⟩
  · obtain ⟨body, hb, he⟩ := write hp
    exact run_body_raised (hb.trans (he.fail pre e post hes ho hcan ha))
  · exact run_body_raised (((guards_rdreg w16 s).pass hp).trans (run_bind_error ((read hp).fail pre e post hes ho hcan ha)))
  · obtain ⟨body, hb, he⟩ := write hp
    exact runBody_silent (hb.trans (he.silent pre e post hes ho hasks ha)) cut
  · exact runBody_silent (((guards_rdreg w16 s).pass hp).trans (run_bind_error ((read hp).silent pre e post hes ho hasks ha))) cut

end Sys2Proof.Machine
end

section
/-! PROOFS. The pixel conversions: what each leaves in memory, where it writes, and that it completes (42_pixel_conversion.md). -/

namespace Sys2Proof.Machine

variable {s : State}

/-! ### Scans: memory after a write for each element of a dense buffer, in order -/

theorem row_of_cell {b y : Nat} (a : Nat) (h : y < b) : (a * b + y) / b = a := by
  rw [Nat.mul_comm, Nat.mul_add_div (by omega), Nat.div_eq_of_lt h, Nat.add_zero]

/-- Two nested loops visit the cells of a grid in the order of one loop over all of them. -/
theorem foldl_grid {α : Type} (f : Nat → Nat → α → α) (b : Nat) : ∀ (a : Nat) (m : α),
    (List.range a).foldl (fun m x => (List.range b).foldl (fun m y => f x y m) m) m =
      (List.range (a * b)).foldl (fun m k => f (k / b) (k % b) m) m
  | 0, m => by rw [Nat.zero_mul]; rfl
  | a + 1, m => by
    rw [List.range_succ, List.foldl_concat, foldl_grid f b a m, Nat.succ_mul, List.range_add, List.foldl_append, List.foldl_map]
    refine List.foldl_ext _ _ _ fun m y hy => ?_
    have hb : y < b := List.mem_range.1 hy
    rw [row_of_cell a hb, Nat.mul_add_mod_of_lt hb]

/-- Memory after the writes of the first `n` elements. -/
def scan (write : Nat → Memory → Memory) (n : Nat) (m : Memory) : Memory := (List.range n).foldl (fun m k => write k m) m

theorem scan_succ (write : Nat → Memory → Memory) (n : Nat) (m : Memory) : scan write (n + 1) m = write n (scan write n m) := by
  rw [scan, List.range_succ, List.foldl_concat]
  rfl

/-- Every write of the scan stays in its element, `db` bytes wide, of the buffer at `base`. -/
def Elementwise (base db : Nat) (write : Nat → Memory → Memory) : Prop :=
  ∀ k m b, (b < base + k * db ∨ base + k * db + db ≤ b) → memByte (write k m) b = memByte m b

section
variable {base db : Nat} {write : Nat → Memory → Memory}

theorem memByte_scan_outside (h : Elementwise base db write) (m : Memory) {b : Nat} : ∀ n, (b < base ∨ base + n * db ≤ b) →
    memByte (scan write n m) b = memByte m b
  | 0, _ => rfl
  | n + 1, hb => by
    rw [Nat.succ_mul] at hb
    rw [scan_succ, h n _ b (by omega), memByte_scan_outside h m n (by omega)]

/-- Later writes leave an element alone: it holds what its own write put there. -/
theorem memByte_scan_element (h : Elementwise base db write) (m : Memory) {k r : Nat} (hr : r < db) : ∀ n, k < n →
    memByte (scan write n m) (base + k * db + r) = memByte (write k (scan write k m)) (base + k * db + r)
  | n + 1, hk => by
    rw [scan_succ]
    rcases Nat.lt_succ_iff_lt_or_eq.1 hk with hk | rfl
    · have later : (k + 1) * db ≤ n * db := Nat.mul_le_mul_right db hk
      rw [Nat.succ_mul] at later
      rw [h n _ _ (by omega), memByte_scan_element h m hr n hk]
    · rfl

/-- So an element holds what its own write puts there in a memory that agrees with the first one outside the buffer. -/
theorem scan_element (h : Elementwise base db write) (m : Memory) {k n : Nat} (hk : k < n) :
    ∃ m', (∀ b, (b < base ∨ base + n * db ≤ b) → memByte m' b = memByte m b) ∧
      ∀ r < db, memByte (scan write n m) (base + k * db + r) = memByte (write k m') (base + k * db + r) :=
  ⟨scan write k m, fun b hb => memByte_scan_outside h m k
    (by have := Nat.mul_le_mul_right db (Nat.le_of_lt hk); omega), fun _ hr => memByte_scan_element h m hr n hk⟩

end

/-! ### The clip as a scan -/

section
variable {p : Params} {db : Nat} {f : Nat → Nat → Memory → Memory}

/-- The write of a pixel stays in its element of the destination. -/
def PixelWrites (p : Params) (db : Nat) (f : Nat → Nat → Memory → Memory) : Prop :=
  ∀ i j m b, (b < p.clipDst db i j ∨ p.clipDst db i j + db ≤ b) → memByte (f i j m) b = memByte m b

theorem eachPixel_eq_scan (p : Params) (f : Nat → Nat → Memory → Memory) (m : Memory) :
    eachPixel p f m = scan (fun k => f (k % p.cw) (k / p.cw)) (p.cw * p.ch) m := by
  rw [eachPixel, foldl_grid (fun j i => f i j), Nat.mul_comm]
  rfl

theorem elementwise_pixels (h : PixelWrites p db f) : Elementwise p.dst.toNat db (fun k => f (k % p.cw) (k / p.cw)) :=
  fun k m b hb => by
    refine h _ _ m b ?_
    rwa [Params.clipDst, Nat.mul_comm (k / p.cw), Nat.div_add_mod]

theorem memByte_eachPixel_outside (h : PixelWrites p db f) (m : Memory) {b : Nat}
    (hb : b < p.dst.toNat ∨ p.dst.toNat + p.cw * p.ch * db ≤ b) : memByte (eachPixel p f m) b = memByte m b := by
  rw [eachPixel_eq_scan]
  exact memByte_scan_outside (elementwise_pixels h) m _ hb

/-- Every element of the destination holds what its own pixel writes in a memory that is unchanged outside the destination. -/
theorem eachPixel_element (h : PixelWrites p db f) (m : Memory) {i j : Nat} (hi : i < p.cw) (hj : j < p.ch) :
    ∃ m', (∀ b, (b < p.dst.toNat ∨ p.dst.toNat + p.cw * p.ch * db ≤ b) → memByte m' b = memByte m b) ∧
      ∀ r < db, memByte (eachPixel p f m) (p.clipDst db i j + r) = memByte (f i j m') (p.clipDst db i j + r) := by
  obtain ⟨m', same, element⟩ := scan_element (elementwise_pixels h) m (k := j * p.cw + i) (n := p.cw * p.ch) (element_lt hi hj)
  refine ⟨m', same, fun r hr => ?_⟩
  rw [eachPixel_eq_scan]
  have at_r := element r hr
  rwa [Nat.mul_add_mod_of_lt hi, row_of_cell j hi] at at_r

/-- The bytes of a pixel read are not touched where the destination is apart. -/
theorem memByte_clipSrc {sb : Nat} {m m' : Memory} (ha : p.apart sb db)
    (same : ∀ b, (b < p.dst.toNat ∨ p.dst.toNat + p.cw * p.ch * db ≤ b) → memByte m' b = memByte m b) {i j : Nat} (hi : i < p.cw)
    (hj : j < p.ch) {k : Nat} (hk : k < sb) : memByte m' (p.clipSrc sb i j + k) = memByte m (p.clipSrc sb i j + k) :=
  same _ (ha i hi j hj k hk)

/-- An element of the destination ends below the destination's end. -/
theorem clipDst_le {i j : Nat} (hi : i < p.cw) (hj : j < p.ch) : p.clipDst db i j + db ≤ p.dst.toNat + p.cw * p.ch * db := by
  have inside := Nat.mul_le_mul_right db (element_lt hi hj)
  rw [Nat.succ_mul] at inside
  unfold Params.clipDst
  omega

end

/-- The destination of a conversion that passed its checks lies below `2^32`. -/
theorem dst_bound_of_conversion {format : BitVec 2} {sb db : Nat} {rgb gamma : Bool} (hp : (conversionChecks format sb db rgb gamma s).pass)
    (hw : 0 < s.p.cw) (hh : 0 < s.p.ch) : s.p.dst.toNat + s.p.cw * s.p.ch * db ≤ memLimit := by
  have last := hp (rangeCheck s.plat { base := s.p.dst.toNat, size := s.p.cw * s.p.ch * db, kind := .wr }) (by
    rw [conversionChecks, if_neg (by omega)]
    simp)
  simp only [rangeCheck, Bool.not_eq_false', rangeOk, Bool.and_eq_true, decide_eq_true_eq] at last
  exact last.1

theorem sameRegisters_withMem_advance (s : State) (m : Memory) : SameRegisters s (s.withMem m).advance :=
  { sameConfig_advance s with p := rfl, run := rfl, done := rfl, first := rfl, err := rfl, errInfo := rfl, acc := rfl, plat := rfl }

/-- What every conversion does once its checks have passed: its pixels, one after the other. -/
theorem exec_pixels {c : Conversion} {pixel : Params → Nat → Nat → Cmd Unit} {f : Nat → Nat → Memory → Memory}
    (hp : (conversionChecks c.format c.sb c.db c.rgbTarget c.gamma s).pass)
    (run : ∀ i j m, pixel s.p i j (s.withMem m) = .ok () (s.withMem (f i j m))) :
    runBody (convert c pixel) s = .next (s.withMem (eachPixel s.p f s.mem)).advance :=
  run_body_ok (((guards_convert c pixel s).pass hp).trans (run_pixels run))

/-! ### `CP565`, `SW565`, `X2R565`, `R2GRAY` -/

section
variable {p : Params}

theorem pixelWrites_copied : PixelWrites p 2 (copied p) := fun i j m b hb => by
  rw [copied, memByte_memStore_of_ne _ _ (by omega), memByte_memStore_of_ne _ _ (by omega)]

theorem pixelWrites_swapped : PixelWrites p 2 (swapped p) := fun i j m b hb => by
  rw [swapped, memByte_memStore_of_ne _ _ (by omega), memByte_memStore_of_ne _ _ (by omega)]

theorem pixelWrites_truncated (be : Bool) : PixelWrites p 2 (truncated be p) := fun _ _ m b hb =>
  memByte_memStores_outside _ m _ b (by rwa [length_bytes2])

theorem pixelWrites_grayed (be gamma : Bool) : PixelWrites p 1 (grayed be gamma p) := fun _ _ m b hb =>
  memByte_memStore_of_ne m _ (by omega)

/-- The first byte stored is not the second byte of the pixel where both are apart. -/
theorem memByte_copied {i j : Nat} {m : Memory} (hd : p.clipDst 2 i j + 2 ≤ memLimit) (hs : p.clipSrc 2 i j + 1 ≠ p.clipDst 2 i j) :
    ∀ k < 2, memByte (copied p i j m) (p.clipDst 2 i j + k) = memByte m (p.clipSrc 2 i j + k)
  | 0, _ => by
    rw [copied, memByte_memStore_of_ne _ _ (by omega)]
    exact memByte_memStore_self _ _ _ (by omega)
  | 1, _ => by rw [copied, memByte_memStore_self _ _ _ (by omega), memByte_memStore_of_ne _ _ hs]

theorem memByte_swapped {i j : Nat} {m : Memory} (hd : p.clipDst 2 i j + 2 ≤ memLimit) :
    memByte (swapped p i j m) (p.clipDst 2 i j) = memByte m (p.clipSrc 2 i j + 1) ∧
      memByte (swapped p i j m) (p.clipDst 2 i j + 1) = memByte m (p.clipSrc 2 i j) := by
  constructor
  · rw [swapped, memByte_memStore_of_ne _ _ (by omega), memByte_memStore_self _ _ _ (by omega)]
  · rw [swapped, memByte_memStore_self _ _ _ (by omega)]

theorem memHalf_congr {be : Bool} {m m' : Memory} {a : Nat} (h : ∀ k < 2, memByte m' (a + k) = memByte m (a + k)) :
    memHalf be m' a = memHalf be m a := by
  rw [memHalf, memHalf, show memByte m' a = memByte m a from h 0 (by decide), h 1 (by decide)]

theorem memWord_congr {be : Bool} {m m' : Memory} {a : Nat} (h : ∀ k < 4, memByte m' (a + k) = memByte m (a + k)) :
    memWord be m' a = memWord be m a := by
  rw [memWord, memWord, show memByte m' a = memByte m a from h 0 (by decide), h 1 (by decide), h 2 (by decide), h 3 (by decide)]

end

/-- Settles O31: every element holds what its own pixel stores (`eachPixel_element`), and the bytes of the pixel are untouched. -/
theorem copyPreservesPixels : Obligations.CopyPreservesPixels := fun s hq hp => by
  refine ⟨_, exec_pixels (c := { format := 1, sb := 2, db := 2, rgbTarget := true, gamma := false }) hp (run_copyPixel hq s.p), rfl,
    advanced_advance (s.withMem _), sameRegisters_withMem_advance s _, rfl,
    fun b hb => memByte_eachPixel_outside pixelWrites_copied s.mem hb, fun apart i hi j hj k hk => ?_⟩
  obtain ⟨m', same, element⟩ := eachPixel_element pixelWrites_copied s.mem hi hj
  have fits := (clipDst_le hi hj).trans (dst_bound_of_conversion hp (by omega) (by omega))
  have inside := clipDst_le (db := 2) hi hj
  have second : s.p.clipSrc 2 i j + 1 ≠ s.p.clipDst 2 i j := by
    have := apart i hi j hj 1 (by decide)
    have : s.p.dst.toNat ≤ s.p.clipDst 2 i j := Nat.le_add_right _ _
    omega
  exact (element k hk).trans ((memByte_copied fits second k hk).trans (memByte_clipSrc apart same hi hj hk))

/-- Settles O32: every element holds what its own pixel stores (`eachPixel_element`), and the bytes of the pixel are untouched. -/
theorem swapExchangesBytes : Obligations.SwapExchangesBytes := fun s hq hp => by
  refine ⟨_, exec_pixels (c := { format := 1, sb := 2, db := 2, rgbTarget := true, gamma := false }) hp (run_swapPixel hq s.p), rfl,
    advanced_advance (s.withMem _), sameRegisters_withMem_advance s _, rfl,
    fun b hb => memByte_eachPixel_outside pixelWrites_swapped s.mem hb, fun apart i hi j hj => ?_⟩
  obtain ⟨m', same, element⟩ := eachPixel_element pixelWrites_swapped s.mem hi hj
  have fits := (clipDst_le hi hj).trans (dst_bound_of_conversion hp (by omega) (by omega))
  obtain ⟨first, second⟩ := memByte_swapped (m := m') fits
  exact ⟨(element 0 (by decide)).trans (first.trans (memByte_clipSrc apart same hi hj (show 1 < 2 by decide))),
    (element 1 (by decide)).trans (second.trans (memByte_clipSrc apart same hi hj (show 0 < 2 by decide)))⟩

/-- Settles O33: every element holds what its own pixel stores (`eachPixel_element`); the two formulas agree (`truncate565_eq`). -/
theorem truncationKeepsTopBits : Obligations.TruncationKeepsTopBits := fun s hq hp => by
  refine ⟨_, exec_pixels (c := { format := 2, sb := 4, db := 2, rgbTarget := true, gamma := false }) hp (run_truncPixel hq s.p), rfl,
    advanced_advance (s.withMem _), sameRegisters_withMem_advance s _, rfl,
    fun b hb => memByte_eachPixel_outside (pixelWrites_truncated _) s.mem hb, fun apart i hi j hj => ?_⟩
  obtain ⟨m', same, element⟩ := eachPixel_element (pixelWrites_truncated s.plat.memBE) s.mem hi hj
  have fits := (clipDst_le hi hj).trans (dst_bound_of_conversion hp (by omega) (by omega))
  have pixel : memWord s.plat.memBE m' (s.p.clipSrc 4 i j) = s.word (s.p.clipSrc 4 i j) :=
    memWord_congr fun k hk => memByte_clipSrc apart same hi hj hk
  refine (memHalf_congr element).trans ?_
  rw [← pixel]
  exact (memHalf_memStores _ _ _ fits).trans (truncate565_eq _).symm

/-- The gray of a pixel reads one byte of the table, at most 249 bytes in. -/
theorem grayOf_congr {gamma : Bool} {p : Params} {m m' : Memory} (x : Half)
    (h : gamma = true → ∀ k < 256, memByte m' (p.lutb.toNat + k) = memByte m (p.lutb.toNat + k)) :
    grayOf gamma p x m' = grayOf gamma p x m := by
  unfold grayOf
  rw [← luma_eq]
  cases gamma
  · rfl
  · exact h rfl _ (Nat.lt_of_le_of_lt (luma_le x) (by decide))

/-- Settles O34: every element holds what its own pixel stores (`eachPixel_element`); pixel and table are untouched. -/
theorem grayIsLumaOfPixels : Obligations.GrayIsLumaOfPixels := fun gamma s hq hp => by
  have bytes : s.p.cw * s.p.ch * 1 = s.p.cw * s.p.ch := Nat.mul_one _
  refine ⟨_, exec_pixels (c := { format := 1, sb := 2, db := 1, rgbTarget := false, gamma := gamma }) hp (run_grayPixel hq gamma s.p), rfl,
    advanced_advance (s.withMem _), sameRegisters_withMem_advance s _, rfl,
    fun b hb => memByte_eachPixel_outside (pixelWrites_grayed _ _) s.mem (by rwa [bytes]), fun apart table i hi j hj => ?_⟩
  obtain ⟨m', same, element⟩ := eachPixel_element (pixelWrites_grayed s.plat.memBE gamma) s.mem hi hj
  have fits := (clipDst_le hi hj).trans (dst_bound_of_conversion hp (by omega) (by omega))
  have pixel : memHalf s.plat.memBE m' (s.p.clipSrc 2 i j) = s.half (s.p.clipSrc 2 i j) :=
    memHalf_congr fun k hk => memByte_clipSrc apart same hi hj hk
  refine (element 0 (by decide)).trans ?_
  rw [Nat.add_zero, grayed, memByte_memStore_self _ _ _ fits, pixel]
  exact grayOf_congr _ fun hg k hk => same _ (by have := table hg; omega)

/-! ### `PACK1` -/

theorem elementwise_pack (src dst : Nat) :
    Elementwise dst 1 (fun k m => memStore m (dst + k) (packedByte m (src + 8 * k))) := fun k m b hb =>
  memByte_memStore_of_ne m _ (by omega)

/-- Bit `7 - b` of a packed byte is the top bit of byte `b`. -/
theorem getLsbD_packedByte (m : Memory) (a : Nat) {b : Nat} (hb : b < 8) :
    (packedByte m a).getLsbD (7 - b) = (memByte m (a + b)).getLsbD 7 := by
  rw [← packBits_eq, packBits]
  interval_cases b <;> simp [List.range']

theorem exec_pack1 (hq : s.undisturbed = true) (hp : (pack1Checks s).pass) : exec .pack1 s =
    .next (s.withMem (packAll s.p.src.toNat s.p.dst.toNat (s.p.cw * s.p.ch / 8) s.mem)).advance :=
  run_body_ok (((guards_pack1 s).pass hp).trans (run_packLoop hq))

theorem dst_bound_of_pack1 (hp : (pack1Checks s).pass) (h : 0 < s.p.cw * s.p.ch) :
    s.p.dst.toNat + s.p.cw * s.p.ch / 8 ≤ memLimit := by
  have last := hp (rangeCheck s.plat { base := s.p.dst.toNat, size := s.p.cw * s.p.ch / 8, kind := .wr }) (by
    rw [pack1Checks, if_neg (by rw [← Nat.mul_eq_zero]; omega)]
    simp)
  simp only [rangeCheck, Bool.not_eq_false', rangeOk, Bool.and_eq_true, decide_eq_true_eq] at last
  exact last.1

/-- Settles O39: every byte of the destination is its own group's packed byte (`scan_element`), and the group is untouched. -/
theorem packingTakesTopBits : Obligations.PackingTakesTopBits := fun s hq hp => by
  have scanned := elementwise_pack s.p.src.toNat s.p.dst.toNat
  refine ⟨_, exec_pack1 hq hp, rfl, advanced_advance (s.withMem _), sameRegisters_withMem_advance s _, rfl,
    fun b hb => memByte_scan_outside scanned s.mem _ (by rwa [Nat.mul_one]), fun apart k hk b hb => ?_⟩
  obtain ⟨m', same, element⟩ := scan_element scanned s.mem hk
  have stored := element 0 (by decide)
  rw [Nat.mul_one, Nat.add_zero, memByte_memStore_self _ _ _ (by have := dst_bound_of_pack1 hp (by omega); omega)] at stored
  refine (congrArg (BitVec.getLsbD · (7 - b)) stored).trans ?_
  rw [getLsbD_packedByte _ _ hb, same _ (by omega)]
  rfl

/-! ### `DITHER` -/

section
variable {base cw ch : Nat}

/-- A byte holds one of the two levels. -/
def TwoLevel (v : Byte) : Prop := v = 0x00 ∨ v = 0xFF

theorem memByte_spread_of_ne {e8 w : Int} {x y b : Nat} (m : Memory) (h : x < cw → y < ch → b ≠ base + y * cw + x) :
    memByte (spread base cw ch e8 w x y m) b = memByte m b := by
  unfold spread
  split
  next inside => exact memByte_memStore_of_ne m _ (h inside.1 inside.2)
  next => rfl

/-- A pixel changes no byte but its own and its neighbours' below, to the right and below right, where those lie in the buffer. -/
theorem memByte_dithered_of_ne {x y b : Nat} (m : Memory) (here : b ≠ base + y * cw + x)
    (below : y + 1 < ch → b ≠ base + (y + 1) * cw + x) (right : x + 1 < cw → b ≠ base + y * cw + (x + 1))
    (both : x + 1 < cw → y + 1 < ch → b ≠ base + (y + 1) * cw + (x + 1)) :
    memByte (dithered base cw ch x y m) b = memByte m b := by
  rw [dithered, memByte_spread_of_ne _ both, memByte_spread_of_ne _ fun h _ => right h, memByte_spread_of_ne _ fun _ h => below h,
    memByte_memStore_of_ne _ _ here]

/-- A pixel's own byte is left at one of the two levels. -/
theorem dithered_twoLevel {x y : Nat} (m : Memory) (hx : x < cw) (hb : base + y * cw + x < memLimit) :
    TwoLevel (memByte (dithered base cw ch x y m) (base + y * cw + x)) := by
  have row : (y + 1) * cw = y * cw + cw := Nat.succ_mul y cw
  rw [dithered, memByte_spread_of_ne _ (by omega), memByte_spread_of_ne _ (by omega), memByte_spread_of_ne _ (by omega),
    memByte_memStore_self _ _ _ hb]
  split
  · exact Or.inr rfl
  · exact Or.inl rfl

/-- `DITHER` visits the buffer column by column. -/
theorem ditherAll_eq_scan (m : Memory) :
    ditherAll base cw ch m = scan (fun k => dithered base cw ch (k / ch) (k % ch)) (cw * ch) m :=
  foldl_grid (dithered base cw ch) ch cw m

/-- Distinct cells have distinct addresses. -/
theorem cell_inj {x y x' y' : Nat} (hx : x < cw) (hx' : x' < cw) (h : y * cw + x = y' * cw + x') : x = x' ∧ y = y' := by
  have col := congrArg (· % cw) h
  simp only [Nat.mul_add_mod_of_lt hx, Nat.mul_add_mod_of_lt hx'] at col
  subst col
  exact ⟨rfl, Nat.eq_of_mul_eq_mul_right (by omega) (Nat.add_right_cancel h)⟩

/-- A pixel of the grid does not change a byte of a pixel visited before it. -/
theorem memByte_dithered_visited {x y x' y' : Nat} (m : Memory) (hx : x < cw) (hx' : x' < cw) (h : x' < x ∨ x' = x ∧ y' < y) :
    memByte (dithered base cw ch x y m) (base + y' * cw + x') = memByte m (base + y' * cw + x') := by
  have ne : ∀ {u v : Nat}, u < cw → (x' = u → y' = v → False) → base + y' * cw + x' ≠ base + v * cw + u := fun {u v} hu hne e => by
    obtain ⟨hxu, hyv⟩ := cell_inj hx' hu (show y' * cw + x' = v * cw + u by omega)
    exact hne hxu hyv
  exact memByte_dithered_of_ne m (ne hx (by omega)) (fun _ => ne hx (by omega)) (fun hr => ne hr (by omega)) (fun hr _ => ne hr (by omega))

/-- After `n` pixels every pixel visited holds one of the two levels. -/
theorem scan_dithered_twoLevel (m : Memory) (hb : base + cw * ch ≤ memLimit) : ∀ n, n ≤ cw * ch →
    ∀ x < cw, ∀ y < ch, x * ch + y < n →
      TwoLevel (memByte (scan (fun k => dithered base cw ch (k / ch) (k % ch)) n m) (base + y * cw + x))
  | n + 1, hn, x, hx, y, hy, h => by
    have hcol : n / ch < cw := Nat.div_lt_of_lt_mul (by rwa [Nat.mul_comm])
    have order := Nat.div_add_mod n ch
    rw [scan_succ]
    by_cases visited : x * ch + y < n
    · rw [memByte_dithered_visited _ hcol hx]
      · exact scan_dithered_twoLevel m hb n (by omega) x hx y hy visited
      · rcases Nat.lt_trichotomy x (n / ch) with lt | rfl | gt
        · exact Or.inl lt
        · rw [Nat.mul_comm] at visited
          exact Or.inr ⟨rfl, by omega⟩
        · have := Nat.mul_le_mul_left ch gt
          have := Nat.mod_lt n (show 0 < ch by omega)
          rw [Nat.mul_succ] at *
          rw [Nat.mul_comm x] at visited
          omega
    · obtain rfl : n = x * ch + y := by omega
      rw [Nat.mul_add_mod_of_lt hy, row_of_cell x hy]
      have := element_lt hx hy
      exact dithered_twoLevel _ hx (by omega)

theorem memByte_dithered_outside {x y b : Nat} (m : Memory) (hx : x < cw) (hy : y < ch) (hb : b < base ∨ base + cw * ch ≤ b) :
    memByte (dithered base cw ch x y m) b = memByte m b :=
  have away : ∀ {u v : Nat}, u < cw → v < ch → b ≠ base + v * cw + u := fun hu hv => by
    have := element_lt hu hv
    omega
  memByte_dithered_of_ne m (away hx hy) (fun h => away hx h) (fun h => away h hy) (fun h h' => away h h')

/-- A step that keeps a byte, taken for every element of a scan. -/
theorem memByte_scan_of_forall {write : Nat → Memory → Memory} {n b : Nat} (m : Memory)
    (h : ∀ k < n, ∀ m, memByte (write k m) b = memByte m b) : ∀ d ≤ n, memByte (scan write d m) b = memByte m b
  | 0, _ => rfl
  | d + 1, hd => by rw [scan_succ, h d hd, memByte_scan_of_forall m h d (by omega)]

theorem memByte_ditherAll_outside {b : Nat} (m : Memory) (hb : b < base ∨ base + cw * ch ≤ b) :
    memByte (ditherAll base cw ch m) b = memByte m b := by
  rw [ditherAll_eq_scan]
  refine memByte_scan_of_forall m (fun k hk m => ?_) _ (Nat.le_refl _)
  have rows : 0 < ch := Nat.pos_of_mul_pos_left (Nat.zero_lt_of_lt hk)
  exact memByte_dithered_outside m (Nat.div_lt_of_lt_mul (by rwa [Nat.mul_comm])) (Nat.mod_lt _ rows) hb

/-- After `DITHER` every byte of the buffer holds one of the two levels. -/
theorem ditherAll_twoLevel (m : Memory) (hb : base + cw * ch ≤ memLimit) {k : Nat} (hk : k < cw * ch) :
    TwoLevel (memByte (ditherAll base cw ch m) (base + k)) := by
  have cols : 0 < cw := Nat.pos_of_mul_pos_right (Nat.zero_lt_of_lt hk)
  have hx := Nat.mod_lt k cols
  have hy : k / cw < ch := Nat.div_lt_of_lt_mul hk
  have visited := element_lt (cw := ch) (ch := cw) hy hx
  have two := scan_dithered_twoLevel m hb _ (Nat.le_refl _) _ hx _ hy (by rw [Nat.mul_comm cw]; omega)
  rw [← ditherAll_eq_scan] at two
  rwa [Nat.add_assoc, Nat.mul_comm (k / cw), Nat.div_add_mod] at two

/-! ### `DITHER` on a buffer of two levels -/

theorem memByte_memStore_same (m : Memory) (a b : Nat) : memByte (memStore m a (memByte m a)) b = memByte m b := by
  by_cases h : b = a
  · subst h
    by_cases hb : b < memLimit
    · exact memByte_memStore_self m b _ hb
    · rw [memStore, if_neg hb]
  · exact memByte_memStore_of_ne m _ h

/-- No error, nothing to spread. -/
theorem memByte_spread_zero {w : Int} {x y : Nat} (m : Memory) (b : Nat) :
    memByte (spread base cw ch 0 w x y m) b = memByte m b := by
  unfold spread
  split
  · have clamped : ∀ v : Byte, BitVec.ofNat 8 (min (max ((v.toNat : Int) + 0 * w) 0) 255).toNat = v := fun v => by
      have := v.isLt
      rw [Int.zero_mul, Int.add_zero, max_eq_left (by omega), min_eq_left (by omega), Int.toNat_natCast, BitVec.ofNat_toNat,
        BitVec.setWidth_eq]
    rw [clamped]
    exact memByte_memStore_same m _ b
  · rfl

/-- A pixel at one of the two levels changes no byte. -/
theorem memByte_dithered_flat {x y : Nat} {m : Memory} (h : TwoLevel (memByte m (base + y * cw + x))) (b : Nat) :
    memByte (dithered base cw ch x y m) b = memByte m b := by
  have level : (if (memByte m (base + y * cw + x)).toNat ≥ 128 then (255 : Byte) else 0) = memByte m (base + y * cw + x) := by
    rcases h with h | h <;> rw [h] <;> rfl
  simp only [dithered]
  rw [level, Int.sub_self, Int.zero_tdiv, memByte_spread_zero, memByte_spread_zero, memByte_spread_zero, memByte_memStore_same]

theorem memByte_ditherAll_flat {m : Memory} (h : ∀ k < cw * ch, TwoLevel (memByte m (base + k))) (b : Nat) :
    memByte (ditherAll base cw ch m) b = memByte m b := by
  rw [ditherAll_eq_scan]
  suffices flat : ∀ d ≤ cw * ch, ∀ b, memByte (scan (fun k => dithered base cw ch (k / ch) (k % ch)) d m) b = memByte m b from
    flat _ (Nat.le_refl _) b
  intro d
  induction d with
  | zero => exact fun _ _ => rfl
  | succ d ih =>
    intro hd b
    have rows : 0 < ch := Nat.pos_of_mul_pos_left (Nat.zero_lt_of_lt hd)
    have inside := element_lt (cw := cw) (ch := ch) (i := d / ch) (j := d % ch)
      (Nat.div_lt_of_lt_mul (by rwa [Nat.mul_comm])) (Nat.mod_lt _ rows)
    have two : TwoLevel (memByte (scan (fun k => dithered base cw ch (k / ch) (k % ch)) d m) (base + d % ch * cw + d / ch)) := by
      rw [ih (by omega), Nat.add_assoc]
      exact h _ (by omega)
    rw [scan_succ, memByte_dithered_flat two, ih (by omega)]

end

theorem exec_dither (hq : s.undisturbed = true) (hp : (ditherChecks s).pass) :
    exec .dither s = .next (s.withMem (ditherAll s.p.dst.toNat s.p.cw s.p.ch s.mem)).advance :=
  run_body_ok (((guards_dither s).pass hp).trans (run_ditherLoop hq))

theorem dst_bound_of_dither (hp : (ditherChecks s).pass) (h : 0 < s.p.cw * s.p.ch) :
    s.p.dst.toNat + s.p.cw * s.p.ch ≤ memLimit := by
  have last := hp (rangeCheck s.plat { base := s.p.dst.toNat, size := s.p.cw * s.p.ch, kind := .wr }) (by
    rw [ditherChecks, if_neg (by rw [← Nat.mul_eq_zero]; omega)]
    simp)
  simp only [rangeCheck, Bool.not_eq_false', rangeOk, Bool.and_eq_true, decide_eq_true_eq] at last
  exact last.1

/-- Settles O37: a pixel visited is left at one of two levels, and no later pixel touches it (`scan_dithered_twoLevel`). -/
theorem ditherLeavesTwoLevels : Obligations.DitherLeavesTwoLevels := fun s hq hp =>
  ⟨_, exec_dither hq hp, rfl, advanced_advance (s.withMem _), sameRegisters_withMem_advance s _, rfl,
    fun _ hb => memByte_ditherAll_outside s.mem hb,
    fun _ hk => ditherAll_twoLevel s.mem (dst_bound_of_dither hp (Nat.zero_lt_of_lt hk)) hk⟩

/-- Settles O38: a pixel at one of the two levels has no error, so it changes no byte (`memByte_dithered_flat`). -/
theorem ditherKeepsFlatBuffers : Obligations.DitherKeepsFlatBuffers := fun _ hq hp flat =>
  ⟨_, exec_dither hq hp, memByte_ditherAll_flat flat⟩

end Sys2Proof.Machine
end

section
/-! PROOFS. What falls inside a command: a reset, which leaves the beginning of the command's effects, and host stores, which every
access sees before or after (70_reset_and_hazards.md R320, 20_memory.md R83 and R88). -/

namespace Sys2Proof.Machine

variable {s : State}

/-! ### Host stores inside a command -/

theorem memByte_memStoreAll_of_ne {b : Nat} : ∀ (w : HostStore) (m : Memory), (∀ c ∈ w, c.1.toNat ≠ b) →
    memByte (memStoreAll m w) b = memByte m b
  | [], _, _ => rfl
  | c :: w, m, h =>
    (memByte_memStoreAll_of_ne w _ fun x hx => h x (List.mem_cons_of_mem c hx)).trans
      (memByte_memStore_of_ne m c.2 (h c List.mem_cons_self).symm)

/-- A read with one store in flight sees memory wholly before it or wholly after it. -/
theorem readAccess_race {w : HostStore} (h : s.env.inFlight = [w]) (a n : Nat) : ∃ bs t, readAccess a n s = .ok bs t ∧ t.mem = s.mem ∧
    (bs = memBytes s.mem a n ∨ bs = memBytes (memStoreAll s.mem w) a n) := by
  refine ⟨_, _, rfl, rfl, ?_⟩
  rw [h, racedView, racedView]
  cases s.env.raceBit s.env.draws
  · exact Or.inl rfl
  · exact Or.inr rfl

/-- What is left of a store, wholly or without the bytes written after it, leaves each byte as one order of the two writers does. -/
theorem memByte_race (m : Memory) (w : HostStore) {a : Nat} {vs : List Byte} (h : a + vs.length ≤ memLimit) (later : Bool) (b : Nat) :
    let left := if later then w else w.filter (fun c => !(a ≤ c.1.toNat && c.1.toNat < a + vs.length))
    memByte (memStoreAll (memStores m a vs) left) b = memByte (memStoreAll (memStores m a vs) w) b ∨
      memByte (memStoreAll (memStores m a vs) left) b = memByte (memStores (memStoreAll m w) a vs) b := by
  cases later with
  | true => exact Or.inl rfl
  | false =>
    by_cases written : a ≤ b ∧ b < a + vs.length
    · refine Or.inr ((memByte_memStoreAll_of_ne _ _ fun c hc e => ?_).trans ?_)
      · have kept := List.of_mem_filter hc
        simp only [Bool.not_eq_true', Bool.and_eq_false_iff, decide_eq_false_iff_not] at kept
        omega
      · rw [memByte_memStores vs _ a b h, memByte_memStores vs _ a b h, dif_pos written, dif_pos written]
    · refine Or.inl (memByte_memStoreAll_filter w rfl fun c _ hc => ?_)
      simp only [Bool.not_eq_true', Bool.and_eq_false_iff, decide_eq_false_iff_not]
      omega

/-- A write with one store in flight: once the store has landed, each byte is as one order of the two writers leaves it. -/
theorem writeAccess_race {w : HostStore} (h : s.env.inFlight = [w]) (hc : s.env.cut = none) {a : Nat} {vs : List Byte}
    (hl : a + vs.length ≤ memLimit) : ∃ t, writeAccess a vs s = .ok () t ∧
      ∀ b, memByte t.land.mem b = memByte (memStoreAll (memStores s.mem a vs) w) b ∨
        memByte t.land.mem b = memByte (memStores (memStoreAll s.mem w) a vs) b := by
  refine ⟨_, (run_bind_ok (run_effect hc)).trans (run_modify _ s), fun b => ?_⟩
  rw [h]
  exact memByte_race s.mem w hl (s.env.raceBit s.env.draws) b

theorem Runs.uncut {i : Instr} {t : State} (h : Runs i s t) (hs : s.env.cut = none) : t.env.cut = none := by
  cases h with
  | halted | refused => exact hs
  | completed h hf => cases hf <;> exact h.cut.1 hs
  | failed _ h => exact h.cut.1 hs
  | cut hc => exact absurd hs hc

theorem SeqRuns.uncut {t : State} (h : SeqRuns s t) (hs : s.env.cut = none) : t.env.cut = none := by
  cases h with
  | idle | noFetch => exact hs
  | illegal _ hr => exact hr.cut.1 hs
  | runs _ hr _ _ _ ht => exact ht.uncut (hr.cut.1 hs)

/-- Settles O60: the draws choose between the two orders (`readAccess_race`, `writeAccess_race`), and what is in flight at the end of
the turn lands there (`landed_seqRuns`). -/
theorem racingStoreIsOldOrNew : Obligations.RacingStoreIsOldOrNew := by
  refine ⟨fun s w a n => ⟨fun ts ht => by rw [step, ht]; rfl, fun h => ⟨readAccess_race h a n, fun vs hc hl => writeAccess_race h hc hl⟩⟩,
    fun s t ws ts _ hturns h => ?_⟩
  rcases step_cases h with ⟨ht, -⟩ | ⟨_, _, _, u, ht, hr, -, rfl⟩ | ⟨_, _, _, _, ht, -⟩ | ⟨_, _, _, ht, -⟩ | ⟨_, _, ht, -⟩ | ⟨_, ht, -⟩
  case inr.inl =>
    rw [hturns] at ht
    cases ht
    have land : u.settle = u.land := settle_of_uncut (hr.uncut rfl)
    refine ⟨settle_quiet u, fun hrun => ?_, fun b hb => ?_⟩
    · rw [land]
      cases hr with
      | idle => rfl
      | noFetch hon | illegal hon | runs hon => exact absurd (hrun.symm.trans hon) (by decide)
    · rw [land]
      exact (byteAt_land u b).trans (landed_seqRuns (s := (s.withTurns ts).disturbed ws none) rfl hb hr)
  all_goals rw [hturns] at ht; cases ht

/-! ### A reset inside a command -/

/-- With the end of the turn, the state is reset and what has been done is these effects. -/
def AbandonedAfter (o : Host.Outcome State Fault Refusal) (s : State) (effs : List Effect) : Prop :=
  ∃ u : State, settled o = .next u.resetInput ∧ u.plat = s.plat ∧ u.mem = memAfter s.mem effs ∧ u.trace = s.trace ++ eventsOf effs

/-- A part of the sequencer's turn does these effects, and a reset inside it leaves the first of them. -/
structure Abandons (o : State → Host.Outcome State Fault Refusal) (s : State) (effs : List Effect) : Prop where
  atomic : ∀ e ∈ effs, e.atomic = true
  cut : ∀ k, AbandonedAfter (o (s.cutAt (some k))) s (effs.take k)
  whole : ∀ u, settled (o s) = .next u → u.mem = memAfter s.mem effs ∧ u.trace = s.trace ++ eventsOf effs
  hangs : ∀ r, settled (o s) = .fault r → memAfter s.mem effs = s.mem

theorem disturbed_cut (h : s.undisturbed = true) (k : Option Nat) : s.disturbed [] k = s.cutAt k := by
  rw [State.disturbed, State.cutAt, ← (undisturbed_iff.1 h).1]

theorem cutAt_none (h : s.undisturbed = true) : s.cutAt none = s := by rw [← disturbed_cut h, disturbed_nothing h]

/-- A reset still on its way at the end of the turn arrives there. -/
theorem abandoned_of_late {v : State} {effs : List Effect} (hc : v.env.cut ≠ none) (hi : v.env.inFlight = []) (hp : v.plat = s.plat)
    (hm : v.mem = memAfter s.mem effs) (ht : v.trace = s.trace ++ eventsOf effs) : AbandonedAfter (.next v) s effs := by
  refine ⟨v.land, congrArg Host.Outcome.next (settle_of_cut hc), hp, ?_, ht⟩
  rw [← hm]
  exact congrArg (List.foldl memStoreAll v.mem) hi

/-- A reset that has arrived leaves nothing for the end of the turn. -/
theorem abandoned_of_reset {v : State} {effs : List Effect} (hi : v.env.inFlight = []) (hp : v.plat = s.plat)
    (hm : v.mem = memAfter s.mem effs) (ht : v.trace = s.trace ++ eventsOf effs) : AbandonedAfter (.next v.resetInput) s effs :=
  ⟨v, congrArg Host.Outcome.next (settle_undisturbed (s := v.resetInput) (undisturbed_iff.2 ⟨hi, rfl⟩)), hp, hm, ht⟩

/-- A part of the turn without effects: the reset comes after it. -/
theorem abandons_nothing {o : State → Host.Outcome State Fault Refusal} {f : State → State} (hq : s.undisturbed = true)
    (ho : ∀ k, o (s.cutAt k) = .next (f (s.cutAt k)))
    (hf : ∀ u : State, (f u).mem = u.mem ∧ (f u).trace = u.trace ∧ (f u).plat = u.plat ∧ (f u).env = u.env) : Abandons o s [] where
  atomic := fun _ he => by cases he
  cut := fun k => by
    obtain ⟨hmem, htrace, hplat, henv⟩ := hf (s.cutAt (some k))
    rw [ho, List.take_nil]
    exact abandoned_of_late (by rw [henv]; exact Option.some_ne_none k) (by rw [henv]; exact (undisturbed_iff.1 hq).1) hplat hmem
      (htrace.trans (List.append_nil _).symm)
  whole := fun u hu => by
    obtain ⟨hmem, htrace, -, henv⟩ := hf s
    have quiet : (f s).undisturbed = true := by rwa [State.undisturbed, henv]
    have next := ho none
    rw [cutAt_none hq] at next
    rw [next, settled, settle_undisturbed quiet] at hu
    cases hu
    exact ⟨hmem, htrace.trans (List.append_nil _).symm⟩
  hangs := fun _ _ => rfl

theorem Abandons.congr {o o' : State → Host.Outcome State Fault Refusal} {effs : List Effect} (hq : s.undisturbed = true)
    (h : Abandons o s effs) (e : ∀ k, o' (s.cutAt k) = o (s.cutAt k)) : Abandons o' s effs where
  atomic := h.atomic
  cut := fun k => by rw [e]; exact h.cut k
  whole := by have := e none; rw [cutAt_none hq] at this; rw [this]; exact h.whole
  hangs := by have := e none; rw [cutAt_none hq] at this; rw [this]; exact h.hangs

/-- A body that is a sequence of effects, cut by a reset: inside it, or where it has ended, or where it waits for the transport. -/
theorem Performs.abandoned {body : Cmd Unit} {effs : List Effect} (g : Good body) (p : Performs body s effs) (k : Nat) :
    AbandonedAfter (runBody body (s.cutAt (some k))) s (effs.take k) := by
  by_cases hk : k < effs.length
  · obtain ⟨t, hcut, hmem, htrace, hplat, hflight⟩ := p.part k hk
    rw [runBody, hcut]
    exact abandoned_of_reset hflight hplat hmem htrace
  · have hplat := (g.grows s).2.1
    have hend := p.whole k (by omega)
    have hmem := p.mem
    have htrace := p.trace
    have hquiet := p.quiet
    rw [List.take_of_length_le (by omega), runBody, hend]
    cases hb : body s with
    | ok v u =>
      rw [hb] at hmem htrace hquiet hplat
      exact abandoned_of_late (Option.some_ne_none _) hquiet.2 hplat hmem htrace
    | error e u =>
      rw [hb] at hmem htrace hquiet hplat
      cases e with
      | raised c info => exact abandoned_of_late (Option.some_ne_none _) hquiet.2 hplat hmem htrace
      | cut => exact absurd hb (p.uncut u)
      | silent => exact abandoned_of_reset (v := u) hquiet.2 hplat hmem htrace

theorem Performs.abandons {body : Cmd Unit} {effs : List Effect} (g : Good body) (clean : HangsClean body) (p : Performs body s effs) :
    Abandons (runBody body) s effs where
  atomic := p.atomic
  cut := p.abandoned g
  whole := fun t ht => by
    obtain ⟨-, hmem, htrace, ⟨hcut, hflight⟩, huncut, -⟩ := p
    rw [runBody] at ht
    cases hb : body s with
    | ok v u =>
      rw [hb] at hmem htrace hcut hflight ht
      have quiet : u.advance.undisturbed = true := undisturbed_iff.2 ⟨hflight, hcut⟩
      rw [finish, settled, settle_undisturbed quiet] at ht
      cases ht
      exact ⟨hmem, htrace⟩
    | error e u =>
      rw [hb] at hmem htrace hcut hflight ht
      cases e with
      | raised c info =>
        have quiet : (u.raiseFault c info).undisturbed = true := undisturbed_iff.2 ⟨hflight, hcut⟩
        rw [finish, settled, settle_undisturbed quiet] at ht
        cases ht
        exact ⟨hmem, htrace⟩
      | cut => exact absurd hb (huncut u)
      | silent =>
        rw [Result.state_error] at hcut
        rw [finish, hcut] at ht
        cases ht
  hangs := fun r hr => by
    have hmem := p.mem
    rw [runBody] at hr
    cases hb : body s with
    | ok v u => rw [hb] at hr; cases hr
    | error e u =>
      rw [hb] at hr hmem
      cases e with
      | raised | cut => cases hr
      | silent => exact hmem.symm.trans (clean s u hb)

/-- The effects of a body are no other events than the beginning of the command's. -/
theorem Performs.events_begin {body : Cmd Unit} {effs : List Effect} {es : List Event} (p : Performs body s effs)
    (h : Begins body es s) : eventsOf effs <+: es := by
  obtain ⟨pre, hpre, htrace⟩ := h
  rwa [List.append_cancel_left (p.trace.symm.trans htrace)]

theorem exec_abandons_of_good (hq : s.undisturbed = true) {i : Instr} (hh : i ≠ .halt) (hf : ∀ w, i ≠ .wrreg w true) :
    ∃ effs, Abandons (exec i) s effs ∧ eventsOf effs <+: s.commandEvents i := by
  obtain ⟨body, g, run, begins, clean⟩ := good_exec i hh hf
  obtain ⟨effs, p⟩ := g.performs s (undisturbed_iff.1 hq).2 (undisturbed_iff.1 hq).1
  exact ⟨effs, (p.abandons g clean).congr hq fun _ => run _, p.events_begin (begins s hq)⟩

/-- Every command is a sequence of effects that a reset cuts. -/
theorem exec_abandons (hq : s.undisturbed = true) (i : Instr) :
    ∃ effs, Abandons (exec i) s effs ∧ eventsOf effs <+: s.commandEvents i := by
  by_cases hflush : ∃ w, i = .wrreg w true
  · obtain ⟨w, rfl⟩ := hflush
    cases hp : s.prepared with
    | true =>
      obtain ⟨effs, h, events⟩ := exec_abandons_of_good hq (i := .wrreg w false) (by simp) (by simp)
      exact ⟨effs, h.congr hq fun k => by rw [exec_flush, if_pos (show (s.cutAt k).prepared = true from hp)], events⟩
    | false =>
      exact ⟨[], abandons_nothing hq (f := (·.raiseFault .state 0)) (fun k => exec_flush_of_not_prepared (s := s.cutAt k) hp w)
        fun _ => ⟨rfl, rfl, rfl, rfl⟩, List.nil_prefix⟩
  · by_cases hh : i = .halt
    · subst hh
      exact ⟨[], abandons_nothing hq (f := State.halted) (fun k => exec_halt _) fun _ => ⟨rfl, rfl, rfl, rfl⟩, List.nil_prefix⟩
    · exact exec_abandons_of_good hq hh fun w hw => hflush ⟨w, hw⟩

/-! ### The sequencer's turn with a reset on its way -/

/-- A read where no store is in flight, whether a reset is on its way or not. -/
theorem read32_of_noneInFlight (h : s.env.inFlight = []) (a : Nat) : read32 a s = .ok (s.word a) s := by
  have read : readAccess a 4 s = .ok (memBytes s.mem a 4) s := by
    simp only [readAccess, h, racedView, List.length_nil, Nat.add_zero]
    rw [← h]
    rfl
  unfold read32
  rw [run_bind_ok read]
  rfl

theorem fetch_of_noneInFlight (h : s.env.inFlight = []) (ha : accessible s.plat s.cpValue.toNat 8 .rd = true) :
    fetch s = .ok (s.word s.cpValue.toNat, s.word (s.cpValue.toNat + 4)) s := by
  unfold fetch
  rw [run_get_bind, if_pos ha, run_bind_ok (read32_of_noneInFlight h _), run_bind_ok (read32_of_noneInFlight h _)]
  rfl

theorem seqStep_of_noneInFlight (h : s.env.inFlight = []) (hrun : s.run = true)
    (ha : accessible s.plat s.cpValue.toNat 8 .rd = true) :
    seqStep s = runFetched (s.word s.cpValue.toNat) (s.word (s.cpValue.toNat + 4)) s := by
  simp only [seqStep, hrun, if_true, fetch_of_noneInFlight h ha]

theorem seqStep_of_noAccess (hrun : s.run = true) (ha : accessible s.plat s.cpValue.toNat 8 .rd = false) :
    seqStep s = .next (s.raiseFault .access s.cpValue) := by
  rcases fetch_cases s with ⟨-, hf⟩ | ⟨hok, -⟩
  · simp only [seqStep, hrun, if_true, hf]
    rfl
  · exact absurd (ha.symm.trans hok) (by decide)

/-- The sequencer's turn is a sequence of effects that a reset cuts: its command's, or none. -/
theorem seqStep_abandons (hq : s.undisturbed = true) : ∃ effs, Abandons seqStep s effs ∧
    ∀ i, s.run = true → accessible s.plat s.cpValue.toNat 8 .rd = true →
      decode (s.word (s.cpValue.toNat + 4) ++ s.word s.cpValue.toNat : Command) = .ok i → eventsOf effs <+: s.commandEvents i := by
  cases hrun : s.run with
  | false =>
    exact ⟨[], abandons_nothing hq (f := id) (fun k => if_neg (by rw [show (s.cutAt k).run = false from hrun]; decide))
      fun _ => ⟨rfl, rfl, rfl, rfl⟩, fun _ _ _ _ => List.nil_prefix⟩
  | true =>
    cases ha : accessible s.plat s.cpValue.toNat 8 .rd with
    | false =>
      exact ⟨[], abandons_nothing hq (f := fun u => u.raiseFault .access u.cpValue)
        (fun k => seqStep_of_noAccess (s := s.cutAt k) hrun ha) fun _ => ⟨rfl, rfl, rfl, rfl⟩, fun _ _ _ _ => List.nil_prefix⟩
    | true =>
      have fetched := fun k => seqStep_of_noneInFlight (s := s.cutAt k) (undisturbed_iff.1 hq).1 hrun ha
      cases hd : decode (s.word (s.cpValue.toNat + 4) ++ s.word s.cpValue.toNat : Command) with
      | error e =>
        refine ⟨[], abandons_nothing hq (f := (·.raiseFault .illegal (s.word s.cpValue.toNat))) (fun k => (fetched k).trans ?_)
          fun _ => ⟨rfl, rfl, rfl, rfl⟩, fun _ _ _ _ => List.nil_prefix⟩
        show runFetched (s.word s.cpValue.toNat) (s.word (s.cpValue.toNat + 4)) (s.cutAt k) = _
        rw [runFetched, hd]
      | ok i =>
        obtain ⟨effs, h, events⟩ := exec_abandons hq i
        refine ⟨effs, h.congr hq fun k => (fetched k).trans ?_, fun i' _ _ hi' => ?_⟩
        · show runFetched (s.word s.cpValue.toNat) (s.word (s.cpValue.toNat + 4)) (s.cutAt k) = _
          rw [runFetched, hd]
        · cases hi'
          exact events

theorem commandEvents_withTurns (s : State) (ts : List Turn) (i : Instr) : (s.withTurns ts).commandEvents i = s.commandEvents i := by
  cases i <;> rfl

/-- Settles O58: the sequencer's turn is its command's body, a sequence of effects of which a reset leaves the beginning
(`Good.performs`, `seqStep_abandons`). -/
theorem resetAbandonsCommand : Obligations.ResetAbandonsCommand := fun s ts hq => by
  have hq' : (s.withTurns ts).undisturbed = true := hq
  obtain ⟨effs, h, events⟩ := seqStep_abandons hq'
  have turn : ∀ k, step (s.withTurns (.sequencer [] k :: ts)) = settled (seqStep ((s.withTurns ts).cutAt k)) := fun k => by
    rw [← disturbed_cut hq']
    rfl
  have alone : step (s.withTurns (.sequencer [] none :: ts)) = settled (seqStep (s.withTurns ts)) := by rw [turn, cutAt_none hq']
  refine ⟨effs, h.atomic, fun k => ?_, fun u hu => h.whole u (alone.symm.trans hu), fun r hr => h.hangs r (alone.symm.trans hr),
    fun i hrun ha hd => commandEvents_withTurns s ts i ▸ events i hrun ha hd⟩
  obtain ⟨u, hu, hplat, hmem, htrace⟩ := h.cut k
  exact ⟨u.resetInput, (turn _).trans hu, resetValues_resetInput u, hplat, hmem, by rw [State.resetInput_trace, htrace]; rfl⟩

end Sys2Proof.Machine
end
